-- ==== Sys2Proof/Word.lean ====
section
/-! DEFINITION. The word types of the block: bytes on the wire, 40-bit pipe addresses, 5-bit register
addresses and 3-bit pipe numbers (00_scope.md R9 and R10, 10_state.md R19 and R28). -/

namespace Sys2Proof

/-- An 8-bit unsigned value; bit 0 is the least significant bit (R9). -/
abbrev Byte := BitVec 8

/-- A pipe address, a 40-bit value (R10). -/
abbrev Addr := BitVec 40

/-- A register address, 5 bits wide (R19). -/
abbrev RegAddr := BitVec 5

/-- A pipe number as STATUS carries it in RX_P_NO, 3 bits wide (R28). -/
abbrev PipeNo := BitVec 3

end Sys2Proof
end

