-- ==== Sys2Proof/Syntax.lean ====
section
/-! DEFINITION. The two instruction sets of the block (00_scope.md R2): the 9 wire commands (`Instr`, one
constructor per row of spec/opcode_table.json) and the 13 host operations (`HostOp`, one constructor per row of
30_encoding.md R83), and the named registers of 10_state.md R19. -/

namespace Sys2Proof

/-- A wire command: one chip-select frame, i.e. a command byte and the MOSI bytes of the data phase (30_encoding.md R68).
The data phase of a read command is ignored by the device; only its length counts (40_spi_commands.md R86). -/
inductive Instr where
  /-- R_REGISTER, `000aaaaa` (R87): `data` are the bytes sent while the register is read -/
  | rRegister (a : RegAddr) (data : List Byte)
  /-- W_REGISTER, `001aaaaa` (R88) -/
  | wRegister (a : RegAddr) (data : List Byte)
  /-- ACTIVATE, 0x50 (R94) -/
  | activate (data : List Byte)
  /-- R_RX_PL_WID, 0x60 (R95) -/
  | rRxPlWid (data : List Byte)
  /-- R_RX_PAYLOAD, 0x61 (R90) -/
  | rRxPayload (data : List Byte)
  /-- W_TX_PAYLOAD, 0xA0 (R91) -/
  | wTxPayload (data : List Byte)
  /-- FLUSH_TX, 0xE1 (R92) -/
  | flushTx (data : List Byte)
  /-- FLUSH_RX, 0xE2 (R93) -/
  | flushRx (data : List Byte)
  /-- NOP, 0xFF (R96) -/
  | nop (data : List Byte)
  deriving DecidableEq, Repr

/-- The registers of the map, under the names of 10_state.md R19. -/
inductive Reg where
  | config | enAA | enRxaddr | setupAw | setupRetr | rfCh | rfSetup | status | observeTx | cd
  | rxAddrP0 | rxAddrP1 | rxAddrP2 | rxAddrP3 | rxAddrP4 | rxAddrP5 | txAddr
  | rxPwP0 | rxPwP1 | rxPwP2 | rxPwP3 | rxPwP4 | rxPwP5
  | fifoStatus | dynpd | feature
  deriving DecidableEq, Repr

/-- The access class of a register as a whole (10_state.md R20). -/
inductive Access where
  /-- RW: the value written is stored and read back -/
  | rw
  /-- RO: a write is accepted and ignored -/
  | ro
  /-- W1C: STATUS, whose three flags are cleared by writing 1 -/
  | w1c
  deriving DecidableEq, Repr

/-- A host operation (30_encoding.md R83). -/
inductive HostOp where
  | readRegister (addr : Byte)
  | readRegisterN (addr : Byte) (len : Nat)
  | writeRegister (addr : Byte) (value : Byte)
  | writeRegisterN (addr : Byte) (bytes : List Byte)
  /-- `initialize` (R113); `none` is the call without its argument, which takes the default of 00_scope.md R7 -/
  | initializeRadio (payloadSizeReq : Option Nat)
  | openWritingPipe (address : Nat)
  | openReadingPipe (index : Nat) (address : Nat)
  | transmit (payload : List Byte)
  | startListening
  | available
  | readPayload (len : Nat)
  | stopListening
  | dumpRegisters
  deriving DecidableEq, Repr

end Sys2Proof
end

