-- ==== Sys2Proof/Config.lean ====
section
/-! DEFINITION. The implementation parameters of 00_scope.md R7, the value this hardware takes for each, and
the one free value of the model. A State carries its parameters as a read-only record (assumption 2), so a
statement about every state is a statement about every choice of the OPEN parameters. -/

namespace Sys2Proof

/-- `OVERLENGTH_POLICY` (R7, 90_conflicts.md C6). -/
inductive OverlengthPolicy where
  | reject
  | truncate
  deriving DecidableEq, Repr

/-- Where a field lies in its register: its lowest bit, and how many bits it has. -/
structure BitField where
  low : Nat
  size : Nat
  deriving DecidableEq, Repr

/-- The bits of a field. -/
def BitField.mask (f : BitField) : Byte := BitVec.ofNat 8 ((2 ^ f.size - 1) <<< f.low)

/-- The value of a field in a register byte. -/
def BitField.value (f : BitField) (v : Byte) : Nat := (v.toNat >>> f.low) % 2 ^ f.size

/-- The field layouts of 10_state.md R21 to R35, under the names of their tables; a bit of a register that no field of it takes is
Reserved. The five-byte registers have no layout: each of their bits is the address's (R31). -/
structure FieldMap where
  /-- CONFIG (R21) -/
  maskRxDR : BitField
  maskTxDS : BitField
  maskMaxRT : BitField
  enCrc : BitField
  crco : BitField
  pwrUp : BitField
  primRx : BitField
  /-- EN_AA: ENAA_P0 and the pipes after it, a bit each (R22) -/
  enAA : BitField
  /-- EN_RXADDR: ERX_P0 and the pipes after it, a bit each (R23) -/
  erx : BitField
  /-- SETUP_AW (R24) -/
  aw : BitField
  /-- SETUP_RETR (R25) -/
  ard : BitField
  arc : BitField
  /-- RF_CH (R26) -/
  rfCh : BitField
  /-- RF_SETUP (R27) -/
  pllLock : BitField
  rfDr : BitField
  rfPwr : BitField
  lnaHcurr : BitField
  /-- STATUS (R28) -/
  rxDR : BitField
  txDS : BitField
  maxRT : BitField
  rxPNo : BitField
  txFull : BitField
  /-- OBSERVE_TX and CD (R30) -/
  plosCnt : BitField
  arcCnt : BitField
  cd : BitField
  /-- RX_PW_Px (R33) -/
  rxPw : BitField
  /-- FIFO_STATUS (R34) -/
  fifoTxReuse : BitField
  fifoTxFull : BitField
  fifoTxEmpty : BitField
  fifoRxFull : BitField
  fifoRxEmpty : BitField
  /-- DYNPD: DPL_P0 and the pipes after it, a bit each (R35) -/
  dpl : BitField
  /-- FEATURE (R35) -/
  enDpl : BitField
  enAckPay : BitField
  enDynAck : BitField
  deriving DecidableEq, Repr

/-- A row of the table of 10_state.md R19, but for its reset value. -/
structure RegRow where
  addr : RegAddr
  reg : Reg
  /-- the width column, in bytes -/
  bytes : Nat
  access : Access
  deriving DecidableEq, Repr

/-- `REG_MAP`: the register addresses, widths and access classes of 10_state.md R19 and the layouts of R21 to R35 (decision D2). -/
structure RegMap where
  rows : List RegRow
  fields : FieldMap
  deriving DecidableEq, Repr

/-- `RESET_VALUES`: the reset column of 10_state.md R19. OBSERVE_TX and CD hold nothing (R30) and FIFO_STATUS is computed (R34),
so they have no field. -/
structure ResetValues where
  config : Byte
  enAA : Byte
  enRxaddr : Byte
  setupAw : Byte
  setupRetr : Byte
  rfCh : Byte
  rfSetup : Byte
  /-- its RX_DR, TX_DS and MAX_RT are the flags at reset (R28); the other bits are computed -/
  status : Byte
  rxAddrP0 : Addr
  rxAddrP1 : Addr
  rxAddrP2 : Byte
  rxAddrP3 : Byte
  rxAddrP4 : Byte
  rxAddrP5 : Byte
  txAddr : Addr
  rxPwP0 : Byte
  rxPwP1 : Byte
  rxPwP2 : Byte
  rxPwP3 : Byte
  rxPwP4 : Byte
  rxPwP5 : Byte
  dynpd : Byte
  feature : Byte
  deriving DecidableEq, Repr

/-- The parameters of R7, one field each, under the names of its table. -/
structure Config where
  /-- `REG_WIDTH`, in bits; the word type of a register is `Byte`, which R9 fixes (assumption 2) -/
  regWidth : Nat
  /-- `REG_ADDR_BITS`; the word type of a register address is `RegAddr`, which 10_state.md R19 fixes (assumption 2) -/
  regAddrBits : Nat
  /-- `REG_ADDR_MAX` -/
  regAddrMax : Nat
  /-- `NUM_PIPES` -/
  numPipes : Nat
  /-- `ADDR_BYTES`; the word type of a pipe address is `Addr`, which R10 fixes (assumption 2) -/
  addrBytes : Nat
  /-- `MAX_PAYLOAD`, in bytes -/
  maxPayload : Nat
  /-- `PAYLOAD_SIZE_REQ`: the default argument of `initialize` -/
  payloadSizeReq : Nat
  /-- `TX_FIFO_DEPTH` -/
  txFifoDepth : Nat
  /-- `RX_FIFO_DEPTH` -/
  rxFifoDepth : Nat
  /-- `VARIANT_RF_CH` -/
  variantRfCh : Byte
  /-- `VARIANT_EN_AA` -/
  variantEnAA : Byte
  /-- `VARIANT_SETUP_RETR` -/
  variantSetupRetr : Byte
  /-- `CONFIG_INIT` -/
  configInit : Byte
  /-- `SETUP_AW_INIT` -/
  setupAwInit : Byte
  /-- `RF_SETUP_INIT` -/
  rfSetupInit : Byte
  /-- `POR_MS` -/
  porMs : Nat
  /-- `CE_PULSE_MS` -/
  cePulseMs : Nat
  /-- `LISTEN_SETTLE_MS` -/
  listenSettleMs : Nat
  /-- `TX_TIMEOUT_MS` -/
  txTimeoutMs : Nat
  /-- `PWRUP_DELAY_MS` -/
  pwrupDelayMs : Nat
  /-- `XFER_TIMEOUT_MS` -/
  xferTimeoutMs : Nat
  /-- `OVERLENGTH_POLICY` -/
  overlength : OverlengthPolicy
  /-- `CHIP_NEEDS_ACTIVATE` -/
  chipNeedsActivate : Bool
  /-- `DUMMY_BYTE` -/
  dummyByte : Byte
  /-- `REG_MAP` -/
  regMap : RegMap
  /-- `RESET_VALUES` -/
  resetValues : ResetValues
  /-- `RADIO_LIVE`, the premise of 45_radio_core.md R142 (default false); no step reads it, and
  `Sys2Proof.Safety.LivenessPremises` is where it is used -/
  radioLive : Bool
  deriving DecidableEq, Repr

/-- The rows of 10_state.md R19 that name a register. -/
def familyRegRows : List RegRow :=
  [⟨0x00#5, .config, 1, .rw⟩, ⟨0x01#5, .enAA, 1, .rw⟩, ⟨0x02#5, .enRxaddr, 1, .rw⟩, ⟨0x03#5, .setupAw, 1, .rw⟩,
   ⟨0x04#5, .setupRetr, 1, .rw⟩, ⟨0x05#5, .rfCh, 1, .rw⟩, ⟨0x06#5, .rfSetup, 1, .rw⟩, ⟨0x07#5, .status, 1, .w1c⟩,
   ⟨0x08#5, .observeTx, 1, .ro⟩, ⟨0x09#5, .cd, 1, .ro⟩]
  ++ [⟨0x0A#5, .rxAddrP0, 5, .rw⟩, ⟨0x0B#5, .rxAddrP1, 5, .rw⟩, ⟨0x0C#5, .rxAddrP2, 1, .rw⟩, ⟨0x0D#5, .rxAddrP3, 1, .rw⟩,
   ⟨0x0E#5, .rxAddrP4, 1, .rw⟩, ⟨0x0F#5, .rxAddrP5, 1, .rw⟩, ⟨0x10#5, .txAddr, 5, .rw⟩]
  ++ [⟨0x11#5, .rxPwP0, 1, .rw⟩, ⟨0x12#5, .rxPwP1, 1, .rw⟩, ⟨0x13#5, .rxPwP2, 1, .rw⟩, ⟨0x14#5, .rxPwP3, 1, .rw⟩,
   ⟨0x15#5, .rxPwP4, 1, .rw⟩, ⟨0x16#5, .rxPwP5, 1, .rw⟩, ⟨0x17#5, .fifoStatus, 1, .ro⟩, ⟨0x1C#5, .dynpd, 1, .rw⟩,
   ⟨0x1D#5, .feature, 1, .rw⟩]

/-- The layouts of 10_state.md R21 to R35. -/
def familyFields : FieldMap where
  maskRxDR := ⟨6, 1⟩
  maskTxDS := ⟨5, 1⟩
  maskMaxRT := ⟨4, 1⟩
  enCrc := ⟨3, 1⟩
  crco := ⟨2, 1⟩
  pwrUp := ⟨1, 1⟩
  primRx := ⟨0, 1⟩
  enAA := ⟨0, 6⟩
  erx := ⟨0, 6⟩
  aw := ⟨0, 2⟩
  ard := ⟨4, 4⟩
  arc := ⟨0, 4⟩
  rfCh := ⟨0, 7⟩
  pllLock := ⟨4, 1⟩
  rfDr := ⟨3, 1⟩
  rfPwr := ⟨1, 2⟩
  lnaHcurr := ⟨0, 1⟩
  rxDR := ⟨6, 1⟩
  txDS := ⟨5, 1⟩
  maxRT := ⟨4, 1⟩
  rxPNo := ⟨1, 3⟩
  txFull := ⟨0, 1⟩
  plosCnt := ⟨4, 4⟩
  arcCnt := ⟨0, 4⟩
  cd := ⟨0, 1⟩
  rxPw := ⟨0, 6⟩
  fifoTxReuse := ⟨6, 1⟩
  fifoTxFull := ⟨5, 1⟩
  fifoTxEmpty := ⟨4, 1⟩
  fifoRxFull := ⟨1, 1⟩
  fifoRxEmpty := ⟨0, 1⟩
  dpl := ⟨0, 6⟩
  enDpl := ⟨2, 1⟩
  enAckPay := ⟨1, 1⟩
  enDynAck := ⟨0, 1⟩

/-- `REG_MAP` of this hardware, the nRF24L01 family's (decision D2). -/
def familyRegMap : RegMap where
  rows := familyRegRows
  fields := familyFields

/-- The reset column of 10_state.md R19. -/
def familyResetValues : ResetValues where
  config := 0x08#8
  enAA := 0x3F#8
  enRxaddr := 0x03#8
  setupAw := 0x03#8
  setupRetr := 0x03#8
  rfCh := 0x02#8
  rfSetup := 0x0F#8
  status := 0x0E#8
  rxAddrP0 := 0xE7E7E7E7E7#40
  rxAddrP1 := 0xC2C2C2C2C2#40
  rxAddrP2 := 0xC3#8
  rxAddrP3 := 0xC4#8
  rxAddrP4 := 0xC5#8
  rxAddrP5 := 0xC6#8
  txAddr := 0xE7E7E7E7E7#40
  rxPwP0 := 0x00#8
  rxPwP1 := 0x00#8
  rxPwP2 := 0x00#8
  rxPwP3 := 0x00#8
  rxPwP4 := 0x00#8
  rxPwP5 := 0x00#8
  dynpd := 0x00#8
  feature := 0x00#8

/-- The "value" column of R7: this hardware. -/
def Config.thisHardware : Config where
  regWidth := 8
  regAddrBits := 5
  regAddrMax := 0x1D
  numPipes := 6
  addrBytes := 5
  maxPayload := 32
  payloadSizeReq := 32
  txFifoDepth := 3
  rxFifoDepth := 3
  variantRfCh := 76#8
  variantEnAA := 0x3F#8
  variantSetupRetr := 0x4F#8
  configInit := 0x0C#8
  setupAwInit := 0x03#8
  rfSetupInit := 0x0F#8
  porMs := 5
  cePulseMs := 1
  listenSettleMs := 1
  txTimeoutMs := 10
  pwrupDelayMs := 0
  xferTimeoutMs := 100
  overlength := .reject
  chipNeedsActivate := true
  dummyByte := 0xFF#8
  regMap := familyRegMap
  resetValues := familyResetValues
  radioLive := false

/-- FREE VALUE (assumption 3). `draw()` of 00_scope.md R11: a byte the environment chooses under no law. The
k-th draw of a run is `freeByte k`; it has no body, so nothing can be proved about its value. -/
opaque Config.freeByte : Nat → Byte

end Sys2Proof
end

