-- ==== Sys2Proof/Decode.lean ====
section
/-! DEFINITION. The decoder and encoder of wire commands (30_encoding.md R68 to R79), the register map
(10_state.md R19) and the facts about a register that the parameter `REG_MAP` gives: its width, its access class, its
reserved bits and its illegal values. -/

namespace Sys2Proof

/-! ## The register map -/

/-- The register an address names: none above `REG_ADDR_MAX` or at an address without a row (R19, R43). -/
def Config.regAt (c : Config) (a : RegAddr) : Option Reg :=
  if a.toNat ≤ c.regAddrMax then (c.regMap.rows.find? fun row => row.addr == a).map (·.reg) else none

/-- The row of a register (R19). -/
def Config.row (c : Config) (r : Reg) : Option RegRow := c.regMap.rows.find? fun row => row.reg == r

/-- The address of a register: that of its row (R19). -/
def Config.addrOf (c : Config) (r : Reg) : Option RegAddr := (c.row r).map (·.addr)

/-- `width(a)`, in bytes: 5 for 0x0A, 0x0B and 0x10, and 1 for every other register (40_spi_commands.md R87). No address reaches a
register without a row. -/
def Config.width (c : Config) (r : Reg) : Nat := ((c.row r).map (·.bytes)).getD 0

/-- Access class (R19, R20). -/
def Config.access (c : Config) (r : Reg) : Access := ((c.row r).map (·.access)).getD .ro

/-- The mask a register address is cut with, 0x1F for 5 bits (30_encoding.md R70). -/
def Config.addrMask (c : Config) : Byte := BitVec.ofNat 8 (2 ^ c.regAddrBits - 1)

/-- `2^40`: the first number that is no pipe address (00_scope.md R10). -/
def Config.addrLimit (c : Config) : Nat := 2 ^ (c.regWidth * c.addrBytes)

/-- The fields of a register (R21 to R35); all bits of an address byte are in use (R31, R32). -/
def Reg.fields (f : FieldMap) : Reg → List BitField
  | .config => [f.maskRxDR, f.maskTxDS, f.maskMaxRT, f.enCrc, f.crco, f.pwrUp, f.primRx]
  | .enAA => [f.enAA]
  | .enRxaddr => [f.erx]
  | .setupAw => [f.aw]
  | .setupRetr => [f.ard, f.arc]
  | .rfCh => [f.rfCh]
  | .rfSetup => [f.pllLock, f.rfDr, f.rfPwr, f.lnaHcurr]
  | .status => [f.rxDR, f.txDS, f.maxRT, f.rxPNo, f.txFull]
  | .observeTx => [f.plosCnt, f.arcCnt]
  | .cd => [f.cd]
  | .rxAddrP0 | .rxAddrP1 | .rxAddrP2 | .rxAddrP3 | .rxAddrP4 | .rxAddrP5 | .txAddr => [⟨0, 8⟩]
  | .rxPwP0 | .rxPwP1 | .rxPwP2 | .rxPwP3 | .rxPwP4 | .rxPwP5 => [f.rxPw]
  | .fifoStatus => [f.fifoTxReuse, f.fifoTxFull, f.fifoTxEmpty, f.fifoRxFull, f.fifoRxEmpty]
  | .dynpd => [f.dpl]
  | .feature => [f.enDpl, f.enAckPay, f.enDynAck]

/-- `reserved_mask(a)` (40_spi_commands.md R88): the bits that are in no field of the register. -/
def Config.reservedMask (c : Config) (r : Reg) : Byte := ~~~((r.fields c.regMap.fields).foldl (fun m f => m ||| f.mask) 0#8)

/-- `illegal(a, v)`: AW = 0b00 for SETUP_AW, more than 32 for RX_PW_Px (R88). -/
def Config.illegal (c : Config) (r : Reg) (v : Byte) : Bool :=
  match r with
  | .setupAw => c.regMap.fields.aw.value v == 0
  | .rxPwP0 | .rxPwP1 | .rxPwP2 | .rxPwP3 | .rxPwP4 | .rxPwP5 => decide (32 < v.toNat)
  | _ => false

/-- The registers that the extended features gate: DYNPD and FEATURE (10_state.md R35). -/
def Reg.isFeatureReg : Reg → Bool
  | .dynpd | .feature => true
  | _ => false

/-! ## Decoding and encoding a frame -/

/-- The decoder of R74 on the command byte `c`, in the rule's order of tests; the data phase is carried along. -/
def decodeCommand (c : Byte) (d : List Byte) : Option Instr :=
  if c &&& 0xE0#8 = 0x00#8 then some (.rRegister (c.setWidth 5) d)
  else if c &&& 0xE0#8 = 0x20#8 then some (.wRegister (c.setWidth 5) d)
  else if c = 0x50#8 then some (.activate d)
  else if c = 0x60#8 then some (.rRxPlWid d)
  else if c = 0x61#8 then some (.rRxPayload d)
  else if c = 0xA0#8 then some (.wTxPayload d)
  else if c = 0xE1#8 then some (.flushTx d)
  else if c = 0xE2#8 then some (.flushRx d)
  else if c = 0xFF#8 then some (.nop d)
  else none

/-- A frame's MOSI bytes: the first is the command byte, the rest the data phase (R68). A frame's length is
fixed by the CSN edge (R79), so no byte is left over. -/
def decode : List Byte → Option Instr
  | [] => none
  | c :: d => decodeCommand c d

/-- The command byte of a wire command (R69, R70, R73). -/
def Instr.commandByte : Instr → Byte
  | .rRegister a _ => 0x00#8 ||| a.setWidth 8
  | .wRegister a _ => 0x20#8 ||| a.setWidth 8
  | .activate _ => 0x50#8
  | .rRxPlWid _ => 0x60#8
  | .rRxPayload _ => 0x61#8
  | .wTxPayload _ => 0xA0#8
  | .flushTx _ => 0xE1#8
  | .flushRx _ => 0xE2#8
  | .nop _ => 0xFF#8

/-- The MOSI bytes of the data phase. -/
def Instr.data : Instr → List Byte
  | .rRegister _ d => d
  | .wRegister _ d => d
  | .activate d => d
  | .rRxPlWid d => d
  | .rRxPayload d => d
  | .wTxPayload d => d
  | .flushTx d => d
  | .flushRx d => d
  | .nop d => d

/-- The MOSI byte list of a wire command, in the format of R68. -/
def encode (i : Instr) : List Byte := i.commandByte :: i.data

/-! ## The words of spec/opcode_table.json -/

/-- The bytes of a table word: byte k is bits 8k+7..8k of `w`, first byte first on the wire. The frame ends
after `nbits` bits, because the CSN edge, not the command, fixes a frame's length (R79; assumption 4). -/
def wordBytes (nbits w : Nat) : List Byte :=
  (List.range (nbits / 8)).map fun k => BitVec.ofNat 8 (w >>> (8 * k))

/-- What the decoder reads from a table word. -/
def decodeTableWord (nbits w : Nat) : Option Instr := decode (wordBytes nbits w)

end Sys2Proof
end

