-- ==== Sys2Proof/Machine/State.lean ====
section
/-! DEFINITION. The state of the block (10_state.md), as plain data: the device, the two control lines, the controller, the
clock, the bus trace, and the schedule of the environment's moves. `State.reset` is the launch state of R46. -/

namespace Sys2Proof.Machine

/-- The block has no fault mechanism: "stuck or fault: not used by this spec" (93_implementation_defined.md §2). No meaning
raises a fault, so the type has no constructor. -/
inductive Fault where
  deriving DecidableEq, Repr

/-- The reasons of 60_exceptions.md R147: a step that has no meaning in the spec. A refusal ends the run, which is the
"mark kept for the rest of the run" (assumption 5). Every constructor is SAFE: the model stops and claims nothing. -/
inductive Refusal where
  /-- Raised by `exec` for an instruction without a meaning; none is left. Safe. -/
  | notModelled (mnemonic : String)
  /-- Raised when a frame opens while the clock is below `POR_MS`, by an edge or by the draw of a failed abort (R84, R170; assumption 15).
  Safe. -/
  | frameBeforePowerOnReset
  /-- Raised by a command byte with no wire command (30_encoding.md R77). Safe. -/
  | undefinedCommand (c : Byte)
  /-- Raised by R_REGISTER and W_REGISTER at an address with no register (R87, R88). Safe. -/
  | undefinedRegister (a : RegAddr)
  /-- Raised by W_REGISTER with n ≥ 1 data bytes and n not the register's width (R88). Safe. -/
  | wrongWriteLength (a : RegAddr) (n : Nat)
  /-- Raised by W_REGISTER writing 1 to a reserved bit (R88). Safe. -/
  | reservedBit (a : RegAddr)
  /-- Raised by W_REGISTER of SETUP_AW with AW = 00, or of RX_PW_Px above 32 (R88). Safe. -/
  | illegalValue (a : RegAddr)
  /-- Raised by W_TX_PAYLOAD with more than 32 data bytes (R91). Safe. -/
  | payloadTooLong (n : Nat)
  /-- Raised by ACTIVATE with a data phase other than [0x73] (R94). Safe. -/
  | badActivate (d : List Byte)
  /-- Raised by openWritingPipe, openReadingPipe, transmit and readPayload while `cfg.payload_size` is unset (R41). Safe. -/
  | payloadSizeUnset
  /-- Raised by initialize(0) (42_configuration.md R113). Safe. -/
  | zeroPayloadSize
  /-- Raised by a radio-core step while dynamic payload is effectively on (45_radio_core.md R141). Safe. -/
  | dynamicPayload
  deriving DecidableEq, Repr

/-! ## The device -/

/-- An entry of the RX FIFO: the pipe that received, and the payload (R36). -/
structure RxEntry where
  pipe : PipeNo
  payload : List Byte
  deriving DecidableEq, Repr

/-- The device: the register file of R19 (each register under its own name; STATUS is kept as its three stored flags, R28;
FIFO_STATUS is computed, R34; OBSERVE_TX and CD are not stored, R30), the FIFOs (R36), the hidden bits (R37, R38) and the
frame buffer (R39). -/
structure Device where
  config : Byte
  enAA : Byte
  enRxaddr : Byte
  setupAw : Byte
  setupRetr : Byte
  rfCh : Byte
  rfSetup : Byte
  rxDR : Bool
  txDS : Bool
  maxRT : Bool
  rxAddrP0 : Addr
  rxAddrP1 : Addr
  rxAddrP2 : Byte
  rxAddrP3 : Byte
  rxAddrP4 : Byte
  rxAddrP5 : Byte
  txAddr : Addr
  rxPwP0 : Byte
  rxPwP1 : Byte
  rxPwP2 : Byte
  rxPwP3 : Byte
  rxPwP4 : Byte
  rxPwP5 : Byte
  dynpd : Byte
  feature : Byte
  /-- TX FIFO, the oldest payload first -/
  txq : List (List Byte)
  /-- RX FIFO, the oldest entry first -/
  rxq : List RxEntry
  txActive : Bool
  featuresActive : Bool
  /-- frame buffer: MOSI bytes received since CSN last fell -/
  mosi : List Byte
  /-- frame buffer: MISO bytes returned since CSN last fell -/
  miso : List Byte
  deriving DecidableEq, Repr

/-- The device at power-on: the reset values of R19 and R46, from the parameter `RESET_VALUES`. R46 does not define the register
values from launch until the clock reaches `POR_MS`; the model lets the registers hold their reset values from clock 0 on (DESIGN
CHOICE, assumption 23), which no frame can see, since none may open before. -/
def Device.reset (c : Config) : Device where
  config := c.resetValues.config
  enAA := c.resetValues.enAA
  enRxaddr := c.resetValues.enRxaddr
  setupAw := c.resetValues.setupAw
  setupRetr := c.resetValues.setupRetr
  rfCh := c.resetValues.rfCh
  rfSetup := c.resetValues.rfSetup
  rxDR := c.resetValues.status.getLsbD c.regMap.fields.rxDR.low
  txDS := c.resetValues.status.getLsbD c.regMap.fields.txDS.low
  maxRT := c.resetValues.status.getLsbD c.regMap.fields.maxRT.low
  rxAddrP0 := c.resetValues.rxAddrP0
  rxAddrP1 := c.resetValues.rxAddrP1
  rxAddrP2 := c.resetValues.rxAddrP2
  rxAddrP3 := c.resetValues.rxAddrP3
  rxAddrP4 := c.resetValues.rxAddrP4
  rxAddrP5 := c.resetValues.rxAddrP5
  txAddr := c.resetValues.txAddr
  rxPwP0 := c.resetValues.rxPwP0
  rxPwP1 := c.resetValues.rxPwP1
  rxPwP2 := c.resetValues.rxPwP2
  rxPwP3 := c.resetValues.rxPwP3
  rxPwP4 := c.resetValues.rxPwP4
  rxPwP5 := c.resetValues.rxPwP5
  dynpd := c.resetValues.dynpd
  feature := c.resetValues.feature
  txq := []
  rxq := []
  txActive := false
  featuresActive := false
  mosi := []
  miso := []

/-- The transceiver states of R40. -/
inductive XcvrState where
  | powerDown
  | standbyConfiguring
  | transmitting
  | listening
  deriving DecidableEq, Repr

/-! ## The controller -/

/-- An event of the bus trace (20_memory.md R58). -/
inductive BusEvent where
  | csn (v : Bool)
  | ce (v : Bool)
  | xfer (out : List Byte) (inn : List Byte)
  | xfail (out : List Byte)
  | wait (d : Nat)
  | time (t : Nat)
  deriving DecidableEq, Repr

/-- The record `dumpRegisters` returns (46_diagnostics.md R143). -/
structure RegisterDump where
  config : Byte
  enAA : Byte
  enRxaddr : Byte
  setupAw : Byte
  rfCh : Byte
  rfSetup : Byte
  rxAddrP0 : Addr
  rxAddrP1 : Addr
  rxAddrP2 : Byte
  rxAddrP3 : Byte
  rxAddrP4 : Byte
  rxAddrP5 : Byte
  txAddr : Addr
  rxPwP0 : Byte
  rxPwP1 : Byte
  rxPwP2 : Byte
  rxPwP3 : Byte
  rxPwP4 : Byte
  rxPwP5 : Byte
  dynpd : Byte
  feature : Byte
  deriving DecidableEq, Repr

/-- The payload of an `Ok` result (60_exceptions.md R145). -/
inductive OkValue where
  | done
  | byte (b : Byte)
  | bytes (bs : List Byte)
  | delivered
  | notDelivered
  | availability (avail : Bool) (pipe : PipeNo)
  | payload (avail : Bool) (data : List Byte) (count : Nat)
  | dump (d : RegisterDump)
  deriving DecidableEq, Repr

/-- The result of a host operation (R145). -/
inductive Result where
  | ok (v : OkValue)
  | transportError
  | timeout
  | invalidArgument
  deriving DecidableEq, Repr

/-- What the last line of an operation's pseudocode returns, computed from the operation's locals. -/
inductive Return where
  /-- `return Ok` -/
  | done
  /-- `return Ok(ins[1][0])` (R99) -/
  | byte
  /-- `return Ok(ins[1])` (R100) -/
  | bytes
  /-- the decode of the last STATUS value (R123) -/
  | transmit
  /-- `return Ok(s[6] == 1, s[3:1])` (R125) -/
  | available
  /-- the outcome of a payload read of n bytes (R126) -/
  | payload (n : Nat)
  /-- the 21 values read (R143) -/
  | dump
  deriving DecidableEq, Repr

/-- One line of the controller's pseudocode. `setCSN`, `exchange`, `setCE`, `waitMs` and `now` are the primitives of
00_scope.md R12 and `frame` is `Frame(outs)` of 41_register_access.md R97; the others are the lines between them, which touch
no bus and no line. -/
inductive Action where
  | frame (outs : List (List Byte))
  | setCSN (v : Bool)
  | exchange (out : List Byte)
  | setCE (v : Bool)
  | waitMs (d : Nat)
  /-- a `WaitMs(d)` in progress, held until the clock reaches `t` (60_exceptions.md R157) -/
  | waitUntil (t d : Nat)
  | now
  /-- second half of a read-modify-write: `v <- ins[1][0]`, then write `(v | set) & ~clear` to `a` -/
  | rmw (a : Byte) (set clear : Byte)
  /-- `t0 <- Now()` after the `now` before it (R120) -/
  | startDeadline
  /-- head of the poll loop of `transmit` (R122) -/
  | poll
  /-- `s <- ins[1][0]`, and exit the loop on TX_DS or MAX_RT -/
  | pollFlags
  /-- exit the loop on the deadline, else go round -/
  | pollDeadline
  /-- `s <- ins[1][0]` and the flag clears of `available` (R125) -/
  | clearSeen
  /-- keep `ins` for the result -/
  | keep
  /-- `cfg.payload_size <- min(n, MAX_PAYLOAD)` (R113) -/
  | setPayloadSize (n : Nat)
  /-- `cfg.pipe0_cache <- A` (R117) -/
  | cachePipe0 (a : Addr)
  /-- restore RX_ADDR_P0 from the cache, if it holds an address (R124) -/
  | restorePipe0
  | ret (r : Return)
  deriving DecidableEq, Repr

/-- The locals of the operation in progress; none survives it (R41). -/
structure Locals where
  /-- `ins`, the lists the last `Frame` returned -/
  ins : List (List Byte)
  /-- `s`, the last STATUS value tested -/
  status : Byte
  /-- the last value of `Now()` -/
  time : Nat
  /-- `t0` of R120 -/
  t0 : Nat
  /-- the `ins` kept for the result -/
  kept : List (List (List Byte))
  deriving DecidableEq, Repr

/-- No local set. -/
def Locals.empty : Locals := { ins := [], status := 0#8, time := 0, t0 := 0, kept := [] }

/-! ## The environment -/

/-- The draws of one move of the controller: how much the clock advances, which primitive fails if any, and what a
failure leaves (41_register_access.md R98). All are the environment's choice (60_exceptions.md R146, R156, R158). -/
structure Draw where
  /-- milliseconds the clock advances after the move -/
  idleMs : Nat
  /-- milliseconds of each exchange call of the move, 0 where the list is short -/
  xferMs : List Nat
  /-- index of the primitive that fails, counted from 0 inside the move -/
  failAt : Option Nat
  /-- the `SetCSN(1)` of `abort_frame` fails too -/
  abortFails : Bool
  /-- level of CSN after that second failure -/
  csn : Bool
  /-- level of CE after a failed `SetCE` -/
  ce : Bool
  /-- the unconstrained device state after a failure -/
  device : Device
  deriving DecidableEq, Repr

/-- One move of the environment's schedule (00_scope.md R15): the clock, the radio core and air, or the controller with
the draws of its next line. -/
inductive Move where
  /-- the clock agent advances the clock by d milliseconds (R156) -/
  | clock (d : Nat)
  /-- TX start (45_radio_core.md R133) -/
  | txStart
  /-- TX completion; `acked` is the air's choice where one is open (R134) -/
  | txComplete (acked : Bool)
  /-- RX delivery of a packet; `pick` is the air's choice among the candidate pipes (R138, R140) -/
  | rxDeliver (x : Addr) (payload : List Byte) (pick : Nat)
  /-- the controller takes its next line -/
  | run (d : Draw)
  deriving DecidableEq, Repr

/-! ## The state -/

/-- Everything the spec gives the machine (INVENTORY.md, State). -/
structure State where
  /-- the parameters of R7: read-only, no step changes them -/
  par : Config
  dev : Device
  /-- chip-select line, active low: true is 1 (R42) -/
  csn : Bool
  /-- chip-enable line (R42) -/
  ce : Bool
  /-- `cfg.payload_size`: none is `unset` (R41) -/
  payloadSize : Option Nat
  /-- `cfg.pipe0_cache` (R41) -/
  pipe0Cache : Option Addr
  /-- the millisecond clock (60_exceptions.md R156) -/
  clock : Nat
  /-- the host's calls not yet started, first to run first (R18) -/
  program : List HostOp
  /-- the operation in progress -/
  op : Option HostOp
  /-- the operation's lines not yet run -/
  code : List Action
  /-- step index: primitives the operation has completed (R18) -/
  stepIndex : Nat
  loc : Locals
  /-- results returned, oldest first (R145, R165) -/
  results : List Result
  /-- bus trace, oldest event first (R58) -/
  trace : List BusEvent
  /-- MODEL'S OWN: the MISO bytes of the frame closed last, byte 0 the status byte -/
  resp : List Byte
  /-- MODEL'S OWN: how many bytes have been drawn; draw k is `Config.freeByte k` (assumption 3) -/
  draws : Nat
  /-- MODEL'S OWN: the environment's moves to come, next first (assumption 6) -/
  sched : List Move
  deriving DecidableEq, Repr

/-- The launch state, the radio's power-on (R46). -/
def State.reset : State where
  par := Config.thisHardware
  dev := Device.reset Config.thisHardware
  csn := true
  ce := false
  payloadSize := none
  pipe0Cache := none
  clock := 0
  program := []
  op := none
  code := []
  stepIndex := 0
  loc := Locals.empty
  results := []
  trace := []
  resp := []
  draws := 0
  sched := []

/-- The three outcomes of a step of this machine. -/
abbrev Out := Host.Outcome State Fault Refusal

end Sys2Proof.Machine
end

