-- ==== Sys2Proof/Machine/Flags.lean ====
section
/-! DEFINITION. The flags: the STATUS byte (10_state.md R28), the FIFO_STATUS byte (R34), write-1-to-clear (R29), and the
named fields of CONFIG, EN_AA, EN_RXADDR and SETUP_AW that the device reads. -/

namespace Sys2Proof.Machine

/-- The byte with only bit `i` set when `b`, else 0 (`1<<i`, 00_scope.md R9). -/
def flagBit (i : Nat) (b : Bool) : Byte := if b then 1#8 <<< i else 0#8

/-- RX_P_NO: the pipe at the head of the RX FIFO, 0b111 when it is empty (R28). -/
def rxPipeNo (d : Device) : PipeNo :=
  match d.rxq with
  | [] => 0b111#3
  | e :: _ => e.pipe

/-- TX_FULL: the TX FIFO holds `TX_FIFO_DEPTH` payloads (R28, R34). -/
def txFull (c : Config) (d : Device) : Bool := d.txq.length == c.txFifoDepth

/-- RX_FULL: the RX FIFO holds `RX_FIFO_DEPTH` entries (R34). -/
def rxFull (c : Config) (d : Device) : Bool := d.rxq.length == c.rxFifoDepth

/-- `STATUS_BYTE()` of R28. -/
def statusByte (c : Config) (d : Device) : Byte :=
  let f := c.regMap.fields
  flagBit f.rxDR.low d.rxDR ||| flagBit f.txDS.low d.txDS ||| flagBit f.maxRT.low d.maxRT
    ||| ((rxPipeNo d).setWidth 8 <<< f.rxPNo.low) ||| flagBit f.txFull.low (txFull c d)

/-- `FIFO_STATUS_BYTE()` of R34; TX_REUSE is always 0. -/
def fifoStatusByte (c : Config) (d : Device) : Byte :=
  let f := c.regMap.fields
  flagBit f.fifoTxReuse.low false ||| flagBit f.fifoTxFull.low (txFull c d) ||| flagBit f.fifoTxEmpty.low d.txq.isEmpty
    ||| flagBit f.fifoRxFull.low (rxFull c d) ||| flagBit f.fifoRxEmpty.low d.rxq.isEmpty

/-- Write-1-to-clear of the three flags by byte `v` (R29). -/
def clearFlags (c : Config) (v : Byte) (d : Device) : Device :=
  { d with
    rxDR := d.rxDR && !v.getLsbD c.regMap.fields.rxDR.low
    txDS := d.txDS && !v.getLsbD c.regMap.fields.txDS.low
    maxRT := d.maxRT && !v.getLsbD c.regMap.fields.maxRT.low }

/-- CONFIG.PWR_UP (R21). -/
def Device.pwrUp (c : Config) (d : Device) : Bool := d.config.getLsbD c.regMap.fields.pwrUp.low

/-- CONFIG.PRIM_RX (R21). -/
def Device.primRx (c : Config) (d : Device) : Bool := d.config.getLsbD c.regMap.fields.primRx.low

/-- EN_AA bit 0: a transmission waits for an acknowledgement (R22). -/
def Device.ackAwaited (c : Config) (d : Device) : Bool := d.enAA.getLsbD c.regMap.fields.enAA.low

/-- EN_RXADDR bit p (R23). -/
def Device.pipeEnabled (c : Config) (d : Device) (p : Nat) : Bool := d.enRxaddr.getLsbD (c.regMap.fields.erx.low + p)

/-- `aw = SETUP_AW.AW + 2`, the address bytes that take part in matching (R24, 45_radio_core.md R134). -/
def Device.addrWidth (c : Config) (d : Device) : Nat := c.regMap.fields.aw.value d.setupAw + 2

/-- DYNPD and FEATURE are gated off: the chip needs ACTIVATE and the features are not active (R35). -/
def featuresGated (c : Config) (d : Device) : Bool := c.chipNeedsActivate && !d.featuresActive

/-- Dynamic payload is effectively on (45_radio_core.md R141). -/
def dynamicPayloadOn (c : Config) (d : Device) : Bool :=
  !featuresGated c d && !(d.feature == 0#8 && d.dynpd == 0#8)

/-- `xcvr_state`, the derived view of R40. -/
def xcvrState (s : State) : XcvrState :=
  if s.dev.pwrUp s.par = false then .powerDown
  else if s.dev.primRx s.par && s.ce then .listening
  else if !s.dev.primRx s.par && s.dev.txActive then .transmitting
  else .standbyConfiguring

end Sys2Proof.Machine
end

