-- ==== Sys2Proof/Machine/Operands.lean ====
section
/-! DEFINITION. The operand forms: 40-bit addresses as bytes (00_scope.md R10), the bytes a register read returns and the
bytes a register write stores (40_spi_commands.md R87 and R88), the effective address of a pipe (10_state.md R32) and address
matching (45_radio_core.md R137). -/

namespace Sys2Proof.Machine

/-- `bytes(A)`: the 5 bytes of a pipe address, least significant first (R10). -/
def bytesOfAddr (a : Addr) : List Byte :=
  [a.setWidth 8, (a >>> 8).setWidth 8, (a >>> 16).setWidth 8, (a >>> 24).setWidth 8, (a >>> 32).setWidth 8]

/-- `addr(bs)`: the inverse of `bytes`, the first byte the least significant (R10). -/
def addrOfBytes : List Byte → Addr
  | [] => 0#40
  | b :: bs => b.setWidth 40 ||| (addrOfBytes bs <<< 8)

/-- The k-th byte drawn after the draws made so far (R11). -/
def drawByte (s : State) (k : Nat) : Byte := Config.freeByte (s.draws + k)

/-- The bytes stored in a register, least significant first. STATUS and FIFO_STATUS read as computed, OBSERVE_TX and CD hold
nothing the model keeps (10_state.md R30). -/
def regStored (c : Config) (d : Device) : Reg → List Byte
  | .config => [d.config]
  | .enAA => [d.enAA]
  | .enRxaddr => [d.enRxaddr]
  | .setupAw => [d.setupAw]
  | .setupRetr => [d.setupRetr]
  | .rfCh => [d.rfCh]
  | .rfSetup => [d.rfSetup]
  | .status => [statusByte c d]
  | .observeTx => []
  | .cd => []
  | .rxAddrP0 => bytesOfAddr d.rxAddrP0
  | .rxAddrP1 => bytesOfAddr d.rxAddrP1
  | .rxAddrP2 => [d.rxAddrP2]
  | .rxAddrP3 => [d.rxAddrP3]
  | .rxAddrP4 => [d.rxAddrP4]
  | .rxAddrP5 => [d.rxAddrP5]
  | .txAddr => bytesOfAddr d.txAddr
  | .rxPwP0 => [d.rxPwP0]
  | .rxPwP1 => [d.rxPwP1]
  | .rxPwP2 => [d.rxPwP2]
  | .rxPwP3 => [d.rxPwP3]
  | .rxPwP4 => [d.rxPwP4]
  | .rxPwP5 => [d.rxPwP5]
  | .fifoStatus => [fifoStatusByte c d]
  | .dynpd => [d.dynpd]
  | .feature => [d.feature]

/-- The bytes a read of a register returns, as far as a rule defines them (R87): 0x00 for a gated DYNPD or FEATURE (R35),
nothing for OBSERVE_TX and CD. -/
def regReadable (c : Config) (d : Device) (r : Reg) : List Byte :=
  if r.isFeatureReg && featuresGated c d then [0x00#8] else regStored c d r

/-- `regbyte(a, j)` of R87, as MISO byte `j + 1` of the frame: a byte no rule defines is a draw. -/
def regByte (s : State) (r : Reg) (j : Nat) : Byte :=
  (regReadable s.par s.dev r).getD j (drawByte s (j + 1))

/-- Store `v` in a register: its first byte for a 1-byte register, all 5 for an address register (R88). A write to a
register that stores nothing of its own is ignored (R20). -/
def regStore (d : Device) (r : Reg) (v : List Byte) : Device :=
  match r with
  | .config => { d with config := v.headD 0#8 }
  | .enAA => { d with enAA := v.headD 0#8 }
  | .enRxaddr => { d with enRxaddr := v.headD 0#8 }
  | .setupAw => { d with setupAw := v.headD 0#8 }
  | .setupRetr => { d with setupRetr := v.headD 0#8 }
  | .rfCh => { d with rfCh := v.headD 0#8 }
  | .rfSetup => { d with rfSetup := v.headD 0#8 }
  | .status => d
  | .observeTx => d
  | .cd => d
  | .rxAddrP0 => { d with rxAddrP0 := addrOfBytes v }
  | .rxAddrP1 => { d with rxAddrP1 := addrOfBytes v }
  | .rxAddrP2 => { d with rxAddrP2 := v.headD 0#8 }
  | .rxAddrP3 => { d with rxAddrP3 := v.headD 0#8 }
  | .rxAddrP4 => { d with rxAddrP4 := v.headD 0#8 }
  | .rxAddrP5 => { d with rxAddrP5 := v.headD 0#8 }
  | .txAddr => { d with txAddr := addrOfBytes v }
  | .rxPwP0 => { d with rxPwP0 := v.headD 0#8 }
  | .rxPwP1 => { d with rxPwP1 := v.headD 0#8 }
  | .rxPwP2 => { d with rxPwP2 := v.headD 0#8 }
  | .rxPwP3 => { d with rxPwP3 := v.headD 0#8 }
  | .rxPwP4 => { d with rxPwP4 := v.headD 0#8 }
  | .rxPwP5 => { d with rxPwP5 := v.headD 0#8 }
  | .fifoStatus => d
  | .dynpd => { d with dynpd := v.headD 0#8 }
  | .feature => { d with feature := v.headD 0#8 }

/-- Side effects of a CONFIG write beyond storing the value (R89): a power-down, or a change of PRIM_RX to 1 while a
transmission is in progress, abandons the transmission. -/
def writeSideEffects (c : Config) (r : Reg) (old new : Device) : Device :=
  match r with
  | .config =>
      if (old.pwrUp c && !new.pwrUp c) || (!old.primRx c && new.primRx c && old.txActive) then
        { new with txActive := false }
      else new
  | _ => new

/-! ## Pipes -/

/-- RX_PW_Pp (10_state.md R33). -/
def rxWidth (d : Device) (p : Nat) : Nat :=
  match p with
  | 0 => d.rxPwP0.toNat
  | 1 => d.rxPwP1.toNat
  | 2 => d.rxPwP2.toNat
  | 3 => d.rxPwP3.toNat
  | 4 => d.rxPwP4.toNat
  | 5 => d.rxPwP5.toNat
  | _ => 0

/-- `eff_addr(p)`: pipes 2 to 5 take their high bytes from RX_ADDR_P1 (R32). -/
def effAddr (d : Device) (p : Nat) : Addr :=
  match p with
  | 0 => d.rxAddrP0
  | 1 => d.rxAddrP1
  | 2 => addrOfBytes (d.rxAddrP2 :: (bytesOfAddr d.rxAddrP1).tail)
  | 3 => addrOfBytes (d.rxAddrP3 :: (bytesOfAddr d.rxAddrP1).tail)
  | 4 => addrOfBytes (d.rxAddrP4 :: (bytesOfAddr d.rxAddrP1).tail)
  | _ => addrOfBytes (d.rxAddrP5 :: (bytesOfAddr d.rxAddrP1).tail)

/-- `low(A, aw)`: the low `aw` bytes of an address, as a number (45_radio_core.md R134). -/
def lowBytes (a : Addr) (aw : Nat) : Nat := a.toNat % 2 ^ (8 * aw)

/-- `matches(p, X)` (R137). -/
def pipeMatches (c : Config) (d : Device) (p : Nat) (x : Addr) : Bool :=
  lowBytes (effAddr d p) (d.addrWidth c) == lowBytes x (d.addrWidth c)

/-- `ack_reachable` (R134): RX_ADDR_P0 equals TX_ADDR on the low `aw` bytes. -/
def ackReachable (c : Config) (d : Device) : Bool :=
  lowBytes d.rxAddrP0 (d.addrWidth c) == lowBytes d.txAddr (d.addrWidth c)

/-- `cands` of R138: the enabled pipes whose non-zero width is the payload's length and whose address matches. -/
def candidatePipes (c : Config) (d : Device) (x : Addr) (payload : List Byte) : List Nat :=
  (List.range c.numPipes).filter fun p =>
    d.pipeEnabled c p && rxWidth d p != 0 && rxWidth d p == payload.length && pipeMatches c d p x

end Sys2Proof.Machine
end

