-- ==== Sys2Proof/Machine/Ops.lean ====
section
/-! DEFINITION. The named operations over the state: sequencing of outcomes, one frame of the device from CSN falling to CSN
rising (40_spi_commands.md R84), the end of a host operation (60_exceptions.md R145), and the transport failure
(41_register_access.md R98), which is the block's only abnormal end: it has no trap entry and no return from one
(60_exceptions.md R153 and R154). -/

namespace Sys2Proof.Machine

/-- Go on with `k` from a next state; a fault or a refusal stands (R152: "a refusal, once set, stands"). -/
def andThen (o : Out) (k : State → Out) : Out :=
  match o with
  | .next s => k s
  | .fault f => .fault f
  | .refused r => .refused r

/-! ## Updates of one part of the state -/

/-- Replace the device. -/
def State.setDev (s : State) (d : Device) : State := { s with dev := d }

/-- Put lines in front of those not yet run. -/
def State.pushCode (s : State) (as : List Action) : State := { s with code := as ++ s.code }

/-- Append an event to the bus trace and count one completed primitive (20_memory.md R58, 10_state.md R18). -/
def State.emit (s : State) (e : BusEvent) : State :=
  { s with trace := s.trace ++ [e], stepIndex := s.stepIndex + 1 }

/-- Append an event that completes no primitive of the operation (a failed exchange, or `abort_frame`'s own line). -/
def State.note (s : State) (e : BusEvent) : State := { s with trace := s.trace ++ [e] }

/-- The clock advances by `d` milliseconds (60_exceptions.md R156). -/
def State.passTime (s : State) (d : Nat) : State := { s with clock := s.clock + d }

/-! ## One frame of the device -/

/-- A frame may not open during the power-on reset: CSN falls while the clock is below `POR_MS` (R84). -/
def opensTooEarly (s : State) : Bool := s.csn && decide (s.clock < s.par.porMs)

/-- The refusal at the exchange of a REG command byte whose address names no register (R87, R88). -/
def addressRefusal (c : Config) (a : RegAddr) : Option Refusal :=
  match c.regAt a with
  | none => some (.undefinedRegister a)
  | some _ => none

/-- CSN rises: the frame buffer is emptied (10_state.md R39), `resp` keeps what the frame returned on MISO, and the draws
of its `n` bytes are used up. -/
def closeFrame (resp : List Byte) (n : Nat) (s : State) : State :=
  { s with
    csn := true
    dev := { s.dev with mosi := [], miso := [] }
    resp := resp
    draws := s.draws + n }

/-- The MISO bytes of a frame with `n` data bytes: the status byte, then `miso i` for i from 1 to n (R84). -/
def frameResponse (s : State) (n : Nat) (miso : Nat → Byte) : List Byte :=
  statusByte s.par s.dev :: (List.range n).map fun j => miso (j + 1)

/-- One frame, from CSN falling to CSN rising (R84): the power-on check, the refusal at the command byte if there is one,
every MISO byte from the state at the frame's opening, then the command's effect, committed at once (20_memory.md R56).
When CSN is already low no edge opens a frame. -/
def runCommand (early : Option Refusal) (n : Nat) (miso : Nat → Byte) (commit : State → Out) (s : State) : Out :=
  if opensTooEarly s then .refused .frameBeforePowerOnReset
  else
    match early with
    | some r => .refused r
    | none => andThen (commit s) fun t => .next (closeFrame (frameResponse s n miso) (n + 1) t)

/-! ## The end of a host operation -/

/-- The operation in progress ends with result `r` (R145); nothing of its position survives (10_state.md R41). -/
def finishOp (r : Result) (s : State) : State :=
  { s with results := s.results ++ [r], op := none, code := [] }

/-! ## The transport failure -/

/-- No reserved bit is set and no field holds an illegal value (10_state.md R20). -/
def legalByte (c : Config) (r : Reg) (v : Byte) : Bool := v &&& c.reservedMask r == 0#8 && !c.illegal r v

/-- The FIFOs hold what R36 allows: at most their depth, payloads of 1 to `MAX_PAYLOAD`
bytes, pipes below `NUM_PIPES`. -/
def legalFifos (c : Config) (d : Device) : Bool :=
  decide (d.txq.length ≤ c.txFifoDepth)
    && d.txq.all (fun p => decide (1 ≤ p.length) && decide (p.length ≤ c.maxPayload))
    && decide (d.rxq.length ≤ c.rxFifoDepth)
    && d.rxq.all (fun e => decide (e.pipe.toNat < c.numPipes) && decide (1 ≤ e.payload.length)
        && decide (e.payload.length ≤ c.maxPayload))

/-- A transmission in progress has a payload on the air and the device powered up in PTX mode (R37, 40_spi_commands.md R89,
60_exceptions.md R152). -/
def legalActivity (c : Config) (d : Device) : Bool := !d.txActive || (!d.txq.isEmpty && d.pwrUp c && !d.primRx c)

/-- Every register holds a value it may hold (10_state.md R20 to R35). -/
def legalRegs (c : Config) (d : Device) : Bool :=
  legalByte c .config d.config && legalByte c .enAA d.enAA && legalByte c .enRxaddr d.enRxaddr
    && legalByte c .setupAw d.setupAw && legalByte c .rfCh d.rfCh && legalByte c .rfSetup d.rfSetup
    && legalByte c .rxPwP0 d.rxPwP0 && legalByte c .rxPwP1 d.rxPwP1 && legalByte c .rxPwP2 d.rxPwP2
    && legalByte c .rxPwP3 d.rxPwP3 && legalByte c .rxPwP4 d.rxPwP4 && legalByte c .rxPwP5 d.rxPwP5
    && legalByte c .dynpd d.dynpd && legalByte c .feature d.feature

/-- A legal device state: what "a free legal value" ranges over (R98; assumption 9). -/
def Device.legal (c : Config) (d : Device) : Bool := legalRegs c d && legalFifos c d && legalActivity c d

/-- "device state <- any": every register, flag, FIFO entry, `tx_active` and `features_active` takes the drawn value, if it is
a legal one. The frame buffer is what R39 makes it: empty once CSN is high (assumption 9). Closing the frame uses up the
draws of its bytes. -/
def loseDevice (dr : Draw) (csn : Bool) (s : State) : State :=
  let d := if dr.device.legal s.par then dr.device else s.dev
  { s with
    csn := csn
    draws := if csn then s.draws + s.dev.mosi.length else s.draws
    dev := { d with
      mosi := if csn then [] else s.dev.mosi
      miso := if csn then [] else s.dev.miso } }

/-- `abort_frame()` (R98): try `SetCSN(1)`, the device state becomes unconstrained, and the operation ends with
`TransportError`. CE and `cfg` keep their values. When the `SetCSN(1)` fails too, CSN is a draw; a draw that takes it from 1 to 0
opens a frame, which is refused while the clock is below `POR_MS` like any other (R84, 70_reset_and_hazards.md R166, R170;
assumption 15). -/
def abortFrame (dr : Draw) (s : State) : Out :=
  if dr.abortFails then
    if opensTooEarly s && !dr.csn then .refused .frameBeforePowerOnReset
    else .next (finishOp .transportError (loseDevice dr dr.csn s))
  else .next (finishOp .transportError (loseDevice dr true (s.note (.csn true))))

/-! ## Draws of a move -/

/-- The draws of a move when the schedule holds none: nothing fails, and 1 ms passes (assumption 6). -/
def Draw.quiet : Draw where
  idleMs := 1
  xferMs := []
  failAt := none
  abortFails := false
  csn := true
  ce := false
  device := Device.reset Config.thisHardware

/-- Exchange call `k` of a move fails by itself, or runs past `XFER_TIMEOUT_MS` (60_exceptions.md R158); `at` is its
place among the move's primitives. -/
def exchangeFails (c : Config) (dr : Draw) (k place : Nat) : Bool :=
  dr.failAt == some place || decide (c.xferTimeoutMs < dr.xferMs.getD k 0)

/-- The first primitive of `Frame(outs)` that fails, for `m` exchange calls: 0 is `SetCSN(0)`, k from 1 to m is exchange call
k, m + 1 is `SetCSN(1)` (R97, R98). -/
def frameFailure (c : Config) (dr : Draw) (m : Nat) : Option Nat :=
  (List.range (m + 2)).find? fun k =>
    if k == 0 || k == m + 1 then dr.failAt == some k else exchangeFails c dr (k - 1) k

end Sys2Proof.Machine
end

