-- ==== Sys2Proof/Machine/ControlCmds.lean ====
section
/-! DEFINITION. The control commands ACTIVATE and NOP (40_spi_commands.md R94 and R96). -/

namespace Sys2Proof.Machine

/-! ## ACTIVATE -/

/-- MISO bytes of the data phase are draws (R94). -/
def activateMiso (s : State) (i : Nat) : Byte := drawByte s i

/-- The data phase must be the single byte 0x73; on a chip that needs it, `features_active` toggles (R94). -/
def activateCommit (d : List Byte) (s : State) : Out :=
  if d ≠ [0x73#8] then .refused (.badActivate d)
  else if s.par.chipNeedsActivate then
    .next (s.setDev { s.dev with featuresActive := !s.dev.featuresActive })
  else .next s

/-- ACTIVATE: enable the extended-feature registers (R94). -/
def execActivate (d : List Byte) (s : State) : Out :=
  runCommand none d.length (activateMiso s) (activateCommit d) s

/-! ## NOP -/

/-- MISO bytes after the status byte are draws (R86). -/
def nopMiso (s : State) (i : Nat) : Byte := drawByte s i

/-- "apply: nothing" (R96). -/
def nopCommit (s : State) : Out := .next s

/-- NOP: read the status byte and change nothing (R96). -/
def execNop (d : List Byte) (s : State) : Out :=
  runCommand none d.length (nopMiso s) nopCommit s

end Sys2Proof.Machine
end

