-- ==== Sys2Proof/Machine/PayloadCmds.lean ====
section
/-! DEFINITION. The payload commands R_RX_PAYLOAD, W_TX_PAYLOAD, FLUSH_TX, FLUSH_RX and R_RX_PL_WID
(40_spi_commands.md R90 to R93 and R95). -/

namespace Sys2Proof.Machine

/-! ## R_RX_PAYLOAD -/

/-- MISO byte i ≥ 1: byte i - 1 of the payload at the head of the RX FIFO, a draw past its end or when there is none (R90). -/
def rRxPayloadMiso (s : State) (i : Nat) : Byte :=
  match s.dev.rxq with
  | [] => drawByte s i
  | e :: _ => e.payload.getD (i - 1) (drawByte s i)

/-- A frame with at least one data byte removes the head (R90). -/
def rRxPayloadCommit (d : List Byte) (s : State) : Out :=
  match d with
  | [] => .next s
  | _ :: _ => .next (s.setDev { s.dev with rxq := s.dev.rxq.tail })

/-- R_RX_PAYLOAD: read the head RX payload (R90). -/
def execRRxPayload (d : List Byte) (s : State) : Out :=
  runCommand none d.length (rRxPayloadMiso s) (rRxPayloadCommit d) s

/-! ## W_TX_PAYLOAD -/

/-- MISO bytes of the data phase are draws (R91). -/
def wTxPayloadMiso (s : State) (i : Nat) : Byte := drawByte s i

/-- Queue the payload unless the TX FIFO is full, in which case it is discarded (R91). -/
def wTxPayloadCommit (d : List Byte) (s : State) : Out :=
  match d with
  | [] => .next s
  | _ :: _ =>
      if s.par.maxPayload < d.length then .refused (.payloadTooLong d.length)
      else if s.dev.txq.length < s.par.txFifoDepth then
        .next (s.setDev { s.dev with txq := s.dev.txq ++ [d] })
      else .next s

/-- W_TX_PAYLOAD: write a TX payload (R91). -/
def execWTxPayload (d : List Byte) (s : State) : Out :=
  runCommand none d.length (wTxPayloadMiso s) (wTxPayloadCommit d) s

/-! ## FLUSH_TX -/

/-- MISO bytes after the status byte are draws (R86). -/
def flushTxMiso (s : State) (i : Nat) : Byte := drawByte s i

/-- `txq <- []; tx_active <- 0` (R92). -/
def flushTxCommit (s : State) : Out := .next (s.setDev { s.dev with txq := [], txActive := false })

/-- FLUSH_TX: empty the TX FIFO and abandon a transmission in progress (R92). -/
def execFlushTx (d : List Byte) (s : State) : Out :=
  runCommand none d.length (flushTxMiso s) flushTxCommit s

/-! ## FLUSH_RX -/

/-- MISO bytes after the status byte are draws (R86). -/
def flushRxMiso (s : State) (i : Nat) : Byte := drawByte s i

/-- `rxq <- []` (R93). -/
def flushRxCommit (s : State) : Out := .next (s.setDev { s.dev with rxq := [] })

/-- FLUSH_RX: empty the RX FIFO (R93). -/
def execFlushRx (d : List Byte) (s : State) : Out :=
  runCommand none d.length (flushRxMiso s) flushRxCommit s

/-! ## R_RX_PL_WID -/

/-- MISO byte 1 is the length of the payload at the head, a draw when the RX FIFO is empty or the features are gated;
later bytes are draws (R95). -/
def rRxPlWidMiso (s : State) (i : Nat) : Byte :=
  match s.dev.rxq with
  | [] => drawByte s i
  | e :: _ =>
      if i = 1 ∧ featuresGated s.par s.dev = false then BitVec.ofNat 8 e.payload.length
      else drawByte s i

/-- "apply: nothing" (R95). -/
def rRxPlWidCommit (s : State) : Out := .next s

/-- R_RX_PL_WID: read the width of the head RX payload (R95). -/
def execRRxPlWid (d : List Byte) (s : State) : Out :=
  runCommand none d.length (rRxPlWidMiso s) rRxPlWidCommit s

end Sys2Proof.Machine
end

