-- ==== Sys2Proof/Machine/RegisterCmds.lean ====
section
/-! DEFINITION. The register commands R_REGISTER and W_REGISTER (40_spi_commands.md R87 to R89). -/

namespace Sys2Proof.Machine

/-! ## R_REGISTER -/

/-- MISO byte i ≥ 1 of a register read: `regbyte(a, i - 1)` (R87). -/
def rRegisterMiso (a : RegAddr) (s : State) (i : Nat) : Byte :=
  match s.par.regAt a with
  | none => drawByte s i
  | some r => regByte s r (i - 1)

/-- "apply: nothing" (R87). -/
def rRegisterCommit (s : State) : Out := .next s

/-- R_REGISTER: read register `a`, one byte for each byte of the data phase (R87). -/
def execRRegister (a : RegAddr) (d : List Byte) (s : State) : Out :=
  runCommand (addressRefusal s.par a) d.length (rRegisterMiso a s) rRegisterCommit s

/-! ## W_REGISTER -/

/-- MISO bytes of a write data phase are draws (R88). -/
def wRegisterMiso (s : State) (i : Nat) : Byte := drawByte s i

/-- The write of bytes `d`, of the register's width and with first byte `v`, to register `r` at address `a` (R88). -/
def writeReg (a : RegAddr) (r : Reg) (v : Byte) (d : List Byte) (s : State) : Out :=
  match s.par.access r with
  | .w1c =>
      if v &&& s.par.reservedMask r ≠ 0#8 then .refused (.reservedBit a)
      else .next (s.setDev (clearFlags s.par v s.dev))
  | .ro => .next s
  | .rw =>
      if r.isFeatureReg && featuresGated s.par s.dev then .next s
      else if v &&& s.par.reservedMask r ≠ 0#8 then .refused (.reservedBit a)
      else if s.par.illegal r v then .refused (.illegalValue a)
      else .next (s.setDev (writeSideEffects s.par r s.dev (regStore s.dev r d)))

/-- `apply(d)` of R88: a frame with no data has no effect, one of the wrong length is refused. -/
def wRegisterCommit (a : RegAddr) (d : List Byte) (s : State) : Out :=
  match d with
  | [] => .next s
  | v :: _ =>
      match s.par.regAt a with
      | none => .refused (.undefinedRegister a)
      | some r =>
          if d.length ≠ s.par.width r then .refused (.wrongWriteLength a d.length)
          else writeReg a r v d s

/-- W_REGISTER: write the data phase to register `a` (R88). -/
def execWRegister (a : RegAddr) (d : List Byte) (s : State) : Out :=
  runCommand (addressRefusal s.par a) d.length (wRegisterMiso s) (wRegisterCommit a d) s

end Sys2Proof.Machine
end

