-- ==== Sys2Proof/Machine/Bus.lean ====
section
/-! DEFINITION. The bus level: the device's three phases of a frame, byte by byte (40_spi_commands.md R84). They run the raw
line and exchange primitives, and the part of a frame that completed before a transport failure. A whole frame goes through
`exec`, which must agree with them (00_scope.md R16; Obligations.BusLevelAgreesWithCommands). -/

namespace Sys2Proof.Machine

/-- The refusal when a command's first byte is exchanged (R84, R87, R88). -/
def commandRefusal (c : Config) : Instr → Option Refusal
  | .rRegister a _ => addressRefusal c a
  | .wRegister a _ => addressRefusal c a
  | .activate _ => none
  | .rRxPlWid _ => none
  | .rRxPayload _ => none
  | .wTxPayload _ => none
  | .flushTx _ => none
  | .flushRx _ => none
  | .nop _ => none

/-- `response(decode(buf[0]), i)` for i ≥ 1 (R84). -/
def commandMiso (i : Instr) (s : State) (k : Nat) : Byte :=
  match i with
  | .rRegister a _ => rRegisterMiso a s k
  | .wRegister _ _ => wRegisterMiso s k
  | .activate _ => activateMiso s k
  | .rRxPlWid _ => rRxPlWidMiso s k
  | .rRxPayload _ => rRxPayloadMiso s k
  | .wTxPayload _ => wTxPayloadMiso s k
  | .flushTx _ => flushTxMiso s k
  | .flushRx _ => flushRxMiso s k
  | .nop _ => nopMiso s k

/-- `apply(decode(buf[0]), buf[1:])` (R84). -/
def commandCommit (i : Instr) (s : State) : Out :=
  match i with
  | .rRegister _ _ => rRegisterCommit s
  | .wRegister a d => wRegisterCommit a d s
  | .activate d => activateCommit d s
  | .rRxPlWid _ => rRxPlWidCommit s
  | .rRxPayload d => rRxPayloadCommit d s
  | .wTxPayload d => wTxPayloadCommit d s
  | .flushTx _ => flushTxCommit s
  | .flushRx _ => flushRxCommit s
  | .nop _ => nopCommit s

/-- CSN 1 -> 0: a frame opens, with an empty buffer. No edge when CSN is already low. -/
def busOpen (s : State) : Out :=
  if opensTooEarly s then .refused .frameBeforePowerOnReset
  else if s.csn then .next { s with csn := false, dev := { s.dev with mosi := [], miso := [] } }
  else .next s

/-- The frame buffer after MOSI byte `m`, answered by MISO byte `r`. -/
def pushByte (m r : Byte) (s : State) : State :=
  s.setDev { s.dev with mosi := s.dev.mosi ++ [m], miso := s.dev.miso ++ [r] }

/-- One byte exchanged while CSN is low: the status byte answers the command byte, the command's response a later byte. -/
def busByte (m : Byte) (s : State) : Out :=
  match s.dev.mosi with
  | [] =>
      match decodeCommand m [] with
      | none => .refused (.undefinedCommand m)
      | some i =>
          match commandRefusal s.par i with
          | some r => .refused r
          | none => .next (pushByte m (statusByte s.par s.dev) s)
  | c :: _ =>
      match decodeCommand c [] with
      | none => .refused (.undefinedCommand c)
      | some i => .next (pushByte m (commandMiso i s s.dev.mosi.length) s)

/-- The bytes of one exchange call, in order. -/
def busBytes : List Byte → State → Out
  | [], s => .next s
  | m :: ms, s => andThen (busByte m s) (busBytes ms)

/-- CSN 0 -> 1: the frame closes and its command's effect commits; a frame with no byte has none (R85). No edge when CSN
is already high. -/
def busClose (s : State) : Out :=
  if s.csn then .next s
  else
    match s.dev.mosi with
    | [] => .next (closeFrame [] 0 s)
    | c :: d =>
        match decodeCommand c d with
        | none => .refused (.undefinedCommand c)
        | some i => andThen (commandCommit i s) fun t => .next (closeFrame s.dev.miso s.dev.mosi.length t)

/-- A whole frame at the bus level: CSN falls, the bytes are exchanged, CSN rises. -/
def busFrame (bytes : List Byte) (s : State) : Out :=
  andThen (andThen (busOpen s) (busBytes bytes)) busClose

end Sys2Proof.Machine
end

