-- ==== Sys2Proof/Machine/Dispatch.lean ====
section
/-! DEFINITION. One arm per wire command of spec/opcode_table.json, each a direct call of its meaning. -/

namespace Sys2Proof.Machine

def exec (i : Instr) (s : State) : Host.Outcome State Fault Refusal :=
  match i with
  | .rRegister a d => Sys2Proof.Machine.execRRegister a d s
  | .wRegister a d => Sys2Proof.Machine.execWRegister a d s
  | .activate d => Sys2Proof.Machine.execActivate d s
  | .rRxPlWid d => Sys2Proof.Machine.execRRxPlWid d s
  | .rRxPayload d => Sys2Proof.Machine.execRRxPayload d s
  | .wTxPayload d => Sys2Proof.Machine.execWTxPayload d s
  | .flushTx d => Sys2Proof.Machine.execFlushTx d s
  | .flushRx d => Sys2Proof.Machine.execFlushRx d s
  | .nop d => Sys2Proof.Machine.execNop d s

end Sys2Proof.Machine
end

