-- ==== Sys2Proof/Machine/Frame.lean ====
section
/-! DEFINITION. The controller's primitives: `Frame(outs)` (41_register_access.md R97), the raw `SetCSN`, `SetCE` and
`Exchange` (00_scope.md R12), `WaitMs` and `Now` (60_exceptions.md R156, R157), each with its transport failure (R98). -/

namespace Sys2Proof.Machine

/-! ## Frame(outs) -/

/-- The bytes the device decodes when `Frame(outs)` closes: those of `outs`, after the bytes of a frame that a transport
failure left open. This is where the block fetches a wire command. -/
def fetchFrame (outs : List (List Byte)) (s : State) : List Byte :=
  (if s.csn then [] else s.dev.mosi) ++ outs.flatten

/-- Cut the MISO bytes of a frame into the lists the exchange calls return (R97). -/
def splitMiso : List (List Byte) → List Byte → List (List Byte)
  | [], _ => []
  | o :: outs, ms => ms.take o.length :: splitMiso outs (ms.drop o.length)

/-- Milliseconds taken by the first `m` exchange calls of a move. -/
def xferTime (dr : Draw) (m : Nat) : Nat := (dr.xferMs.take m).sum

/-- The events of a completed frame: CSN(0), one XFER per exchange call, CSN(1) (R97, 20_memory.md R58). -/
def frameEvents (outs ins : List (List Byte)) : List BusEvent :=
  .csn false :: (List.zipWith BusEvent.xfer outs ins ++ [.csn true])

/-- `Frame(outs)` returns: `ins`, the trace, the step index and the time of its exchange calls. `held` is how many bytes the
frame already held when it began. -/
def frameReturns (outs : List (List Byte)) (held : Nat) (dr : Draw) (t : State) : State :=
  let ins := splitMiso outs (t.resp.drop held)
  { t with
    loc := { t.loc with ins := ins }
    trace := t.trace ++ frameEvents outs ins
    stepIndex := t.stepIndex + (outs.length + 2)
    clock := t.clock + xferTime dr outs.length }

/-- What the device makes of a frame's bytes: the instruction they decode to is executed; a frame with no byte has no effect
(40_spi_commands.md R85); an unlisted command byte is refused when it is exchanged, after the frame has opened (R84,
30_encoding.md R77). -/
def execBytes (bytes : List Byte) (s : State) : Out :=
  match decode bytes with
  | some i => exec i s
  | none =>
      if opensTooEarly s then .refused .frameBeforePowerOnReset
      else
        match bytes with
        | [] => .next (closeFrame [] 0 s)
        | c :: _ => .refused (.undefinedCommand c)

/-- The exchange calls that completed before a failure, with their events and the bytes they returned. -/
def exchangeCalls : List (List Byte) → State → Out
  | [], s => .next s
  | o :: outs, s =>
      andThen (busBytes o s) fun t => exchangeCalls outs (t.emit (.xfer o (t.dev.miso.drop s.dev.miso.length)))

/-- `Frame(outs)` when its primitive number `k` fails (R98): nothing is exchanged if it is `SetCSN(0)`; otherwise the frame
opens, the exchange calls before the failed one complete, and the failed one leaves an XFAIL event. -/
def frameFails (outs : List (List Byte)) (k : Nat) (dr : Draw) (s : State) : Out :=
  match k with
  | 0 => abortFrame dr s
  | j + 1 =>
      andThen (busOpen s) fun s₁ =>
        andThen (exchangeCalls (outs.take j) (s₁.emit (.csn false))) fun t =>
          let u := match outs[j]? with
            | some o => t.note (.xfail o)
            | none => t
          abortFrame dr (u.passTime (xferTime dr j))

/-- `Frame(outs)` (R97). -/
def frameStep (outs : List (List Byte)) (dr : Draw) (s : State) : Out :=
  match frameFailure s.par dr outs.length with
  | some k => frameFails outs k dr s
  | none =>
      andThen (execBytes (fetchFrame outs s) s) fun t =>
        .next (frameReturns outs (if s.csn then 0 else s.dev.mosi.length) dr t)

/-! ## The line and exchange primitives on their own -/

/-- `SetCSN(v)`: an edge opens or closes a frame at the device (40_spi_commands.md R84); the fall starts a new `ins`. -/
def csnStep (v : Bool) (dr : Draw) (s : State) : Out :=
  if dr.failAt = some 0 then abortFrame dr s
  else if v then andThen (busClose s) fun t => .next (t.emit (.csn true))
  else
    andThen (busOpen s) fun t => .next { t.emit (.csn false) with loc := { t.loc with ins := [] } }

/-- `Exchange(out)` (R12). With CSN high no frame is open: the device takes no part and the bytes returned are draws. -/
def exchangeStep (out : List Byte) (dr : Draw) (s : State) : Out :=
  if exchangeFails s.par dr 0 0 then abortFrame dr (s.note (.xfail out))
  else if s.csn then
    let inn := (List.range out.length).map fun k => drawByte s k
    .next { s.emit (.xfer out inn) with
      draws := s.draws + out.length
      loc := { s.loc with ins := s.loc.ins ++ [inn] }
      clock := s.clock + xferTime dr 1 }
  else
    andThen (busBytes out s) fun t =>
      let inn := t.dev.miso.drop s.dev.miso.length
      .next { t.emit (.xfer out inn) with
        loc := { t.loc with ins := t.loc.ins ++ [inn] }
        clock := t.clock + xferTime dr 1 }

/-- `SetCE(v)`; a failed one leaves CE at a drawn level (R98). A change of CE changes only which radio-core steps are
enabled (45_radio_core.md R132). -/
def ceStep (v : Bool) (dr : Draw) (s : State) : Out :=
  if dr.failAt = some 0 then abortFrame dr { s with ce := dr.ce }
  else .next ({ s with ce := v }.emit (.ce v))

/-! ## Waits and the clock -/

/-- `WaitMs(d)` begins: it records the clock and holds the controller until `clock ≥ t + d` (60_exceptions.md R157). -/
def waitBegins (d : Nat) (s : State) : State := s.pushCode [.waitUntil (s.clock + d) d]

/-- `WaitMs(d)` ends: by then the clock has reached `until` (R157). A wait never fails. -/
def waitEnds (until_ d : Nat) (s : State) : State :=
  { s with clock := max s.clock until_ }.emit (.wait d)

/-- `Now()` (R156). -/
def nowStep (s : State) : State :=
  { s with loc := { s.loc with time := s.clock } }.emit (.time s.clock)

end Sys2Proof.Machine
end

