-- ==== Sys2Proof/Machine/HostOps.lean ====
section
/-! DEFINITION. The host operations (41_register_access.md to 46_diagnostics.md): each one's validation and the lines of its
pseudocode. A validation that fails ends the call before any bus event (60_exceptions.md R148, R152). -/

namespace Sys2Proof.Machine

/-! ## Internal access helpers (41_register_access.md R103) -/

/-- Command byte of a register read: `0x00 | (a & 0x1F)` (30_encoding.md R70). -/
def readCmd (c : Config) (a : Byte) : Byte := 0x00#8 ||| (a &&& c.addrMask)

/-- Command byte of a register write: `0x20 | (a & 0x1F)` (30_encoding.md R70, 90_conflicts.md C1). -/
def writeCmd (c : Config) (a : Byte) : Byte := 0x20#8 ||| (a &&& c.addrMask)

/-- `ReadReg(a, n)`: two exchange calls, the second of n dummy bytes. -/
def readRegN (c : Config) (a : Byte) (n : Nat) : Action := .frame [[readCmd c a], List.replicate n c.dummyByte]

/-- `ReadReg(a)`. -/
def readReg1 (c : Config) (a : Byte) : Action := readRegN c a 1

/-- `WriteReg(a, [v])`: one exchange call of two bytes. -/
def writeReg1 (c : Config) (a v : Byte) : Action := .frame [[writeCmd c a, v]]

/-- `WriteReg(a, bs)` for more than one byte: two exchange calls. -/
def writeRegN (c : Config) (a : Byte) (bs : List Byte) : Action := .frame [[writeCmd c a], bs]

/-- `Cmd(op)`. -/
def cmdOnly (op : Byte) : Action := .frame [[op]]

/-- `CmdData(op, bs)`. -/
def cmdData (op : Byte) (bs : List Byte) : Action := .frame [[op], bs]

/-- `CmdRead(op, n)`. -/
def cmdRead (c : Config) (op : Byte) (n : Nat) : Action := .frame [[op], List.replicate n c.dummyByte]

/-- `Activate()`: one exchange call of two bytes. -/
def activateCmd : Action := .frame [[0x50#8, 0x73#8]]

/-! ## Helper sequences (30_encoding.md R82) -/

/-- `CLEAR_STATUS_ALL` (R106). -/
def clearStatusAll (c : Config) : Action := writeReg1 c 0x07#8 0x70#8

/-- `SET_MODE_PTX` (R107): CONFIG `(v | 0x02) & ~0x01`. -/
def setModePtx (c : Config) : List Action := [readReg1 c 0x00#8, .rmw 0x00#8 0x02#8 0x01#8]

/-- `SET_MODE_PRX` (R108): CONFIG `v | 0x03`. -/
def setModePrx (c : Config) : List Action := [readReg1 c 0x00#8, .rmw 0x00#8 0x03#8 0x00#8]

/-- `POWER_DOWN` (R109): CONFIG `v & ~0x02`. -/
def powerDownCode (c : Config) : List Action := [readReg1 c 0x00#8, .rmw 0x00#8 0x00#8 0x02#8]

/-- `FLUSH_BOTH` (R110): FLUSH_TX, then FLUSH_RX. -/
def flushBoth : List Action := [cmdOnly 0xE1#8, cmdOnly 0xE2#8]

/-- `CE_PULSE` (R111). -/
def cePulse (c : Config) : List Action := [.setCE true, .waitMs c.cePulseMs, .setCE false]

/-- The optional wait after a mode switch (44_transfer_engine.md R121). -/
def powerUpWait (c : Config) : List Action := if c.pwrupDelayMs = 0 then [] else [.waitMs c.pwrupDelayMs]

/-! ## Starting an operation -/

/-- The operation's lines are those of `as`. -/
def runLines (as : List Action) (s : State) : Out := .next { s with code := as }

/-- `return InvalidArgument`: no frame, no line change, no `cfg` change (60_exceptions.md R148). -/
def rejectCall (s : State) : Out := .next (finishOp .invalidArgument s)

/-- Go on with the payload size, refused while it is unset (10_state.md R41). -/
def withPayloadSize (s : State) (k : Nat → Out) : Out :=
  match s.payloadSize with
  | none => .refused .payloadSizeUnset
  | some n => k n

/-! ## Register access layer -/

/-- `readRegister(addr)` (R99). -/
def opReadRegister (addr : Byte) (s : State) : Out := runLines [readReg1 s.par addr, .ret .byte] s

/-- `readRegisterN(addr, len)` (R100). -/
def opReadRegisterN (addr : Byte) (len : Nat) (s : State) : Out :=
  if 1 ≤ len ∧ len ≤ s.par.maxPayload then runLines [readRegN s.par addr len, .ret .bytes] s
  else rejectCall s

/-- `writeRegister(addr, value)` (R101). -/
def opWriteRegister (addr value : Byte) (s : State) : Out := runLines [writeReg1 s.par addr value, .ret .done] s

/-- `writeRegisterN(addr, bytes)`: two exchange calls whatever the length (R102). -/
def opWriteRegisterN (addr : Byte) (bytes : List Byte) (s : State) : Out :=
  if 1 ≤ bytes.length ∧ bytes.length ≤ s.par.maxPayload then runLines [writeRegN s.par addr bytes, .ret .done] s
  else rejectCall s

/-! ## Configuration -/

/-- Steps 1 to 4 of `initialize` (42_configuration.md R113). -/
def initProgram (c : Config) : List Action :=
  [.setCSN true, .setCE false, .waitMs c.porMs,
   writeReg1 c 0x00#8 c.configInit, writeReg1 c 0x01#8 c.variantEnAA, writeReg1 c 0x02#8 0x03#8,
   writeReg1 c 0x03#8 c.setupAwInit, writeReg1 c 0x04#8 c.variantSetupRetr, writeReg1 c 0x05#8 c.variantRfCh,
   writeReg1 c 0x06#8 c.rfSetupInit, writeReg1 c 0x07#8 0x70#8, writeReg1 c 0x08#8 0x00#8, writeReg1 c 0x09#8 0x00#8]
  ++ [writeRegN c 0x0A#8 (bytesOfAddr 0xE7E7E7E7E7#40), writeRegN c 0x10#8 (bytesOfAddr 0xE7E7E7E7E7#40),
   writeRegN c 0x0B#8 (bytesOfAddr 0xC2C2C2C2C2#40),
   writeReg1 c 0x0C#8 0xC3#8, writeReg1 c 0x0D#8 0xC4#8, writeReg1 c 0x0E#8 0xC5#8, writeReg1 c 0x0F#8 0xC6#8]
  ++ [writeReg1 c 0x11#8 0x00#8, writeReg1 c 0x12#8 0x00#8, writeReg1 c 0x13#8 0x00#8,
   writeReg1 c 0x14#8 0x00#8, writeReg1 c 0x15#8 0x00#8, writeReg1 c 0x16#8 0x00#8]
  ++ [activateCmd]

/-- Steps 5 and 6 of `initialize` (R113). -/
def initFinish (c : Config) (n : Nat) : List Action :=
  [writeReg1 c 0x1D#8 0x00#8, writeReg1 c 0x1C#8 0x00#8, .setPayloadSize n, clearStatusAll c]
  ++ flushBoth ++ powerDownCode c ++ [.ret .done]

/-- The payload size a call of `initialize` asks for: its argument, or `PAYLOAD_SIZE_REQ` when it gives none (00_scope.md R7). -/
def payloadSizeAsked (c : Config) (req : Option Nat) : Nat := req.getD c.payloadSizeReq

/-- `initialize(payload_size_req)` (R113); a size of 0 is refused. -/
def opInitialize (req : Option Nat) (s : State) : Out :=
  if payloadSizeAsked s.par req = 0 then .refused .zeroPayloadSize
  else runLines (initProgram s.par ++ initFinish s.par (payloadSizeAsked s.par req)) s

/-! ## Pipe manager -/

/-- `openWritingPipe(address)` (43_pipe_manager.md R116). -/
def opOpenWritingPipe (address : Nat) (s : State) : Out :=
  if s.par.addrLimit ≤ address then rejectCall s
  else
    withPayloadSize s fun n =>
      runLines [writeRegN s.par 0x10#8 (bytesOfAddr (BitVec.ofNat 40 address)),
        writeRegN s.par 0x0A#8 (bytesOfAddr (BitVec.ofNat 40 address)),
        writeReg1 s.par 0x11#8 (BitVec.ofNat 8 n), .ret .done] s

/-- The address frame of `openReadingPipe`: all 5 bytes for pipes 0 and 1, the low byte for pipes 2 to 5 (R117). -/
def pipeAddressFrame (c : Config) (index : Nat) (a : Addr) : Action :=
  if index ≤ 1 then writeRegN c (0x0A#8 + BitVec.ofNat 8 index) (bytesOfAddr a)
  else writeReg1 c (0x0A#8 + BitVec.ofNat 8 index) (a.setWidth 8)

/-- The lines of `openReadingPipe` after its validation (R117). -/
def openReadingLines (c : Config) (index : Nat) (a : Addr) (n : Nat) : List Action :=
  (if index = 0 then [.cachePipe0 a] else [])
  ++ [pipeAddressFrame c index a,
   writeReg1 c (0x11#8 + BitVec.ofNat 8 index) (BitVec.ofNat 8 n),
   readReg1 c 0x02#8, .rmw 0x02#8 (1#8 <<< index) 0x00#8, .ret .done]

/-- `openReadingPipe(index, address)` (R117). -/
def opOpenReadingPipe (index address : Nat) (s : State) : Out :=
  if s.par.numPipes ≤ index then rejectCall s
  else if s.par.addrLimit ≤ address then rejectCall s
  else
    withPayloadSize s fun n =>
      runLines (openReadingLines s.par index (BitVec.ofNat 40 address) n) s

/-! ## Transfer engine -/

/-- Enter Transmit (44_transfer_engine.md R121) with the padded payload `p`, up to the poll loop. -/
def enterTransmit (c : Config) (p : List Byte) : List Action :=
  [.setCE false, clearStatusAll c] ++ setModePtx c ++ powerUpWait c ++ [cmdData 0xA0#8 p] ++ cePulse c
  ++ [.now, .startDeadline, .poll]

/-- Finish Transmit (R123). -/
def finishTransmit (c : Config) : List Action :=
  [clearStatusAll c, cmdOnly 0xE1#8] ++ powerDownCode c ++ [.ret .transmit]

/-- Pad a payload with 0x00 to the static width (R120). -/
def padPayload (n : Nat) (p : List Byte) : List Byte := p ++ List.replicate (n - p.length) 0x00#8

/-- `transmit(payload)` (R120). -/
def opTransmit (payload : List Byte) (s : State) : Out :=
  if payload = [] then rejectCall s
  else
    withPayloadSize s fun n =>
      if payload.length ≤ n then runLines (enterTransmit s.par (padPayload n payload)) s
      else
        match s.par.overlength with
        | .reject => rejectCall s
        | .truncate => runLines (enterTransmit s.par (padPayload n (payload.take n))) s

/-- `startListening()` (R124). -/
def opStartListening (s : State) : Out :=
  runLines (setModePrx s.par ++ powerUpWait s.par ++ [.restorePipe0] ++ flushBoth
    ++ [.setCE true, .waitMs s.par.listenSettleMs, .ret .done]) s

/-- `available()` (R125). -/
def opAvailable (s : State) : Out := runLines [readReg1 s.par 0x07#8, .clearSeen, .ret .available] s

/-- The lines of `readPayload` that read `n` bytes (R126). -/
def readPayloadLines (c : Config) (n : Nat) : List Action :=
  [cmdRead c 0x61#8 n, .keep, cmdOnly 0xE2#8, .ret (.payload n)]

/-- `readPayload(len)` (R126). -/
def opReadPayload (len : Nat) (s : State) : Out :=
  if len = 0 then rejectCall s
  else
    withPayloadSize s fun n =>
      if len ≤ n then runLines (readPayloadLines s.par len) s
      else
        match s.par.overlength with
        | .reject => rejectCall s
        | .truncate => runLines (readPayloadLines s.par n) s

/-- `stopListening()` (R127). -/
def opStopListening (s : State) : Out := runLines ([.setCE false] ++ flushBoth ++ [.ret .done]) s

/-! ## Diagnostics -/

/-- The registers `dumpRegisters` reads, with the bytes of each, in the source's order (46_diagnostics.md R143). -/
def dumpReads (c : Config) : List (Byte × Nat) :=
  [(0x00#8, 1), (0x01#8, 1), (0x02#8, 1), (0x03#8, 1), (0x05#8, 1), (0x06#8, 1), (0x0A#8, c.addrBytes), (0x0B#8, c.addrBytes),
   (0x0C#8, 1), (0x0D#8, 1), (0x0E#8, 1), (0x0F#8, 1), (0x10#8, c.addrBytes)]
  ++ [(0x11#8, 1), (0x12#8, 1), (0x13#8, 1), (0x14#8, 1), (0x15#8, 1), (0x16#8, 1), (0x1C#8, 1), (0x1D#8, 1)]

/-- `dumpRegisters()` (R143). -/
def opDumpRegisters (s : State) : Out :=
  runLines (((dumpReads s.par).flatMap fun r => [readRegN s.par r.1 r.2, .keep]) ++ [.ret .dump]) s

/-! ## One call -/

/-- The host calls an operation (30_encoding.md R83). -/
def startOp (op : HostOp) (s : State) : Out :=
  match op with
  | .readRegister addr => opReadRegister addr s
  | .readRegisterN addr len => opReadRegisterN addr len s
  | .writeRegister addr value => opWriteRegister addr value s
  | .writeRegisterN addr bytes => opWriteRegisterN addr bytes s
  | .initializeRadio req => opInitialize req s
  | .openWritingPipe address => opOpenWritingPipe address s
  | .openReadingPipe index address => opOpenReadingPipe index address s
  | .transmit payload => opTransmit payload s
  | .startListening => opStartListening s
  | .available => opAvailable s
  | .readPayload len => opReadPayload len s
  | .stopListening => opStopListening s
  | .dumpRegisters => opDumpRegisters s

end Sys2Proof.Machine
end

