-- ==== Sys2Proof/Machine/Controller.lean ====
section
/-! DEFINITION. The controller: it runs the operation in progress line by line and returns its result to the host, which then
calls the next operation (00_scope.md R15, 60_exceptions.md R145 and R160). -/

namespace Sys2Proof.Machine

/-! ## Results -/

/-- Byte j of the list the i-th exchange call returned; 0 where there is none, which no operation's lines reach. -/
def insByte (ins : List (List Byte)) (i j : Nat) : Byte := (ins.getD i []).getD j 0x00#8

/-- RX_P_NO of a STATUS value, bits 3:1 (10_state.md R28). -/
def pipeOfStatus (v : Byte) : PipeNo := (v >>> 1).setWidth 3

/-- The result of `transmit` from the last STATUS value (44_transfer_engine.md R123). -/
def transmitResult (v : Byte) : Result :=
  if v.getLsbD 5 then .ok .delivered
  else if v.getLsbD 4 then .ok .notDelivered
  else .timeout

/-- The result of a payload read of n bytes from the `ins` of its frame (R126). -/
def payloadResult (n : Nat) (ins : List (List Byte)) : Result :=
  if pipeOfStatus (insByte ins 0 0) = 0b111#3 then .ok (.payload false [] 0)
  else .ok (.payload true (ins.getD 1 []) n)

/-- The record of `dumpRegisters` from the 21 reads kept, in order (46_diagnostics.md R143). -/
def dumpRecord (kept : List (List (List Byte))) : RegisterDump :=
  let one (k : Nat) : Byte := insByte (kept.getD k []) 1 0
  let five (k : Nat) : Addr := addrOfBytes ((kept.getD k []).getD 1 [])
  { config := one 0, enAA := one 1, enRxaddr := one 2, setupAw := one 3, rfCh := one 4, rfSetup := one 5
    rxAddrP0 := five 6, rxAddrP1 := five 7, rxAddrP2 := one 8, rxAddrP3 := one 9, rxAddrP4 := one 10
    rxAddrP5 := one 11, txAddr := five 12, rxPwP0 := one 13, rxPwP1 := one 14, rxPwP2 := one 15
    rxPwP3 := one 16, rxPwP4 := one 17, rxPwP5 := one 18, dynpd := one 19, feature := one 20 }

/-- The value of a `return` line (R145). -/
def returnValue (r : Return) (l : Locals) : Result :=
  match r with
  | .done => .ok .done
  | .byte => .ok (.byte (insByte l.ins 1 0))
  | .bytes => .ok (.bytes (l.ins.getD 1 []))
  | .transmit => transmitResult l.status
  | .available => .ok (.availability (l.status.getLsbD 6) (pipeOfStatus l.status))
  | .payload n => payloadResult n (l.kept.getD 0 [])
  | .dump => .ok (.dump (dumpRecord l.kept))

/-! ## The lines between primitives -/

/-- `v <- ins[1][0]; WriteReg(a, [(v | set) & ~clear])` (41_register_access.md R107 to R109, 43_pipe_manager.md R117). -/
def rmwStep (a set clear : Byte) (s : State) : State :=
  s.pushCode [writeReg1 s.par a ((insByte s.loc.ins 1 0 ||| set) &&& ~~~clear)]

/-- `t0 <- Now()` (44_transfer_engine.md R120). -/
def startDeadlineStep (s : State) : State := { s with loc := { s.loc with t0 := s.loc.time } }

/-- One iteration of the poll: OBSERVE_TX (value discarded), then STATUS (R122). -/
def pollStep (s : State) : State := s.pushCode [readReg1 s.par 0x08#8, readReg1 s.par 0x07#8, .pollFlags]

/-- The flags are tested before the deadline (R122). -/
def pollFlagsStep (s : State) : State :=
  let v := insByte s.loc.ins 1 0
  let t := { s with loc := { s.loc with status := v } }
  if v.getLsbD 5 || v.getLsbD 4 then t.pushCode (finishTransmit s.par)
  else t.pushCode [.now, .pollDeadline]

/-- `Now() - t0 >= TX_TIMEOUT_MS` (R122). -/
def pollDeadlineStep (s : State) : State :=
  if s.par.txTimeoutMs ≤ s.loc.time - s.loc.t0 then s.pushCode (finishTransmit s.par)
  else s.pushCode [.poll]

/-- The clears of `available`: RX_DR alone, then TX_DS alone if it was read as set too (R125). -/
def clearSeenStep (s : State) : State :=
  let v := insByte s.loc.ins 1 0
  let t := { s with loc := { s.loc with status := v } }
  if v.getLsbD 6 then
    t.pushCode (writeReg1 s.par 0x07#8 0x40#8 :: (if v.getLsbD 5 then [writeReg1 s.par 0x07#8 0x20#8] else []))
  else t

/-- Keep `ins` for the result. -/
def keepStep (s : State) : State := { s with loc := { s.loc with kept := s.loc.kept ++ [s.loc.ins] } }

/-- `cfg.payload_size <- min(n, MAX_PAYLOAD)` (42_configuration.md R113). -/
def setPayloadSizeStep (n : Nat) (s : State) : State := { s with payloadSize := some (min n s.par.maxPayload) }

/-- `cfg.pipe0_cache <- A` (43_pipe_manager.md R117). -/
def cachePipe0Step (a : Addr) (s : State) : State := { s with pipe0Cache := some a }

/-- Restore RX_ADDR_P0 from the cache, when it holds an address (44_transfer_engine.md R124). -/
def restorePipe0Step (s : State) : State :=
  match s.pipe0Cache with
  | none => s
  | some a => s.pushCode [writeRegN s.par 0x0A#8 (bytesOfAddr a)]

/-! ## One line -/

/-- The controller takes line `a`; `s.code` holds the lines after it. -/
def runAction (a : Action) (dr : Draw) (s : State) : Out :=
  match a with
  | .frame outs => frameStep outs dr s
  | .setCSN v => csnStep v dr s
  | .exchange out => exchangeStep out dr s
  | .setCE v => ceStep v dr s
  | .waitMs d => .next (waitBegins d s)
  | .waitUntil t d => .next (waitEnds t d s)
  | .now => .next (nowStep s)
  | .rmw a set clear => .next (rmwStep a set clear s)
  | .startDeadline => .next (startDeadlineStep s)
  | .poll => .next (pollStep s)
  | .pollFlags => .next (pollFlagsStep s)
  | .pollDeadline => .next (pollDeadlineStep s)
  | .clearSeen => .next (clearSeenStep s)
  | .keep => .next (keepStep s)
  | .setPayloadSize n => .next (setPayloadSizeStep n s)
  | .cachePipe0 a => .next (cachePipe0Step a s)
  | .restorePipe0 => .next (restorePipe0Step s)
  | .ret r => .next (finishOp (returnValue r s.loc) s)

/-- With no line left the host calls its next operation, whose step index starts at 0 (10_state.md R18); with no call left
the block is idle, which ends the run (60_exceptions.md R165). -/
def hostCalls (s : State) : Out :=
  match s.program with
  | [] => .next { s with op := none }
  | op :: rest =>
      startOp op { s with program := rest, op := some op, stepIndex := 0, loc := Locals.empty }

/-- A move of the controller with the draws `dr`: its next line, or the host's next call; then the clock advances. -/
def controllerStep (dr : Draw) (s : State) : Out :=
  andThen
    (match s.code with
      | [] => hostCalls s
      | a :: rest => runAction a dr { s with code := rest })
    fun t => .next (t.passTime dr.idleMs)

end Sys2Proof.Machine
end

