-- ==== Sys2Proof/Machine/Radio.lean ====
section
/-! DEFINITION. The radio core and air (45_radio_core.md): TX start, TX completion and RX delivery. A move of the air that is not
enabled changes nothing. -/

namespace Sys2Proof.Machine

/-- TX start is enabled (R133), apart from the conditions every radio-core step has (`radioStep`). -/
def txStartEnabled (s : State) : Bool :=
  s.dev.pwrUp s.par && !s.dev.primRx s.par && s.ce && !s.dev.txq.isEmpty && !s.dev.maxRT && !s.dev.txActive

/-- `tx_start`: the head of the TX FIFO is on the air; no flag is set (R133). -/
def txStart (s : State) : State :=
  if txStartEnabled s then s.setDev { s.dev with txActive := true } else s

/-- The transmission is sent: no acknowledgement is awaited, or the air chose `Acked` and one can arrive (R134). -/
def txSent (c : Config) (acked : Bool) (d : Device) : Bool := !d.ackAwaited c || (acked && ackReachable c d)

/-- `tx_complete`: Sent or Acked pops the head and sets TX_DS, MaxRt sets MAX_RT and leaves the head (R134). -/
def txComplete (acked : Bool) (s : State) : State :=
  if s.dev.txActive then
    if txSent s.par acked s.dev then
      s.setDev { s.dev with txq := s.dev.txq.tail, txDS := true, txActive := false }
    else s.setDev { s.dev with maxRT := true, txActive := false }
  else s

/-- File a packet under pipe `p`: it is lost without a flag when the RX FIFO is full (R138, R139). -/
def rxFile (p : Nat) (payload : List Byte) (s : State) : State :=
  if s.par.rxFifoDepth ≤ s.dev.rxq.length then s
  else
    s.setDev { s.dev with
      rxq := s.dev.rxq ++ [{ pipe := BitVec.ofNat 3 p, payload := payload }]
      rxDR := true }

/-- `rx_deliver(X, payload)` while Listening: a packet for no open pipe is ignored; among several candidates the air chooses
(R138, R140). A packet's payload has 1 to 32 bytes. -/
def rxDeliver (x : Addr) (payload : List Byte) (pick : Nat) (s : State) : State :=
  if xcvrState s = .listening ∧ 1 ≤ payload.length ∧ payload.length ≤ s.par.maxPayload then
    match candidatePipes s.par s.dev x payload with
    | [] => s
    | p :: ps => rxFile ((p :: ps).getD (pick % (p :: ps).length) p) payload s
  else s

/-- A radio-core step: none runs while CSN is 0 (R131) or the device is powered down (R136), and each is refused while
dynamic payload is effectively on (R141). -/
def radioStep (act : State → State) (s : State) : Out :=
  if s.csn = false then .next s
  else if s.dev.pwrUp s.par = false then .next s
  else if dynamicPayloadOn s.par s.dev then .refused .dynamicPayload
  else .next (act s)

end Sys2Proof.Machine
end

