-- ==== Sys2Proof/Machine/Step.lean ====
section
/-! DEFINITION. One step of the machine: the next move of the schedule, one agent at a time (00_scope.md R15, 20_memory.md R62
and R63). When the schedule is empty the controller moves with quiet draws (assumption 6). -/

namespace Sys2Proof.Machine

/-- The step function. -/
def step (s : State) : Host.Outcome State Fault Refusal :=
  match s.sched with
  | [] => controllerStep Draw.quiet s
  | .clock d :: rest => .next ({ s with sched := rest }.passTime d)
  | .txStart :: rest => radioStep txStart { s with sched := rest }
  | .txComplete acked :: rest => radioStep (txComplete acked) { s with sched := rest }
  | .rxDeliver x payload pick :: rest => radioStep (rxDeliver x payload pick) { s with sched := rest }
  | .run dr :: rest => controllerStep dr { s with sched := rest }

/-- The state whose next step sends the table word as one frame: the frame is the controller's next line, the controller
moves next, CSN is high and the power-on reset is over (assumption 4). -/
def State.withFetchWord (s : State) (nbits w : Nat) : State :=
  { s with
    code := .frame [wordBytes nbits w] :: s.code
    sched := []
    csn := true
    clock := max s.clock s.par.porMs }

end Sys2Proof.Machine
end

