-- ==== Sys2Proof/Safety.lean ====
section
/-! DEFINITION. What claims are stated in terms of: the invariant of the machine, runs, and the two premises the spec names for
infinite runs, `CLOCK_PROGRESS` (60_exceptions.md R156) and `RADIO_LIVE` (45_radio_core.md R142). -/

namespace Sys2Proof.Safety

open Sys2Proof.Machine

/-- The parameters of 00_scope.md R7 whose value the source or the word types fix have that value: the register file's shape, the
pipes and the payload limit. The variants, the decisions, the times, the reset values and the FIFO depths stay free. -/
structure Structural (c : Config) : Prop where
  regWidth : c.regWidth = 8
  regAddrBits : c.regAddrBits = 5
  regAddrMax : c.regAddrMax = 0x1D
  numPipes : c.numPipes = 6
  addrBytes : c.addrBytes = 5
  maxPayload : c.maxPayload = 32
  regMap : c.regMap = familyRegMap

/-- The invariant: the parameters of the block's shape are this hardware's, the device is in a legal state, the frame buffer is empty
whenever CSN is high and otherwise holds as many MISO as MOSI bytes (10_state.md R39), no frame is open before the power-on reset is
over (70_reset_and_hazards.md R166, R170), and the payload size is unset or 1 to 32 (10_state.md R41). -/
structure Inv (s : State) : Prop where
  structural : Structural s.par
  legal : s.dev.legal s.par = true
  bufferEmpty : s.csn = true → s.dev.mosi = [] ∧ s.dev.miso = []
  bufferPaired : s.dev.mosi.length = s.dev.miso.length
  openAfterReset : s.csn = false → s.par.porMs ≤ s.clock
  payloadSize : ∀ n, s.payloadSize = some n → 1 ≤ n ∧ n ≤ 32
  pendingSize : ∀ n, Action.setPayloadSize n ∈ s.code → 1 ≤ n

/-- `k` steps of the machine, stopping at the first refusal. -/
def run (k : Nat) (s : State) : Out := Host.Core.run Sys2Proof.core k s

/-- An infinite run: every step answers a next state. -/
def IsRun (r : Nat → State) : Prop := ∀ n, step (r n) = .next (r (n + 1))

/-- The premise `CLOCK_PROGRESS`: the clock grows without bound (R156). -/
def ClockProgress (r : Nat → State) : Prop := ∀ t, ∃ n, t ≤ (r n).clock

/-- The controller holds in a `WaitMs(d)` that began at `t - d`. -/
def InWait (s : State) (t d : Nat) : Prop := s.code.head? = some (.waitUntil t d)

/-- TX start may happen now (R133). -/
def TxStartEnabled (s : State) : Prop :=
  s.csn = true ∧ txStartEnabled s = true ∧ dynamicPayloadOn s.par s.dev = false

/-- The premise `RADIO_LIVE` (R142): a TX start that stays enabled during a whole wait happens before the wait ends, and a
transmission completes within `TX_TIMEOUT_MS`. R142 counts from a transmission's TX start and does not say what holds of a
`tx_active` that no TX start set, because a transport failure drew it 1, nor of a transmission that FLUSH_TX, a power-down or a change
to PRX abandons: `completes` bounds every stretch with `tx_active` = 1 by `TX_TIMEOUT_MS`, whatever began it, and whatever ends it
meets the bound (DESIGN CHOICE, assumption 24). -/
structure RadioLive (r : Nat → State) : Prop where
  startsInWait : ∀ n m t d, n ≤ m → (n = 0 ∨ ¬ InWait (r (n - 1)) t d) →
    (∀ k, n ≤ k → k ≤ m → InWait (r k) t d ∧ TxStartEnabled (r k)) → InWait (r (m + 1)) t d
  completes : ∀ n m, n ≤ m → (∀ k, n ≤ k → k ≤ m → (r k).dev.txActive = true) →
    (r m).clock ≤ (r n).clock + (r n).par.txTimeoutMs

/-- The premises a claim about progress may take: `CLOCK_PROGRESS`, and `RADIO_LIVE` when the parameter asks for it. -/
def LivenessPremises (r : Nat → State) : Prop :=
  ClockProgress r ∧ ((r 0).par.radioLive = true → RadioLive r)

/-- The fields no wire command touches: the parameters, CE, the controller, the clock, the trace and the schedule. -/
def SameOutsideDevice (s t : State) : Prop :=
  t.par = s.par ∧ t.ce = s.ce ∧ t.payloadSize = s.payloadSize ∧ t.pipe0Cache = s.pipe0Cache ∧ t.clock = s.clock
    ∧ t.program = s.program ∧ t.op = s.op ∧ t.code = s.code ∧ t.stepIndex = s.stepIndex ∧ t.loc = s.loc
    ∧ t.results = s.results ∧ t.trace = s.trace ∧ t.sched = s.sched

/-- What a radio-core step leaves alone: everything but the flags, the FIFOs, `tx_active` and the schedule it was taken
from (20_memory.md R65, 46_diagnostics.md R143). -/
def SameButRadio (s t : State) : Prop :=
  t = { s with
    dev := { s.dev with
      rxDR := t.dev.rxDR, txDS := t.dev.txDS, maxRT := t.dev.maxRT
      txq := t.dev.txq, rxq := t.dev.rxq, txActive := t.dev.txActive }
    sched := t.sched }

/-! ## The words of the statements -/

/-- The power-on reset is over: a frame may open (40_spi_commands.md R84). -/
def Ready (s : State) : Prop := s.par.porMs ≤ s.clock

/-- Bytes drawn at places `first`, `first + 1`, … of a frame. -/
def drawn (s : State) (first n : Nat) : List Byte := (List.range n).map fun j => Config.freeByte (s.draws + (first + j))

/-- The state after a frame of `n` data bytes that returned `miso` after the status byte and left device `d`: CSN is high, the
frame buffer is empty, and every field not named is as before. -/
def frameResult (s : State) (n : Nat) (miso : List Byte) (d : Device) : State :=
  { s with
    csn := true
    dev := { d with mosi := [], miso := [] }
    resp := statusByte s.par s.dev :: miso
    draws := s.draws + (n + 1) }

/-- `width(a)` of 40_spi_commands.md R87. -/
def widthOfRule : Reg → Nat
  | .rxAddrP0 | .rxAddrP1 | .txAddr => 5
  | _ => 1

/-- The access column of 10_state.md R19. -/
def accessOfRule : Reg → Access
  | .status => .w1c
  | .observeTx | .cd | .fifoStatus => .ro
  | _ => .rw

/-- `reserved_mask(a)` as 40_spi_commands.md R88 lists it, and the Reserved bits of STATUS, CD and FIFO_STATUS (10_state.md R28, R30,
R34). -/
def reservedOfRule : Reg → Byte
  | .config => 0x80#8
  | .enAA => 0xC0#8
  | .enRxaddr => 0xC0#8
  | .setupAw => 0xFC#8
  | .rfCh => 0x80#8
  | .rfSetup => 0xE0#8
  | .status => 0x80#8
  | .cd => 0xFE#8
  | .rxPwP0 | .rxPwP1 | .rxPwP2 | .rxPwP3 | .rxPwP4 | .rxPwP5 => 0xC0#8
  | .fifoStatus => 0x8C#8
  | .dynpd => 0xC0#8
  | .feature => 0xF8#8
  | _ => 0x00#8

/-- `illegal(a, v)` as 40_spi_commands.md R88 writes it. -/
def illegalOfRule (r : Reg) (v : Byte) : Bool :=
  match r with
  | .setupAw => v &&& 0x03#8 == 0#8
  | .rxPwP0 | .rxPwP1 | .rxPwP2 | .rxPwP3 | .rxPwP4 | .rxPwP5 => decide (32 < v.toNat)
  | _ => false

/-- `regbyte(a, j)` as 40_spi_commands.md R87 writes it, for register `r` and MISO byte `j + 1`. -/
def regbyteOfRule (s : State) (r : Reg) (j : Nat) : Byte :=
  if widthOfRule r ≤ j then Config.freeByte (s.draws + (j + 1))
  else if r = .status then statusByte s.par s.dev
  else if r = .fifoStatus then fifoStatusByte s.par s.dev
  else if r = .observeTx ∨ r = .cd then Config.freeByte (s.draws + (j + 1))
  else if (r = .dynpd ∨ r = .feature) ∧ s.par.chipNeedsActivate = true ∧ s.dev.featuresActive = false then 0x00#8
  else (regStored s.par s.dev r).getD j 0x00#8

/-- The controller makes the next move, with draws `dr`, and `rest` of the schedule stays. -/
def ControllerMoves (s : State) (dr : Draw) (rest : List Move) : Prop :=
  (s.sched = [] ∧ dr = Draw.quiet ∧ rest = []) ∨ s.sched = .run dr :: rest

/-- Every register but those in `rs` reads as before. -/
def SameRegistersBut (rs : List Reg) (c : Config) (d e : Device) : Prop :=
  ∀ r, r ∉ rs → regReadable c e r = regReadable c d r

/-- Two addresses agree on the bytes that take part in matching: the low `aw` bytes, `aw = SETUP_AW.AW + 2` with AW the bits 1:0 of
SETUP_AW (10_state.md R24, 45_radio_core.md R134, R137). -/
def LowBytesAgree (d : Device) (a b : Addr) : Prop :=
  a.toNat % 2 ^ (8 * (d.setupAw.toNat % 4 + 2)) = b.toNat % 2 ^ (8 * (d.setupAw.toNat % 4 + 2))

/-- A transmission may be reported as sent: no acknowledgement is awaited, or one can arrive (45_radio_core.md R134). -/
def MayBeSent (d : Device) : Prop := d.enAA.getLsbD 0 = false ∨ LowBytesAgree d d.rxAddrP0 d.txAddr

/-- RX_ADDR_Pp and RX_PW_Pp, for pipes 0 to 5 (10_state.md R19). -/
def pipeRegs : Nat → List Reg
  | 0 => [.rxAddrP0, .rxPwP0]
  | 1 => [.rxAddrP1, .rxPwP1]
  | 2 => [.rxAddrP2, .rxPwP2]
  | 3 => [.rxAddrP3, .rxPwP3]
  | 4 => [.rxAddrP4, .rxPwP4]
  | _ => [.rxAddrP5, .rxPwP5]

/-- CE and `cfg` are as before. -/
def SameCeAndCfg (s t : State) : Prop := t.ce = s.ce ∧ t.payloadSize = s.payloadSize ∧ t.pipe0Cache = s.pipe0Cache

/-- The flags, the FIFOs and `features_active` are as before. -/
def SameFlagsAndFifos (d e : Device) : Prop :=
  e.rxDR = d.rxDR ∧ e.txDS = d.txDS ∧ e.maxRT = d.maxRT ∧ e.txq = d.txq ∧ e.rxq = d.rxq
    ∧ e.featuresActive = d.featuresActive

/-- Whatever the radio core did: every register but those in `rs`, STATUS and FIFO_STATUS reads as before, and `features_active` is as
before (20_memory.md R65). -/
def SameRegistersOnAir (rs : List Reg) (c : Config) (d e : Device) : Prop :=
  SameRegistersBut (.status :: .fifoStatus :: rs) c d e ∧ e.featuresActive = d.featuresActive

/-- The result of `dumpRegisters`: the registers of 46_diagnostics.md R143 as R_REGISTER reads them. -/
def dumpOf (s : State) : Result :=
  .ok (.dump
    { config := s.dev.config, enAA := s.dev.enAA, enRxaddr := s.dev.enRxaddr, setupAw := s.dev.setupAw
      rfCh := s.dev.rfCh, rfSetup := s.dev.rfSetup, rxAddrP0 := s.dev.rxAddrP0, rxAddrP1 := s.dev.rxAddrP1
      rxAddrP2 := s.dev.rxAddrP2, rxAddrP3 := s.dev.rxAddrP3, rxAddrP4 := s.dev.rxAddrP4
      rxAddrP5 := s.dev.rxAddrP5, txAddr := s.dev.txAddr, rxPwP0 := s.dev.rxPwP0, rxPwP1 := s.dev.rxPwP1
      rxPwP2 := s.dev.rxPwP2, rxPwP3 := s.dev.rxPwP3, rxPwP4 := s.dev.rxPwP4, rxPwP5 := s.dev.rxPwP5
      dynpd := if featuresGated s.par s.dev then 0x00#8 else s.dev.dynpd
      feature := if featuresGated s.par s.dev then 0x00#8 else s.dev.feature })

/-! ## Schedules -/

/-- Draws with which no primitive fails: none fails by itself, and no exchange call runs past `XFER_TIMEOUT_MS` (60_exceptions.md
R146, R158). The times are free. -/
def NoFailure (c : Config) (dr : Draw) : Prop := dr.failAt = none ∧ ∀ x ∈ dr.xferMs, x ≤ c.xferTimeoutMs

/-- A move of the clock, or of the controller without a failure: the moves of a run in which the air is silent. -/
def QuietMove (c : Config) : Move → Prop
  | .clock _ => True
  | .txStart => False
  | .txComplete _ => False
  | .rxDeliver _ _ _ => False
  | .run dr => NoFailure c dr

/-- A quiet move or a TX start: the moves of a run in which the radio sets no flag (45_radio_core.md R133). -/
def FlaglessMove (c : Config) : Move → Prop
  | .clock _ => True
  | .txStart => True
  | .txComplete _ => False
  | .rxDeliver _ _ _ => False
  | .run dr => NoFailure c dr

/-- Any move, but that the controller's do not fail. -/
def FailureFreeMove (c : Config) : Move → Prop
  | .clock _ => True
  | .txStart => True
  | .txComplete _ => True
  | .rxDeliver _ _ _ => True
  | .run dr => NoFailure c dr

/-- Between host operations, the host calling `op` next, with `rest` after it, on the register map of this hardware; the schedule is
free but for its moves, each of them one that `ok` allows. After the schedule the controller moves by default (assumption 6). -/
structure CallsUnder (ok : Config → Move → Prop) (s : State) (op : HostOp) (rest : List HostOp) : Prop where
  structural : Structural s.par
  idle : s.code = []
  program : s.program = op :: rest
  sched : ∀ m ∈ s.sched, ok s.par m

/-- A call under every schedule in which no primitive fails, whatever the radio core and the air do (20_memory.md R63): CSN is high, frames
may open, and dynamic payload is off, so that no radio-core step is refused (45_radio_core.md R141). -/
structure CallsOnAir (s : State) (op : HostOp) (rest : List HostOp) : Prop extends CallsUnder FailureFreeMove s op rest where
  csn : s.csn = true
  ready : Ready s
  staticPayload : dynamicPayloadOn s.par s.dev = false

/-- A call under a schedule of clock moves and controller moves that do not fail. -/
abbrev Calls (s : State) (op : HostOp) (rest : List HostOp) : Prop := CallsUnder QuietMove s op rest

/-- The call returns with result `r`: after some steps its result is the last one, no line of it is left, the host's next calls are `rest`, and
`post` holds of the state. -/
def Returns (s : State) (rest : List HostOp) (r : Result) (post : State → Prop) : Prop :=
  ∃ k t, run k s = .next t ∧ t.results = s.results ++ [r] ∧ t.program = rest ∧ t.op = none ∧ t.code = [] ∧ post t

/-- `transmit(payload)` with the payload size `n` sends a payload: it is not empty, and it fits or is cut to fit
(44_transfer_engine.md R120). -/
structure Transmits (ok : Config → Move → Prop) (s : State) (payload : List Byte) (n : Nat) (rest : List HostOp) : Prop extends
    CallsUnder ok s (.transmit payload) rest where
  nonempty : payload ≠ []
  size : s.payloadSize = some n
  sizeRange : 1 ≤ n ∧ n ≤ 32
  fits : payload.length ≤ n ∨ s.par.overlength = .truncate
  csn : s.csn = true
  ready : Ready s
  configLegal : s.dev.config.getLsbD 7 = false
  staticPayload : dynamicPayloadOn s.par s.dev = false

/-- The payload `transmit` sends: its first `n` bytes, padded with 0x00 (R120). -/
def paddedPayload (payload : List Byte) (n : Nat) : List Byte := payload.take n ++ List.replicate (n - payload.length) 0x00#8

/-- The payload went out on the bus in one exchange call. -/
def Sent (bs : List Byte) (t : State) : Prop := ∃ inn, BusEvent.xfer bs inn ∈ t.trace

/-- The register values `initialize` is asked to write are ones the registers take, and CONFIG_INIT keeps the power off
(42_configuration.md R113, R115). -/
def InitValuesLegal (c : Config) : Prop :=
  c.configInit.getLsbD 1 = false ∧ legalByte c .config c.configInit = true ∧ legalByte c .enAA c.variantEnAA = true
    ∧ legalByte c .setupAw c.setupAwInit = true ∧ legalByte c .rfCh c.variantRfCh = true ∧ legalByte c .rfSetup c.rfSetupInit = true

/-- Primitive number `k` of line `a` is the first of it that fails with the draws `dr`. -/
def FailsAt (c : Config) (dr : Draw) (a : Action) (k : Nat) : Prop :=
  (∃ outs, a = .frame outs ∧ frameFailure c dr outs.length = some k)
    ∨ (((∃ v, a = .setCSN v) ∨ ∃ v, a = .setCE v) ∧ dr.failAt = some 0 ∧ k = 0)
    ∨ ((∃ out, a = .exchange out) ∧ (dr.failAt = some 0 ∨ c.xferTimeoutMs < dr.xferMs.getD 0 0) ∧ k = 0)

/-- `Frame(outs)` as its raw lines: `SetCSN(0)`, one `Exchange` for each list of `outs`, `SetCSN(1)` (41_register_access.md R97). -/
def rawLines (outs : List (List Byte)) : List Action := .setCSN false :: (outs.map .exchange ++ [.setCSN true])

end Sys2Proof.Safety
end

