-- ==== Sys2Proof/WellFormed.lean ====
section
/-! DEFINITION. Well-formed wire commands: the forms of 20_memory.md R55 (data bytes per command) on an address that names a
register (10_state.md R43). What depends on the device (a gated register, a reserved bit, an illegal value) is the meaning's
own check. -/

namespace Sys2Proof

/-- The checks of R43, R55, R72 and R88 that the frame and the parameters alone decide. -/
def Instr.wf (c : Config) : Instr → Bool
  | .rRegister a _ => (c.regAt a).isSome
  | .wRegister a d =>
      match c.regAt a with
      | none => false
      | some r => d.isEmpty || decide (d.length = c.width r)
  | .activate d => decide (d = [0x73#8])
  | .wTxPayload d => decide (d.length ≤ c.maxPayload)
  | .rRxPlWid _ => true
  | .rRxPayload _ => true
  | .flushTx _ => true
  | .flushRx _ => true
  | .nop _ => true

end Sys2Proof
end

