-- ==== Sys2Proof/Certificates/Slice0/Obligations.lean ====
section
/-! DEFINITION. The statements for the provers. Nearly every rule of this spec carries a decision mark of the spec (`[decision: see
92_eei_decisions.md D…]`) or `[from general knowledge, not in source]`: a statement that rests on such a clause has basis
'derived' and its docstring names the decision. -/

open Sys2Proof Sys2Proof.Machine Sys2Proof.Safety

/-! ## Encoding -/

/-- Every wire command is read back from its own bytes, at every register address and with every data phase; and the bytes of a
frame are the encoding of the one command they decode to, so no bit of a frame is dropped. -/
def Obligations.DecodeEncodeRoundTrip : Prop :=
  (∀ i : Instr, decode (encode i) = some i)
  ∧ ∀ (bs : List Byte) (i : Instr), decode bs = some i → encode i = bs

/-- The command bytes without a wire command are the five ranges of 30_encoding.md R77, 185 bytes (decision D11). -/
def Obligations.UnlistedCommandBytesDoNotDecode : Prop :=
  (∀ (c : Byte) (d : List Byte), decodeCommand c d = none ↔
    (0x40 ≤ c.toNat ∧ c.toNat ≤ 0x4F) ∨ (0x51 ≤ c.toNat ∧ c.toNat ≤ 0x5F) ∨ (0x62 ≤ c.toNat ∧ c.toNat ≤ 0x9F)
      ∨ (0xA1 ≤ c.toNat ∧ c.toNat ≤ 0xE0) ∨ (0xE3 ≤ c.toNat ∧ c.toNat ≤ 0xFE))
  ∧ ((List.range 256).filter fun n => (decodeCommand (BitVec.ofNat 8 n) []).isNone).length = 185

/-- Words written out from 30_encoding.md R73 and 95_test_vectors.md E8 decode to the commands they stand for. -/
def Obligations.SpecWordsDecode : Prop :=
  decode [0b00011101#8, 0xFF#8] = some (.rRegister 0x1D#5 [0xFF#8])
  ∧ decode [0b00100111#8, 0b01110000#8] = some (.wRegister 0x07#5 [0x70#8])
  ∧ decode [0b01010000#8, 0b01110011#8] = some (.activate [0x73#8])
  ∧ decode [0b01100001#8, 0xFF#8, 0xFF#8] = some (.rRxPayload [0xFF#8, 0xFF#8])
  ∧ decode [0b10100000#8, 0x46#8, 0x32#8] = some (.wTxPayload [0x46#8, 0x32#8])
  ∧ decode [0b11111111#8] = some (.nop [])

/-! ## A step and a frame -/

/-- When the controller's next line is a frame whose bytes decode to a well-formed command and none of its primitives fails, the
step is `exec` of that command at the state with the line taken, and around it the frame's return (`ins`, trace, step
index, exchange time) and the move's idle time. That a frame is one step and how its draws are supplied is the model's choice
(assumptions 1 and 6). -/
def Obligations.StepRunsDecodedCommand : Prop :=
  ∀ (s : State) (dr : Draw) (rest : List Move) (outs : List (List Byte)) (code : List Action) (i : Instr),
    ControllerMoves s dr rest → s.code = .frame outs :: code → frameFailure s.par dr outs.length = none →
    decode (fetchFrame outs s) = some i → i.wf s.par = true →
    step s = andThen (exec i { s with sched := rest, code := code }) fun t =>
      .next ((frameReturns outs (if s.csn then 0 else s.dev.mosi.length) dr t).passTime dr.idleMs)

/-- A table word placed by `withFetchWord` is what the very next step runs (assumption 4). -/
def Obligations.PlacedWordRunsNext : Prop :=
  ∀ (s : State) (nbits w : Nat) (i : Instr), decodeTableWord nbits w = some i →
    step (s.withFetchWord nbits w) =
      andThen (exec i { s with sched := [], csn := true, clock := max s.clock s.par.porMs }) fun t =>
        .next ((frameReturns [wordBytes nbits w] 0 Draw.quiet t).passTime 1)

/-- A frame that opens while the clock is below `POR_MS` is refused, whatever its command (R84, R170; decision D46). -/
def Obligations.FrameBeforePowerOnResetRefused : Prop :=
  ∀ (i : Instr) (s : State), s.csn = true → s.clock < s.par.porMs → exec i s = .refused .frameBeforePowerOnReset

/-- A frame whose command byte names no wire command is refused as UndefinedCommand when the controller sends it (R77;
decision D11). -/
def Obligations.UnlistedCommandFrameRefused : Prop :=
  ∀ (s : State) (dr : Draw) (rest : List Move) (outs : List (List Byte)) (code : List Action) (c : Byte) (d : List Byte),
    ControllerMoves s dr rest → s.code = .frame outs :: code → frameFailure s.par dr outs.length = none →
    s.csn = true → Ready s → outs.flatten = c :: d → decodeCommand c d = none →
    step s = .refused (.undefinedCommand c)

/-- The two levels of the model agree (R16, decision D1). The three phases of a frame on the bus, byte by byte, do exactly what the
command the bytes decode to does, refusals included, from every state with CSN high. So do the raw lines of R97 one by one: `SetCSN(0)`,
an `Exchange` for each list, `SetCSN(1)` give what `Frame` of the lists gives, up to the clock. An `Exchange` while no frame is open
returns draws and leaves the device alone (assumption 14). -/
def Obligations.BusLevelAgreesWithCommands : Prop :=
  (∀ (bytes : List Byte) (s : State), s.csn = true → busFrame bytes s = execBytes bytes s)
  ∧ (∀ (s : State) (outs : List (List Byte)) (code : List Action) (dr : Draw) (drs : List Draw), s.csn = true →
      NoFailure s.par dr → (∀ x ∈ drs, NoFailure s.par x) → drs.length = outs.length + 2 →
      (∀ t, step { s with sched := [.run dr], code := .frame outs :: code } = .next t →
        ∃ u, run (outs.length + 2) { s with sched := drs.map .run, code := rawLines outs ++ code } = .next u
          ∧ u = { t with clock := u.clock })
      ∧ ∀ r, step { s with sched := [.run dr], code := .frame outs :: code } = .refused r →
        run (outs.length + 2) { s with sched := drs.map .run, code := rawLines outs ++ code } = .refused r)
  ∧ ∀ (s : State) (dr : Draw) (rest : List Move) (out : List Byte) (code : List Action),
      s.sched = .run dr :: rest → NoFailure s.par dr → s.code = .exchange out :: code → s.csn = true →
      ∃ t, step s = .next t ∧ t.dev = s.dev ∧ t.csn = true ∧ t.code = code
        ∧ t.trace = s.trace ++ [.xfer out (drawn s 0 out.length)]

/-- Frame of all nine wire commands: outside the device only CSN, the MISO record and the draw counter change; the frame
leaves CSN high and the frame buffer empty, and returns one MISO byte for each MOSI byte, the first of them the status byte
of the state at its opening (R39, R84; decisions D5 and D7). -/
def Obligations.WireCommandsTouchOnlyTheDevice : Prop :=
  ∀ (i : Instr) (s t : State), exec i s = .next t →
    SameOutsideDevice s t ∧ t.csn = true ∧ t.dev.mosi = [] ∧ t.dev.miso = []
    ∧ t.resp.length = (encode i).length ∧ t.resp.head? = some (statusByte s.par s.dev)

/-- Every well-formed command completes once frames may open, but for a register write whose value the device's own check
refuses. -/
def Obligations.WellFormedCommandsComplete : Prop :=
  ∀ (i : Instr) (s : State), i.wf s.par = true → Ready s →
    (∃ t, exec i s = .next t) ∨
    ∃ a d, i = .wRegister a d ∧ (exec i s = .refused (.reservedBit a) ∨ exec i s = .refused (.illegalValue a))

/-- A command that is not well-formed is refused under the reason of its own rule (R72, R78, R87, R88, R91, R94; decisions
D8, D10, D28 and D44). -/
def Obligations.IllFormedCommandsRefused : Prop :=
  ∀ (i : Instr) (s : State), i.wf s.par = false → Ready s →
    match i with
    | .rRegister a _ => exec i s = .refused (.undefinedRegister a)
    | .wRegister a d =>
        (s.par.regAt a = none ∧ exec i s = .refused (.undefinedRegister a))
        ∨ (s.par.regAt a ≠ none ∧ exec i s = .refused (.wrongWriteLength a d.length))
    | .activate d => exec i s = .refused (.badActivate d)
    | .wTxPayload d => exec i s = .refused (.payloadTooLong d.length)
    | .rRxPlWid _ => False
    | .rRxPayload _ => False
    | .flushTx _ => False
    | .flushRx _ => False
    | .nop _ => False

/-! ## Reading registers -/

/-- R_REGISTER of any register with any number of data bytes returns `regbyte` of 40_spi_commands.md R87 and changes nothing in
the device (decisions D5, D28, D29 and D42 for the clauses it rests on). -/
def Obligations.ReadRegisterReturnsRegbyte : Prop :=
  ∀ (a : RegAddr) (d : List Byte) (r : Reg) (s : State), Structural s.par → s.par.regAt a = some r → Ready s →
    exec (.rRegister a d) s =
      .next (frameResult s d.length ((List.range d.length).map (regbyteOfRule s r)) s.dev)

/-- Side effects of reads (20_memory.md R57): R_REGISTER has none at any address, R_RX_PAYLOAD with data removes the head of the
RX FIFO and nothing else, and every frame returns the status byte, which of itself changes nothing (a NOP is a frame that
does only that). -/
def Obligations.ReadsHaveOnlyTheStatedSideEffects : Prop :=
  (∀ (a : RegAddr) (d : List Byte) (s t : State), exec (.rRegister a d) s = .next t →
    t.dev = { s.dev with mosi := [], miso := [] } ∧ SameOutsideDevice s t)
  ∧ (∀ (b : Byte) (d : List Byte) (s t : State), exec (.rRxPayload (b :: d)) s = .next t →
    t.dev = { s.dev with rxq := s.dev.rxq.tail, mosi := [], miso := [] } ∧ SameOutsideDevice s t)
  ∧ (∀ (i : Instr) (s t : State), exec i s = .next t → t.resp.head? = some (statusByte s.par s.dev))
  ∧ (∀ (d : List Byte) (s t : State), exec (.nop d) s = .next t → t.dev = { s.dev with mosi := [], miso := [] })

/-- The bits of the STATUS byte (10_state.md R28): bit 7 reads 0, bits 6, 5 and 4 are the flags, bits 3:1 the pipe of the head of
the RX FIFO or 0b111, bit 0 the full mark of the TX FIFO. -/
def Obligations.StatusByteFields : Prop :=
  ∀ (c : Config) (d : Device), Structural c →
    (statusByte c d).getLsbD 7 = false ∧ (statusByte c d).getLsbD 6 = d.rxDR ∧ (statusByte c d).getLsbD 5 = d.txDS
    ∧ (statusByte c d).getLsbD 4 = d.maxRT
    ∧ (statusByte c d >>> 1).setWidth 3 = (match d.rxq with | [] => 0b111#3 | e :: _ => e.pipe)
    ∧ (statusByte c d).getLsbD 0 = decide (d.txq.length = c.txFifoDepth)

/-! ## Writing registers -/

/-- A legal write of one byte to a 1-byte read/write register that is not gated off is stored and read back; no other
register, no flag and no FIFO changes, `tx_active` only as R89 says, and nothing outside the device (R88; decision D9). -/
def Obligations.WriteByteRegisterStoresAndKeepsRest : Prop :=
  ∀ (a : RegAddr) (r : Reg) (v : Byte) (s : State), Structural s.par → s.par.regAt a = some r → widthOfRule r = 1 →
    accessOfRule r = .rw → Ready s →
    (r.isFeatureReg && featuresGated s.par s.dev) = false → v &&& reservedOfRule r = 0#8 → illegalOfRule r v = false →
    ∃ t, exec (.wRegister a [v]) s = .next t ∧ regReadable t.par t.dev r = [v]
      ∧ SameRegistersBut [r] s.par s.dev t.dev ∧ SameFlagsAndFifos s.dev t.dev
      ∧ (r ≠ .config → t.dev.txActive = s.dev.txActive) ∧ SameOutsideDevice s t ∧ t.csn = true

/-- A write of 5 bytes to an address register stores them least significant byte first and changes nothing else (R31, R88;
decision D45). -/
def Obligations.WriteAddressRegisterStoresAndKeepsRest : Prop :=
  ∀ (a : RegAddr) (r : Reg) (d : List Byte) (s : State), Structural s.par → s.par.regAt a = some r → widthOfRule r = 5 →
    d.length = 5 → Ready s →
    ∃ t, exec (.wRegister a d) s = .next t ∧ regReadable t.par t.dev r = d
      ∧ SameRegistersBut [r] s.par s.dev t.dev ∧ SameFlagsAndFifos s.dev t.dev
      ∧ t.dev.txActive = s.dev.txActive ∧ SameOutsideDevice s t ∧ t.csn = true

/-- Side effects of a CONFIG write (R89; decision D30): clearing PWR_UP, or setting PRIM_RX during a transmission, clears
`tx_active`; any other write keeps it; the FIFOs and flags stay. -/
def Obligations.ConfigWriteSideEffects : Prop :=
  ∀ (v : Byte) (s : State), Structural s.par → Ready s → v.getLsbD 7 = false →
    ∃ t, exec (.wRegister 0x00#5 [v]) s = .next t ∧ t.dev.config = v ∧ SameFlagsAndFifos s.dev t.dev ∧
      (((s.dev.config.getLsbD 1 = true ∧ v.getLsbD 1 = false)
          ∨ (s.dev.config.getLsbD 0 = false ∧ v.getLsbD 0 = true ∧ s.dev.txActive = true)) → t.dev.txActive = false) ∧
      (¬((s.dev.config.getLsbD 1 = true ∧ v.getLsbD 1 = false)
          ∨ (s.dev.config.getLsbD 0 = false ∧ v.getLsbD 0 = true ∧ s.dev.txActive = true)) →
        t.dev.txActive = s.dev.txActive)

/-- Write-1-to-clear (10_state.md R29): a write of `v` to STATUS completes, clears each of the three flags whose bit of `v` is 1,
ignores bits 3:0 and changes nothing else. So 0x00 changes nothing, a second write of the same byte changes nothing more, and 0x40
leaves TX_DS and MAX_RT. A `v` with the Reserved bit 7 set is `WriteRegisterRefusals`'s. -/
def Obligations.StatusWriteOneToClear : Prop :=
  (∀ (v : Byte) (s : State), Structural s.par → Ready s → v.getLsbD 7 = false →
    ∃ t, exec (.wRegister 0x07#5 [v]) s = .next t ∧ SameOutsideDevice s t ∧ t.csn = true
      ∧ t.dev = { s.dev with
          rxDR := s.dev.rxDR && !v.getLsbD 6
          txDS := s.dev.txDS && !v.getLsbD 5
          maxRT := s.dev.maxRT && !v.getLsbD 4
          mosi := [], miso := [] })
  ∧ (∀ (v : Byte) (s t u : State), Structural s.par → exec (.wRegister 0x07#5 [v]) s = .next t → exec (.wRegister 0x07#5 [v]) t = .next u →
    u.dev = t.dev)
  ∧ (∀ (s t : State), Structural s.par → exec (.wRegister 0x07#5 [0x00#8]) s = .next t →
    t.dev = { s.dev with mosi := [], miso := [] })
  ∧ (∀ (s t : State), Structural s.par → exec (.wRegister 0x07#5 [0x40#8]) s = .next t →
    t.dev = { s.dev with rxDR := false, mosi := [], miso := [] })

/-- A write to OBSERVE_TX, CD or FIFO_STATUS is accepted and ignored (R20, R88; decisions D9 and D35). -/
def Obligations.ReadOnlyRegisterWritesIgnored : Prop :=
  ∀ (a : RegAddr) (v : Byte) (s : State), Structural s.par → (a = 0x08#5 ∨ a = 0x09#5 ∨ a = 0x17#5) → Ready s →
    exec (.wRegister a [v]) s = .next (frameResult s 1 (drawn s 1 1) s.dev)

/-- While the features are gated off, DYNPD and FEATURE ignore a write of any value and read 0x00 (R35; decision D28). -/
def Obligations.GatedFeatureRegistersIgnoreWrites : Prop :=
  ∀ (a : RegAddr) (v b : Byte) (s : State), Structural s.par → (a = 0x1C#5 ∨ a = 0x1D#5) → Ready s →
    s.par.chipNeedsActivate = true → s.dev.featuresActive = false →
    exec (.wRegister a [v]) s = .next (frameResult s 1 (drawn s 1 1) s.dev)
    ∧ exec (.rRegister a [b]) s = .next (frameResult s 1 [0x00#8] s.dev)

/-- What W_REGISTER refuses, in the order of its rule (R88; decisions D8, D9 and D10): no register, a wrong length, a reserved bit
(of STATUS: bit 7), an illegal value. -/
def Obligations.WriteRegisterRefusals : Prop :=
  ∀ (a : RegAddr) (v : Byte) (d : List Byte) (s : State), Structural s.par → Ready s →
    (s.par.regAt a = none → exec (.wRegister a (v :: d)) s = .refused (.undefinedRegister a)) ∧
    (a = 0x07#5 → d = [] → v.getLsbD 7 = true → exec (.wRegister a (v :: d)) s = .refused (.reservedBit a)) ∧
    ∀ r, s.par.regAt a = some r →
      ((v :: d).length ≠ widthOfRule r → exec (.wRegister a (v :: d)) s = .refused (.wrongWriteLength a (v :: d).length)) ∧
      ((v :: d).length = widthOfRule r → accessOfRule r = .rw → (r.isFeatureReg && featuresGated s.par s.dev) = false →
        (v &&& reservedOfRule r ≠ 0#8 → exec (.wRegister a (v :: d)) s = .refused (.reservedBit a)) ∧
        (v &&& reservedOfRule r = 0#8 → illegalOfRule r v = true → exec (.wRegister a (v :: d)) s = .refused (.illegalValue a)))

/-- A frame that carries only its command byte: its command acts on an empty data phase (R85; decision D8). R_REGISTER, W_REGISTER,
R_RX_PAYLOAD, W_TX_PAYLOAD, R_RX_PL_WID and NOP then return the status byte and nothing else happens; FLUSH_TX and FLUSH_RX, which have
no data, empty their FIFO; ACTIVATE, which needs its data byte, is refused. -/
def Obligations.CommandOnlyFrames : Prop :=
  ∀ (i : Instr) (s : State), Ready s →
    (((∃ a r, i = .rRegister a [] ∧ s.par.regAt a = some r) ∨ (∃ a r, i = .wRegister a [] ∧ s.par.regAt a = some r)
        ∨ i = .rRxPayload [] ∨ i = .wTxPayload [] ∨ i = .rRxPlWid [] ∨ i = .nop []) →
      exec i s = .next (frameResult s 0 [] s.dev))
    ∧ (i = .flushTx [] → exec i s = .next (frameResult s 0 [] { s.dev with txq := [], txActive := false }))
    ∧ (i = .flushRx [] → exec i s = .next (frameResult s 0 [] { s.dev with rxq := [] }))
    ∧ (i = .activate [] → exec i s = .refused (.badActivate []))

/-! ## Payload and control commands -/

/-- R_RX_PAYLOAD returns the head payload, then draws; with at least one data byte it removes the head, and nothing else
changes, RX_DR included (R90; decision D43). -/
def Obligations.ReadPayloadReturnsAndRemovesHead : Prop :=
  ∀ (d : List Byte) (s : State), Ready s →
    exec (.rRxPayload d) s = .next (frameResult s d.length
      (match s.dev.rxq with
        | [] => drawn s 1 d.length
        | e :: _ => e.payload.take d.length ++ drawn s (e.payload.length + 1) (d.length - e.payload.length))
      (if d = [] then s.dev else { s.dev with rxq := s.dev.rxq.tail }))

/-- W_TX_PAYLOAD queues 1 to `MAX_PAYLOAD` bytes (32) at the tail of a TX FIFO that is not full, in any mode, and drops them silently when it is
full; more are refused (R91; decision D44). -/
def Obligations.WriteTxPayloadQueuesOrDrops : Prop :=
  ∀ (d : List Byte) (s : State), Ready s → 1 ≤ d.length →
    (d.length ≤ s.par.maxPayload → exec (.wTxPayload d) s = .next (frameResult s d.length (drawn s 1 d.length)
      (if s.dev.txq.length < s.par.txFifoDepth then { s.dev with txq := s.dev.txq ++ [d] } else s.dev))) ∧
    (s.par.maxPayload < d.length → exec (.wTxPayload d) s = .refused (.payloadTooLong d.length))

/-- FLUSH_TX empties the TX FIFO and abandons a transmission in progress without a flag; FLUSH_RX empties the RX FIFO and clears
no flag; data bytes are ignored (R92, R93; decision D25). -/
def Obligations.FlushesEmptyOneFifo : Prop :=
  ∀ (d : List Byte) (s : State), Ready s →
    exec (.flushTx d) s = .next (frameResult s d.length (drawn s 1 d.length)
      { s.dev with txq := [], txActive := false })
    ∧ exec (.flushRx d) s = .next (frameResult s d.length (drawn s 1 d.length) { s.dev with rxq := [] })

/-- ACTIVATE with the byte 0x73 toggles `features_active` on a chip that needs it and does nothing on one that does not; any other
data phase is refused (R94; decision D28). -/
def Obligations.ActivateTogglesFeatures : Prop :=
  ∀ (d : List Byte) (s : State), Ready s →
    (d = [0x73#8] → exec (.activate d) s = .next (frameResult s 1 (drawn s 1 1)
      (if s.par.chipNeedsActivate then { s.dev with featuresActive := !s.dev.featuresActive } else s.dev))) ∧
    (d ≠ [0x73#8] → exec (.activate d) s = .refused (.badActivate d))

/-- R_RX_PL_WID returns the length of the head payload when the RX FIFO holds one and the features are not gated; every other
byte is a draw and nothing changes (R95; decision D23). -/
def Obligations.PayloadWidthReadsHeadLength : Prop :=
  ∀ (d : List Byte) (s : State), Ready s →
    exec (.rRxPlWid d) s = .next (frameResult s d.length
      (match s.dev.rxq, d with
        | e :: _, _ :: ds =>
            if s.dev.featuresActive || !s.par.chipNeedsActivate then
              BitVec.ofNat 8 e.payload.length :: drawn s 2 ds.length
            else drawn s 1 d.length
        | _, _ => drawn s 1 d.length)
      s.dev)

/-- NOP (40_spi_commands.md R96): the byte 0xFF decodes to it whatever data bytes follow; it completes, returns the status byte,
changes nothing in the device and ignores its data bytes. -/
def Obligations.NopOnlyReturnsStatus : Prop :=
  ∀ d : List Byte, decode (0xFF#8 :: d) = some (.nop d) ∧
    ∀ s : State, Ready s → exec (.nop d) s = .next (frameResult s d.length (drawn s 1 d.length) s.dev)

/-- No wire command sets a flag, and none but W_REGISTER STATUS clears one (R45, and R92, R93 for the flushes). -/
def Obligations.WireCommandsSetNoFlag : Prop :=
  ∀ (i : Instr) (s t : State), Structural s.par → exec i s = .next t →
    (t.dev.rxDR = true → s.dev.rxDR = true) ∧ (t.dev.txDS = true → s.dev.txDS = true)
    ∧ (t.dev.maxRT = true → s.dev.maxRT = true)
    ∧ ((∀ a d, i = .wRegister a d → s.par.regAt a ≠ some .status) →
      t.dev.rxDR = s.dev.rxDR ∧ t.dev.txDS = s.dev.txDS ∧ t.dev.maxRT = s.dev.maxRT)

/-- The TX FIFO is reached only by W_TX_PAYLOAD and FLUSH_TX and the RX FIFO only by R_RX_PAYLOAD and FLUSH_RX among the wire commands;
`tx_active` is cleared only by FLUSH_TX and a CONFIG write (R37, R89, R92); `features_active` is changed only by ACTIVATE (R38, R94;
decisions D25, D28 and D30). -/
def Obligations.EachFifoHasItsOwnCommands : Prop :=
  ∀ (i : Instr) (s t : State), exec i s = .next t →
    (t.dev.txq ≠ s.dev.txq → (∃ d, i = .wTxPayload d) ∨ ∃ d, i = .flushTx d)
    ∧ (t.dev.rxq ≠ s.dev.rxq → (∃ d, i = .rRxPayload d) ∨ ∃ d, i = .flushRx d)
    ∧ (t.dev.txActive ≠ s.dev.txActive → t.dev.txActive = false
      ∧ ((∃ d, i = .flushTx d) ∨ ∃ a d, i = .wRegister a d ∧ s.par.regAt a = some .config))
    ∧ (t.dev.featuresActive ≠ s.dev.featuresActive → ∃ d, i = .activate d)

/-- Pipes 2 to 5 (10_state.md R32): their registers, at 0x0C to 0x0F, hold one byte each; the effective address of such a pipe has
its own low byte and the high 32 bits of RX_ADDR_P1, so a change of RX_ADDR_P1 changes it at once; pipes 0 and 1 have their own 40 bits. -/
def Obligations.PipesTwoToFiveShareHighBytes : Prop :=
  (∀ c : Config, Structural c →
    c.regAt 0x0C#5 = some .rxAddrP2 ∧ c.regAt 0x0D#5 = some .rxAddrP3 ∧ c.regAt 0x0E#5 = some .rxAddrP4
    ∧ c.regAt 0x0F#5 = some .rxAddrP5 ∧ ∀ r ∈ [Reg.rxAddrP2, .rxAddrP3, .rxAddrP4, .rxAddrP5], c.width r = 1)
  ∧ ∀ d : Device,
    effAddr d 0 = d.rxAddrP0 ∧ effAddr d 1 = d.rxAddrP1
    ∧ (∀ p, 2 ≤ p → p ≤ 5 → effAddr d p >>> 8 = d.rxAddrP1 >>> 8)
    ∧ (effAddr d 2).setWidth 8 = d.rxAddrP2 ∧ (effAddr d 3).setWidth 8 = d.rxAddrP3
    ∧ (effAddr d 4).setWidth 8 = d.rxAddrP4 ∧ (effAddr d 5).setWidth 8 = d.rxAddrP5
    ∧ (∀ p a, 2 ≤ p → p ≤ 5 → effAddr { d with rxAddrP1 := a } p >>> 8 = a >>> 8)

/-! ## The radio core -/

/-- No radio-core step runs while CSN is 0 or the device is powered down: the air's move changes nothing but the schedule
(R131, R136; decision D7). That a move of the air which cannot run is a step that changes nothing is assumption 6, and that with dynamic
payload on as well these two tests come before the refusal of R141 is assumption 7. -/
def Obligations.RadioStepsNeedCsnHighAndPower : Prop :=
  ∀ (s : State) (m : Move) (rest : List Move), Structural s.par → s.sched = m :: rest →
    (m = .txStart ∨ (∃ b, m = .txComplete b) ∨ ∃ x p k, m = .rxDeliver x p k) →
    (s.csn = false ∨ s.dev.config.getLsbD 1 = false) → step s = .next { s with sched := rest }

/-- While FEATURE or DYNPD is non-zero and not gated off, every radio-core step is refused (R141; decision D50). -/
def Obligations.DynamicPayloadStepsRefused : Prop :=
  ∀ (s : State) (m : Move) (rest : List Move), Structural s.par → s.sched = m :: rest →
    (m = .txStart ∨ (∃ b, m = .txComplete b) ∨ ∃ x p k, m = .rxDeliver x p k) →
    s.csn = true → s.dev.config.getLsbD 1 = true → (s.dev.feature ≠ 0#8 ∨ s.dev.dynpd ≠ 0#8) →
    (s.par.chipNeedsActivate = false ∨ s.dev.featuresActive = true) → step s = .refused .dynamicPayload

/-- TX start (R133; decisions D25 and D51): with dynamic payload off it puts the head of the TX FIFO on the air exactly when all its
conditions hold, sets no flag and changes nothing else; otherwise nothing happens. -/
def Obligations.TxStartOnlyWhenEnabled : Prop :=
  ∀ (s : State) (rest : List Move), Structural s.par → s.sched = .txStart :: rest → dynamicPayloadOn s.par s.dev = false →
    ((s.csn = true ∧ s.dev.config.getLsbD 1 = true ∧ s.dev.config.getLsbD 0 = false ∧ s.ce = true ∧ 1 ≤ s.dev.txq.length
        ∧ s.dev.maxRT = false ∧ s.dev.txActive = false) →
      step s = .next { s with sched := rest, dev := { s.dev with txActive := true } }) ∧
    (¬(s.csn = true ∧ s.dev.config.getLsbD 1 = true ∧ s.dev.config.getLsbD 0 = false ∧ s.ce = true ∧ 1 ≤ s.dev.txq.length
        ∧ s.dev.maxRT = false ∧ s.dev.txActive = false) →
      step s = .next { s with sched := rest })

/-- TX completion (R134; decisions D25 and D51): without an acknowledgement awaited it is Sent; else it is Acked when the air
chooses so and RX_ADDR_P0 equals TX_ADDR on the low `aw` bytes, `aw` being SETUP_AW.AW + 2 (R24), and MaxRt otherwise. Sent and Acked
pop the head and set TX_DS; MaxRt sets MAX_RT and keeps the head. With no transmission in progress the move changes nothing
(assumption 6). -/
def Obligations.TxCompletionOutcomes : Prop :=
  ∀ (s : State) (acked : Bool) (rest : List Move), Structural s.par → s.sched = .txComplete acked :: rest →
    dynamicPayloadOn s.par s.dev = false →
    let aw := s.dev.setupAw.toNat % 4 + 2
    let sent := s.dev.enAA.getLsbD 0 = false ∨ (acked = true ∧
        s.dev.rxAddrP0.toNat % 2 ^ (8 * aw) = s.dev.txAddr.toNat % 2 ^ (8 * aw))
    (s.csn = true → s.dev.config.getLsbD 1 = true → s.dev.txActive = true →
      (sent → step s = .next { s with sched := rest, dev := { s.dev with txq := s.dev.txq.tail, txDS := true, txActive := false } })
      ∧ (¬ sent → step s = .next { s with sched := rest, dev := { s.dev with maxRT := true, txActive := false } }))
    ∧ (s.dev.txActive = false → step s = .next { s with sched := rest })

/-- RX delivery (R138 to R140; decisions D26 and D52), with dynamic payload off. While Listening, that is with PWR_UP, PRIM_RX and CE all 1
(R40), a packet is filed only under a pipe that is enabled, whose non-zero width is the packet's length and whose address equals the
packet's on the low `aw` bytes, `aw` being SETUP_AW.AW + 2 (R24, R137); with room every such pipe can be the air's choice; without room or
without such a pipe nothing changes. In every other state, with CE 0, in PTX mode or powered down, nothing changes (R132, R138; that the
move is then a step that changes nothing is assumption 6). -/
def Obligations.RxDeliveryFilesUnderAMatchingPipe : Prop :=
  ∀ (s : State) (x : Addr) (payload : List Byte) (rest : List Move), Structural s.par →
    dynamicPayloadOn s.par s.dev = false → 1 ≤ payload.length → payload.length ≤ s.par.maxPayload →
    let aw := s.dev.setupAw.toNat % 4 + 2
    let listening := s.dev.config.getLsbD 1 = true ∧ s.dev.config.getLsbD 0 = true ∧ s.ce = true
    let open_ := fun p : Nat => p < s.par.numPipes ∧ s.dev.enRxaddr.getLsbD p = true ∧ rxWidth s.dev p ≠ 0
      ∧ rxWidth s.dev p = payload.length ∧ (effAddr s.dev p).toNat % 2 ^ (8 * aw) = x.toNat % 2 ^ (8 * aw)
    let filed := fun p : Nat =>
      { s with sched := rest, dev := { s.dev with
          rxq := s.dev.rxq ++ [{ pipe := BitVec.ofNat 3 p, payload := payload }], rxDR := true } }
    (s.csn = true → listening →
      (∀ pick, (∃ p, open_ p) → s.dev.rxq.length < s.par.rxFifoDepth →
        ∃ p, open_ p ∧ step { s with sched := .rxDeliver x payload pick :: rest } = .next (filed p))
      ∧ (∀ pick, (¬(∃ p, open_ p) ∨ s.par.rxFifoDepth ≤ s.dev.rxq.length) →
        step { s with sched := .rxDeliver x payload pick :: rest } = .next { s with sched := rest })
      ∧ (∀ p, open_ p → s.dev.rxq.length < s.par.rxFifoDepth →
        ∃ pick, step { s with sched := .rxDeliver x payload pick :: rest } = .next (filed p)))
    ∧ ∀ pick, ¬ listening → step { s with sched := .rxDeliver x payload pick :: rest } = .next { s with sched := rest }

/-- The radio core writes only the STATUS flags, the FIFOs and `tx_active`; registers, lines, controller, clock and trace stay
(R65, R143). -/
def Obligations.RadioStepsTouchOnlyFlagsAndFifos : Prop :=
  ∀ (s t : State) (m : Move) (rest : List Move), s.sched = m :: rest →
    (m = .txStart ∨ (∃ b, m = .txComplete b) ∨ ∃ x p k, m = .rxDeliver x p k) →
    step s = .next t → SameButRadio s t ∧ t.sched = rest

/-- Of the wire commands only a CONFIG write changes the transceiver state, but for FLUSH_TX, which takes Transmitting to
StandbyConfiguring (R130; decision D24). -/
def Obligations.WireCommandsThatChangeTheMode : Prop :=
  ∀ (i : Instr) (s t : State), exec i s = .next t → xcvrState t ≠ xcvrState s →
    (∃ a d, i = .wRegister a d ∧ s.par.regAt a = some .config)
    ∨ ((∃ d, i = .flushTx d) ∧ xcvrState s = .transmitting ∧ xcvrState t = .standbyConfiguring)

/-- The transceiver state a CONFIG write selects (R130; decision D24): PowerDown with PWR_UP = 0; with PWR_UP = 1 and PRIM_RX = 1
Listening or StandbyConfiguring as CE is 1 or 0; with PWR_UP = 1 and PRIM_RX = 0 it stays Transmitting if it was, else
StandbyConfiguring. -/
def Obligations.ConfigWriteSelectsTheMode : Prop :=
  ∀ (v : Byte) (s : State), Structural s.par → Ready s → v.getLsbD 7 = false → legalActivity s.par s.dev = true →
    ∃ t, exec (.wRegister 0x00#5 [v]) s = .next t ∧
      (v.getLsbD 1 = false → xcvrState t = .powerDown) ∧
      (v.getLsbD 1 = true → v.getLsbD 0 = true → s.ce = true → xcvrState t = .listening) ∧
      (v.getLsbD 1 = true → v.getLsbD 0 = true → s.ce = false → xcvrState t = .standbyConfiguring) ∧
      (v.getLsbD 1 = true → v.getLsbD 0 = false → xcvrState s = .transmitting → xcvrState t = .transmitting) ∧
      (v.getLsbD 1 = true → v.getLsbD 0 = false → xcvrState s ≠ .transmitting → xcvrState t = .standbyConfiguring)

/-! ## The controller and the host operations -/

/-- A rejected argument ends the call with InvalidArgument and no other effect: no frame, no line change, no `cfg` change
(R148, R152; decisions D14, D48, D55 and D58). -/
def Obligations.RejectedCallsHaveNoEffect : Prop :=
  ∀ (s : State) (op : HostOp), Structural s.par →
    ((∃ a n, op = .readRegisterN a n ∧ (n = 0 ∨ 32 < n))
      ∨ (∃ a bs, op = .writeRegisterN a bs ∧ (bs = [] ∨ 32 < bs.length))
      ∨ (∃ a, op = .openWritingPipe a ∧ 2 ^ 40 ≤ a)
      ∨ (∃ p a, op = .openReadingPipe p a ∧ (5 < p ∨ 2 ^ 40 ≤ a))
      ∨ op = .transmit []
      ∨ (∃ p n, op = .transmit p ∧ s.payloadSize = some n ∧ n < p.length ∧ s.par.overlength = .reject)
      ∨ op = .readPayload 0
      ∨ (∃ k n, op = .readPayload k ∧ s.payloadSize = some n ∧ n < k ∧ s.par.overlength = .reject)) →
    startOp op s = .next { s with results := s.results ++ [.invalidArgument], op := none, code := [] }

/-- A call that reads the payload size while it is unset is refused, after its range checks and before its over-length check (R41,
R152; decisions D16 and D55); and `initialize` is refused when the size it asks for, its argument or else the default of R7, is 0, whatever
the payload size holds (R113). -/
def Obligations.UnsetPayloadSizeRefused : Prop :=
  (∀ s : State, Structural s.par → s.payloadSize = none →
    (∀ a, a < 2 ^ 40 → startOp (.openWritingPipe a) s = .refused .payloadSizeUnset)
    ∧ (∀ p a, p ≤ 5 → a < 2 ^ 40 → startOp (.openReadingPipe p a) s = .refused .payloadSizeUnset)
    ∧ (∀ b bs, startOp (.transmit (b :: bs)) s = .refused .payloadSizeUnset)
    ∧ (∀ k, startOp (.readPayload (k + 1)) s = .refused .payloadSizeUnset))
  ∧ ∀ (s : State) (req : Option Nat), req.getD s.par.payloadSizeReq = 0 →
    startOp (.initializeRadio req) s = .refused .zeroPayloadSize

/-- The register access calls mask the address to 5 bits before the OR, so they reach register `addr & 0x1F` (R70, R99 to R102; decision
D4). A write call, from the host's call to its result, does to the device what W_REGISTER of that register does, and is refused as it
is; a read call returns what R_REGISTER of it returns and changes nothing in the device. They hold for every schedule of clock moves and
of controller moves without a failure; after the schedule the controller moves by default (assumption 6). Whatever the radio core and the air
do meanwhile (20_memory.md R63), a write that completes leaves every register but STATUS and FIFO_STATUS as W_REGISTER does, and a read of a
register but those two returns the same bytes. -/
def Obligations.ByteRegisterCallsMaskTheAddress : Prop :=
  (∀ (s : State) (addr v : Byte) (p : List HostOp), Calls s (.writeRegister addr v) p → s.csn = true → Ready s →
    (∀ e, exec (.wRegister (addr.setWidth 5) [v]) s = .next e → Returns s p (.ok .done) fun t =>
      t.dev = e.dev ∧ t.csn = true ∧ SameCeAndCfg s t
      ∧ t.trace = s.trace ++ [.csn false, .xfer [0x20#8 ||| (addr &&& 0x1F#8), v] e.resp, .csn true])
    ∧ ∀ r, exec (.wRegister (addr.setWidth 5) [v]) s = .refused r → ∃ k, run k s = .refused r)
  ∧ (∀ (s : State) (addr : Byte) (bs : List Byte) (p : List HostOp), Calls s (.writeRegisterN addr bs) p → s.csn = true → Ready s →
    1 ≤ bs.length → bs.length ≤ 32 →
    (∀ e, exec (.wRegister (addr.setWidth 5) bs) s = .next e → Returns s p (.ok .done) fun t =>
      t.dev = e.dev ∧ t.csn = true ∧ SameCeAndCfg s t
      ∧ t.trace = s.trace ++ [.csn false, .xfer [0x20#8 ||| (addr &&& 0x1F#8)] (e.resp.take 1), .xfer bs (e.resp.drop 1), .csn true])
    ∧ ∀ r, exec (.wRegister (addr.setWidth 5) bs) s = .refused r → ∃ k, run k s = .refused r)
  ∧ (∀ (s : State) (addr : Byte) (r : Reg) (p : List HostOp), Calls s (.readRegister addr) p → s.csn = true → Ready s →
    s.par.regAt (addr.setWidth 5) = some r →
    Returns s p (.ok (.byte (regbyteOfRule s r 0))) fun t =>
      t.dev = { s.dev with mosi := [], miso := [] } ∧ t.csn = true ∧ SameCeAndCfg s t
      ∧ t.trace = s.trace ++ [.csn false, .xfer [addr &&& 0x1F#8] [statusByte s.par s.dev],
          .xfer [s.par.dummyByte] [regbyteOfRule s r 0], .csn true])
  ∧ (∀ (s : State) (addr : Byte) (n : Nat) (r : Reg) (p : List HostOp), Calls s (.readRegisterN addr n) p → s.csn = true → Ready s →
    1 ≤ n → n ≤ 32 → s.par.regAt (addr.setWidth 5) = some r →
    Returns s p (.ok (.bytes ((List.range n).map (regbyteOfRule s r)))) fun t =>
      t.dev = { s.dev with mosi := [], miso := [] } ∧ t.csn = true ∧ SameCeAndCfg s t
      ∧ t.trace = s.trace ++ [.csn false, .xfer [addr &&& 0x1F#8] [statusByte s.par s.dev],
          .xfer (List.replicate n s.par.dummyByte) ((List.range n).map (regbyteOfRule s r)), .csn true])
  ∧ (∀ (s : State) (addr : Byte) (n : Nat) (op : HostOp) (p : List HostOp), Calls s op p → s.csn = true → Ready s →
    (op = .readRegister addr ∨ (op = .readRegisterN addr n ∧ 1 ≤ n ∧ n ≤ 32)) → s.par.regAt (addr.setWidth 5) = none →
    ∃ k, run k s = .refused (.undefinedRegister (addr.setWidth 5)))
  ∧ (∀ (s e : State) (addr v : Byte) (bs : List Byte) (op : HostOp) (p : List HostOp), CallsOnAir s op p →
    (op = .writeRegister addr v ∧ bs = [v]) ∨ (op = .writeRegisterN addr bs ∧ 1 ≤ bs.length ∧ bs.length ≤ 32) →
    exec (.wRegister (addr.setWidth 5) bs) s = .next e → dynamicPayloadOn e.par e.dev = false →
    Returns s p (.ok .done) fun t => SameRegistersOnAir [] s.par e.dev t.dev ∧ t.csn = true ∧ SameCeAndCfg s t)
  ∧ ∀ (s : State) (addr : Byte) (n : Nat) (r : Reg) (p : List HostOp), s.par.regAt (addr.setWidth 5) = some r → r ≠ .status →
    r ≠ .fifoStatus →
    (CallsOnAir s (.readRegister addr) p → Returns s p (.ok (.byte (regbyteOfRule s r 0))) fun t =>
      SameRegistersOnAir [] s.par s.dev t.dev ∧ t.csn = true ∧ SameCeAndCfg s t)
    ∧ (CallsOnAir s (.readRegisterN addr n) p → 1 ≤ n → n ≤ 32 →
      Returns s p (.ok (.bytes ((List.range n).map (regbyteOfRule s r)))) fun t =>
        SameRegistersOnAir [] s.par s.dev t.dev ∧ t.csn = true ∧ SameCeAndCfg s t)

/-- `openWritingPipe(A)` leaves TX_ADDR and RX_ADDR_P0 equal to A and RX_PW_P0 equal to the payload size, keeps the pipe-0 cache and
EN_RXADDR, and returns Ok (R116, R128; decision D47). With a silent air the rest of the device is as before; whatever the radio core and the
air do meanwhile (20_memory.md R63), the result, the registers, CE and `cfg` are the same. No primitive fails in either schedule. -/
def Obligations.OpenWritingPipeSetsBothAddresses : Prop :=
  (∀ (s : State) (a n : Nat) (p : List HostOp), Calls s (.openWritingPipe a) p → a < 2 ^ 40 → s.payloadSize = some n →
    1 ≤ n → n ≤ 32 → s.csn = true → Ready s →
    Returns s p (.ok .done) fun t =>
      t.dev = { s.dev with
        txAddr := BitVec.ofNat 40 a, rxAddrP0 := BitVec.ofNat 40 a, rxPwP0 := BitVec.ofNat 8 n, mosi := [], miso := [] }
      ∧ SameCeAndCfg s t ∧ t.csn = true)
  ∧ ∀ (s : State) (a n : Nat) (p : List HostOp), CallsOnAir s (.openWritingPipe a) p → a < 2 ^ 40 → s.payloadSize = some n →
    1 ≤ n → n ≤ 32 →
    Returns s p (.ok .done) fun t =>
      t.dev.txAddr = BitVec.ofNat 40 a ∧ t.dev.rxAddrP0 = BitVec.ofNat 40 a ∧ t.dev.rxPwP0 = BitVec.ofNat 8 n
      ∧ SameRegistersOnAir [.txAddr, .rxAddrP0, .rxPwP0] s.par s.dev t.dev ∧ SameCeAndCfg s t ∧ t.csn = true

/-- `openReadingPipe(i, A)` caches A for pipe 0 only, programs all 5 bytes for pipes 0 and 1 and the low byte for pipes 2 to 5, sets
the pipe's width to the payload size and its enable bit, keeps every other register, and returns Ok (R117, R118; decisions D47 and D55). With
a silent air the flags and the FIFOs are as before; whatever the radio core and the air do meanwhile (20_memory.md R63), the rest is the
same. No primitive fails in either schedule. -/
def Obligations.OpenReadingPipeProgramsThePipe : Prop :=
  (∀ (s : State) (i a n : Nat) (p : List HostOp), Calls s (.openReadingPipe i a) p → i ≤ 5 → a < 2 ^ 40 →
    s.payloadSize = some n → 1 ≤ n → n ≤ 32 → s.csn = true → Ready s → s.dev.enRxaddr &&& 0xC0#8 = 0#8 →
    Returns s p (.ok .done) fun t =>
      t.pipe0Cache = (if i = 0 then some (BitVec.ofNat 40 a) else s.pipe0Cache)
      ∧ (i ≤ 1 → effAddr t.dev i = BitVec.ofNat 40 a)
      ∧ (2 ≤ i → (effAddr t.dev i).setWidth 8 = BitVec.ofNat 8 a)
      ∧ rxWidth t.dev i = n ∧ t.dev.enRxaddr = s.dev.enRxaddr ||| (1#8 <<< i)
      ∧ SameRegistersBut (.enRxaddr :: pipeRegs i) s.par s.dev t.dev ∧ SameFlagsAndFifos s.dev t.dev
      ∧ t.dev.txActive = s.dev.txActive ∧ t.csn = true ∧ t.ce = s.ce ∧ t.payloadSize = s.payloadSize)
  ∧ ∀ (s : State) (i a n : Nat) (p : List HostOp), CallsOnAir s (.openReadingPipe i a) p → i ≤ 5 → a < 2 ^ 40 →
    s.payloadSize = some n → 1 ≤ n → n ≤ 32 → s.dev.enRxaddr &&& 0xC0#8 = 0#8 →
    Returns s p (.ok .done) fun t =>
      t.pipe0Cache = (if i = 0 then some (BitVec.ofNat 40 a) else s.pipe0Cache)
      ∧ (i ≤ 1 → effAddr t.dev i = BitVec.ofNat 40 a)
      ∧ (2 ≤ i → (effAddr t.dev i).setWidth 8 = BitVec.ofNat 8 a)
      ∧ rxWidth t.dev i = n ∧ t.dev.enRxaddr = s.dev.enRxaddr ||| (1#8 <<< i)
      ∧ SameRegistersOnAir (.enRxaddr :: pipeRegs i) s.par s.dev t.dev
      ∧ t.csn = true ∧ t.ce = s.ce ∧ t.payloadSize = s.payloadSize

/-- `startListening()` with a cached pipe-0 address restores RX_ADDR_P0 to it, flushes both FIFOs and ends Listening; without one it
keeps RX_ADDR_P0; every other register stays (R124, R128; decisions D17 and D21). With a silent air both FIFOs end empty and the flags stay;
whatever the radio core and the air do meanwhile (20_memory.md R63), the result, the registers, the lines and `cfg` are the same and the TX
FIFO ends empty, and a packet can come in during the settle wait. No primitive fails in either schedule. -/
def Obligations.StartListeningRestoresPipeZero : Prop :=
  (∀ (s : State) (p : List HostOp), Calls s .startListening p → s.csn = true → Ready s → s.dev.config.getLsbD 7 = false →
    Returns s p (.ok .done) fun t =>
      t.dev = { s.dev with
        config := s.dev.config ||| 0x03#8, rxAddrP0 := s.pipe0Cache.getD s.dev.rxAddrP0, txq := [], rxq := [], txActive := false
        mosi := [], miso := [] }
      ∧ t.pipe0Cache = s.pipe0Cache ∧ t.payloadSize = s.payloadSize ∧ t.ce = true ∧ t.csn = true
      ∧ xcvrState t = .listening ∧ s.clock + s.par.listenSettleMs ≤ t.clock)
  ∧ ∀ (s : State) (p : List HostOp), CallsOnAir s .startListening p → s.dev.config.getLsbD 7 = false →
    Returns s p (.ok .done) fun t =>
      t.dev.config = s.dev.config ||| 0x03#8 ∧ t.dev.rxAddrP0 = s.pipe0Cache.getD s.dev.rxAddrP0
      ∧ SameRegistersOnAir [.config, .rxAddrP0] s.par s.dev t.dev ∧ t.dev.txq = [] ∧ t.dev.txActive = false
      ∧ t.pipe0Cache = s.pipe0Cache ∧ t.payloadSize = s.payloadSize ∧ t.ce = true ∧ t.csn = true
      ∧ xcvrState t = .listening ∧ s.clock + s.par.listenSettleMs ≤ t.clock

/-- `stopListening()` lowers CE, flushes both FIFOs, leaves CONFIG and the flags alone and returns Ok (44_transfer_engine.md R127):
with the device powered up in PRX mode the transceiver ends in StandbyConfiguring. With a silent air the rest of the device is as before;
whatever the radio core and the air do meanwhile (20_memory.md R63), the result, the registers, CE, `cfg` and that state are the same and the
TX FIFO ends empty. No primitive fails in either schedule. -/
def Obligations.StopListeningLowersCeAndFlushes : Prop :=
  (∀ (s : State) (p : List HostOp), Calls s .stopListening p → s.csn = true → Ready s →
    Returns s p (.ok .done) fun t =>
      t.ce = false ∧ t.csn = true ∧ t.payloadSize = s.payloadSize ∧ t.pipe0Cache = s.pipe0Cache
      ∧ t.dev = { s.dev with txq := [], rxq := [], txActive := false, mosi := [], miso := [] }
      ∧ (s.dev.config.getLsbD 1 = true → s.dev.config.getLsbD 0 = true → xcvrState t = .standbyConfiguring))
  ∧ ∀ (s : State) (p : List HostOp), CallsOnAir s .stopListening p →
    Returns s p (.ok .done) fun t =>
      t.ce = false ∧ t.csn = true ∧ t.payloadSize = s.payloadSize ∧ t.pipe0Cache = s.pipe0Cache
      ∧ SameRegistersOnAir [] s.par s.dev t.dev ∧ t.dev.txq = [] ∧ t.dev.txActive = false
      ∧ (s.dev.config.getLsbD 1 = true → s.dev.config.getLsbD 0 = true → xcvrState t = .standbyConfiguring)

/-- `available()` reports RX_DR and RX_P_NO of one STATUS read; it clears RX_DR if it read it as set, TX_DS only if it read both as set,
and never a flag it read as 0 (R125; decision D22). With a silent air the read is of the state at the call and the rest of the device is as
before. Whatever the radio core and the air do meanwhile (20_memory.md R63), a flag set at the call is reported, the pipe is that of the
payload that was at the head at the call, MAX_RT is never cleared, TX_DS is not when RX_DR was read as 0, no payload received is lost, and the
registers, CE and `cfg` stay. No primitive fails in either schedule. -/
def Obligations.AvailableClearsOnlyWhatItRead : Prop :=
  (∀ (s : State) (p : List HostOp), Calls s .available p → s.csn = true → Ready s →
    Returns s p (.ok (.availability s.dev.rxDR (rxPipeNo s.dev))) fun t =>
      t.dev = { s.dev with rxDR := false, txDS := s.dev.txDS && !s.dev.rxDR, mosi := [], miso := [] }
      ∧ t.csn = true ∧ SameCeAndCfg s t)
  ∧ ∀ (s : State) (p : List HostOp), CallsOnAir s .available p →
    ∃ (b : Bool) (q : PipeNo), (s.dev.rxDR = true → b = true) ∧ (∀ e es, s.dev.rxq = e :: es → q = e.pipe) ∧
      Returns s p (.ok (.availability b q)) fun t =>
        (s.dev.maxRT = true → t.dev.maxRT = true) ∧ (b = false → s.dev.txDS = true → t.dev.txDS = true)
        ∧ s.dev.rxq <+: t.dev.rxq ∧ SameRegistersOnAir [] s.par s.dev t.dev ∧ SameCeAndCfg s t ∧ t.csn = true

/-- `readPayload(len)` within the payload size, or above it under Truncate, which cuts it to the payload size, returns the head payload's
first bytes (draws after its end) with the count, or (false, [], 0) on an empty RX FIFO, and flushes the RX FIFO either way (R126;
decisions D5, D14 and D23). With a silent air the rest of the device is as before. Whatever the radio core and the air do meanwhile
(20_memory.md R63), a payload at the head at the call is the one returned, no flag is cleared, and the registers, CE and `cfg` stay. No
primitive fails in either schedule. -/
def Obligations.ReadPayloadReturnsHeadAndFlushes : Prop :=
  (∀ (s : State) (len n : Nat) (p : List HostOp), Calls s (.readPayload len) p → 1 ≤ len → s.payloadSize = some n →
    (len ≤ n ∨ s.par.overlength = .truncate) → s.csn = true → Ready s → (∀ e ∈ s.dev.rxq, e.pipe ≠ 0b111#3) →
    let m := min len n
    Returns s p
      (match s.dev.rxq with
        | [] => .ok (.payload false [] 0)
        | e :: _ => .ok (.payload true (e.payload.take m ++ drawn s (e.payload.length + 1) (m - e.payload.length)) m))
      fun t => t.dev = { s.dev with rxq := [], mosi := [], miso := [] } ∧ t.csn = true ∧ SameCeAndCfg s t)
  ∧ ∀ (s : State) (len n : Nat) (p : List HostOp) (e : RxEntry) (es : List RxEntry), CallsOnAir s (.readPayload len) p → 1 ≤ len →
    s.payloadSize = some n → (len ≤ n ∨ s.par.overlength = .truncate) → s.dev.rxq = e :: es → e.pipe ≠ 0b111#3 →
    let m := min len n
    Returns s p
      (.ok (.payload true (e.payload.take m ++ drawn s (e.payload.length + 1) (m - e.payload.length)) m))
      fun t => (s.dev.rxDR = true → t.dev.rxDR = true) ∧ (s.dev.txDS = true → t.dev.txDS = true) ∧ (s.dev.maxRT = true → t.dev.maxRT = true)
        ∧ SameRegistersOnAir [] s.par s.dev t.dev ∧ SameCeAndCfg s t ∧ t.csn = true

/-- `transmit` reports the flag it saw (R120 to R123; decisions D13, D15 and D19). (1) From the poll that read TX_DS or MAX_RT, with a silent
air, it returns Ok(delivered) for TX_DS, Ok(not delivered) for MAX_RT alone, clears the flags, empties the TX FIFO, powers the device down
and keeps the rest. (2) The whole call, whatever the radio core and the air do meanwhile, ends in Ok(delivered), Ok(not delivered) or
Timeout, the first only if no acknowledgement is awaited or one can arrive, the second only if one is awaited, with the payload sent, the
TX FIFO empty, the device powered down and every register but CONFIG kept. (3) For each choice of the air there is a schedule with a TX
start and a completion under which the call returns Ok(delivered) or Ok(not delivered) as R134 has it. No primitive fails in any of
them; the default moves after a schedule are assumption 6. -/
def Obligations.TransmitReportsTheFlagItSaw : Prop :=
  (∀ s : State, Structural s.par → (∀ m ∈ s.sched, QuietMove s.par m) → s.code = [.pollFlags] → s.csn = true → Ready s →
    s.dev.config.getLsbD 7 = false →
    ((insByte s.loc.ins 1 0).getLsbD 5 = true ∨ (insByte s.loc.ins 1 0).getLsbD 4 = true) →
    Returns s s.program (if (insByte s.loc.ins 1 0).getLsbD 5 then .ok .delivered else .ok .notDelivered) fun t =>
      t.dev = { s.dev with
        config := s.dev.config &&& 0xFD#8, rxDR := false, txDS := false, maxRT := false, txq := [], txActive := false
        mosi := [], miso := [] }
      ∧ t.csn = true ∧ SameCeAndCfg s t)
  ∧ (∀ (s : State) (payload : List Byte) (n : Nat) (p : List HostOp), Transmits FailureFreeMove s payload n p →
    ∃ res, Returns s p res (fun t =>
        t.dev.config = s.dev.config &&& 0xFC#8 ∧ t.dev.txq = [] ∧ t.dev.txActive = false
        ∧ SameRegistersBut [.config, .status, .fifoStatus] s.par s.dev t.dev ∧ t.dev.featuresActive = s.dev.featuresActive
        ∧ t.ce = false ∧ t.csn = true ∧ t.payloadSize = s.payloadSize ∧ t.pipe0Cache = s.pipe0Cache ∧ xcvrState t = .powerDown
        ∧ Sent (paddedPayload payload n) t)
      ∧ ((res = .ok .delivered ∧ MayBeSent s.dev) ∨ (res = .ok .notDelivered ∧ s.dev.enAA.getLsbD 0 = true) ∨ res = .timeout))
  ∧ ∀ (s : State) (payload : List Byte) (n : Nat) (p : List HostOp) (acked : Bool), Transmits QuietMove s payload n p →
    1 ≤ s.par.txFifoDepth → s.sched = [] →
    let sent := s.dev.enAA.getLsbD 0 = false ∨ (acked = true ∧ LowBytesAgree s.dev s.dev.rxAddrP0 s.dev.txAddr)
    ∃ l, (∀ m ∈ l, FailureFreeMove s.par m) ∧ ∃ res,
      Returns { s with sched := l } p res (fun t =>
        t.dev = { s.dev with
          config := s.dev.config &&& 0xFC#8, rxDR := false, txDS := false, maxRT := false, txq := [], txActive := false
          mosi := [], miso := [] }
        ∧ t.ce = false ∧ t.csn = true ∧ Sent (paddedPayload payload n) t)
      ∧ (sent → res = .ok .delivered) ∧ (¬ sent → res = .ok .notDelivered)

/-- The bounded poll (R120, R122, R149, R164; decisions D14, D15, D19 and D21): with a radio that sets no flag, however it starts
transmissions and however the clock moves, `transmit` sends the payload, cut to the payload size when it is longer and the policy is
Truncate, and padded to it, and returns Timeout after finitely many steps, no earlier than the CE pulse and the deadline; it leaves the
device powered down with an empty TX FIFO and the flags clear, and keeps every other register. No primitive fails; the default moves
after the schedule are assumption 6. -/
def Obligations.TransmitToASilentRadioTimesOut : Prop :=
  ∀ (s : State) (payload : List Byte) (n : Nat) (p : List HostOp), Transmits FlaglessMove s payload n p →
    Returns s p .timeout fun t =>
      t.dev = { s.dev with
        config := s.dev.config &&& 0xFC#8, rxDR := false, txDS := false, maxRT := false, txq := [], txActive := false
        mosi := [], miso := [] }
      ∧ t.ce = false ∧ t.csn = true ∧ t.payloadSize = s.payloadSize ∧ t.pipe0Cache = s.pipe0Cache ∧ xcvrState t = .powerDown
      ∧ s.clock + s.par.cePulseMs + s.par.txTimeoutMs ≤ t.clock ∧ Sent (paddedPayload payload n) t

/-- End state of a successful `initialize` (R113, R115; decisions D16 and D31 to D36) with any legal variant values, from any device state,
under every schedule in which no primitive fails, whatever the radio core does (it may not run into the refusal of R141 before the
first CONFIG frame powers the device down): every register it programs, empty FIFOs, cleared flags, `features_active` negated on a chip
that needs ACTIVATE, CSN 1 and CE 0, PowerDown, payload size min(n, 32), and the pipe-0 cache kept. A frame that a transport failure left
open is closed by step 1, and `e` is what that leaves. The default moves after the schedule are assumption 6. -/
def Obligations.InitializeEndState : Prop :=
  ∀ (s e : State) (req : Option Nat) (p : List HostOp), CallsUnder FailureFreeMove s (.initializeRadio req) p →
    1 ≤ req.getD s.par.payloadSizeReq → InitValuesLegal s.par → 1 ≤ s.par.txFifoDepth → busClose s = .next e →
    (e.dev.config.getLsbD 1 = true → dynamicPayloadOn s.par e.dev = false) →
    let kept := s.par.chipNeedsActivate && e.dev.featuresActive
    Returns s p (.ok .done) fun t =>
      t.payloadSize = some (min (req.getD s.par.payloadSizeReq) 32) ∧ t.pipe0Cache = s.pipe0Cache ∧ t.csn = true ∧ t.ce = false
      ∧ xcvrState t = .powerDown ∧ statusByte t.par t.dev = 0x0E#8
      ∧ regReadable t.par t.dev .dynpd = [0x00#8] ∧ regReadable t.par t.dev .feature = [0x00#8]
      ∧ dynamicPayloadOn t.par t.dev = false ∧ s.clock + s.par.porMs ≤ t.clock
      ∧ t.dev = {
          config := s.par.configInit, enAA := s.par.variantEnAA, enRxaddr := 0x03#8, setupAw := s.par.setupAwInit
          setupRetr := s.par.variantSetupRetr, rfCh := s.par.variantRfCh, rfSetup := s.par.rfSetupInit
          rxDR := false, txDS := false, maxRT := false
          rxAddrP0 := 0xE7E7E7E7E7#40, rxAddrP1 := 0xC2C2C2C2C2#40, rxAddrP2 := 0xC3#8, rxAddrP3 := 0xC4#8, rxAddrP4 := 0xC5#8
          rxAddrP5 := 0xC6#8, txAddr := 0xE7E7E7E7E7#40, rxPwP0 := 0x00#8, rxPwP1 := 0x00#8, rxPwP2 := 0x00#8, rxPwP3 := 0x00#8
          rxPwP4 := 0x00#8, rxPwP5 := 0x00#8
          dynpd := if kept then e.dev.dynpd else 0x00#8, feature := if kept then e.dev.feature else 0x00#8
          txq := [], rxq := [], txActive := false
          featuresActive := if s.par.chipNeedsActivate then !e.dev.featuresActive else e.dev.featuresActive
          mosi := [], miso := [] }

/-- `dumpRegisters` returns the registers it names, as R_REGISTER reads them, from 21 R_REGISTER frames, and changes no register, flag,
FIFO, line or `cfg` variable (R143, R144; decision D41). Whatever the radio core and the air do meanwhile (20_memory.md R63), it returns the
same record, since they change none of those registers. No primitive fails in either schedule. -/
def Obligations.DumpReadsTheRegistersAndChangesNothing : Prop :=
  (∀ s t : State, Structural s.par → startOp .dumpRegisters s = .next t →
    (t.code.filter fun a => match a with | .frame _ => true | _ => false).length = 21
    ∧ ∀ a ∈ t.code,
      (∃ outs i d, a = .frame outs ∧ decode outs.flatten = some (.rRegister i d) ∧ (s.par.regAt i).isSome = true)
      ∨ a = .keep ∨ a = .ret .dump)
  ∧ ∀ (s : State) (p : List HostOp),
    (Calls s .dumpRegisters p → s.csn = true → Ready s →
      Returns s p (dumpOf s) fun t => t.dev = { s.dev with mosi := [], miso := [] } ∧ t.csn = true ∧ SameCeAndCfg s t)
    ∧ (CallsOnAir s .dumpRegisters p →
      Returns s p (dumpOf s) fun t => SameRegistersOnAir [] s.par s.dev t.dev ∧ t.csn = true ∧ SameCeAndCfg s t)

/-- A transport failure (R98, R146; decision D12) of a primitive of a frame, of `SetCE`, or of a raw `SetCSN` or `Exchange` line. The step
is refused exactly when the exchange calls of the frame that completed before the failure are, or when the abort's own `SetCSN(1)` fails
too and the drawn CSN falls, which opens a frame, before the power-on reset is over (assumption 15). Otherwise it ends the operation with
TransportError, keeps `cfg`, keeps CE unless the failed primitive was `SetCE`, which leaves it a draw, and leaves the device in a legal
state; every legal device state is possible. What a legal state is, is assumption 9. -/
def Obligations.TransportFailureEndsTheOperation : Prop :=
  ∀ (s : State) (dr : Draw) (rest : List Move) (a : Action) (code : List Action) (k : Nat),
    s.sched = .run dr :: rest → s.code = a :: code → FailsAt s.par dr a k → Inv s →
    let aborted := if dr.abortFails then [] else [BusEvent.csn true]
    (∀ t, step s = .next t →
      t.results = s.results ++ [.transportError] ∧ t.op = none ∧ t.code = [] ∧ t.program = s.program
      ∧ t.payloadSize = s.payloadSize ∧ t.pipe0Cache = s.pipe0Cache
      ∧ t.ce = (match a with | .setCE _ => dr.ce | _ => s.ce)
      ∧ t.csn = (if dr.abortFails then dr.csn else true)
      ∧ t.dev.legal t.par = true
      ∧ (dr.device.legal s.par = true → t.dev = { dr.device with mosi := t.dev.mosi, miso := t.dev.miso })
      ∧ ((∃ v, a = .setCSN v ∨ a = .setCE v) → t.trace = s.trace ++ aborted)
      ∧ (∀ out, a = .exchange out → t.trace = s.trace ++ .xfail out :: aborted))
    ∧ (∀ r, step s = .refused r ↔
      (∃ outs j, a = .frame outs ∧ k = j + 1
        ∧ andThen (busOpen { s with sched := rest, code := code }) (busBytes (outs.take j).flatten) = .refused r)
      ∨ (k = 0 ∧ r = .frameBeforePowerOnReset ∧ s.csn = true ∧ s.clock < s.par.porMs ∧ dr.abortFails = true ∧ dr.csn = false))

/-- A `WaitMs(d)` records the clock when it begins: the controller's move at it puts the wait until `clock + d` in its place and changes
nothing else but the clock. The wait holds the controller until the clock has reached its end, and then leaves a WAIT event
(60_exceptions.md R157): no step, by whichever agent, takes the line off earlier. That it is two steps of the controller is
assumption 8. -/
def Obligations.WaitsEndOnlyWhenTheClockHasReachedThem : Prop :=
  (∀ (s : State) (dr : Draw) (rest : List Move) (d : Nat) (code : List Action), ControllerMoves s dr rest → s.code = .waitMs d :: code →
    step s = .next { s with sched := rest, code := .waitUntil (s.clock + d) d :: code, clock := s.clock + dr.idleMs })
  ∧ ∀ (s t : State) (u d : Nat) (code : List Action), s.code = .waitUntil u d :: code → step s = .next t →
    t.code = s.code ∨ (t.code = code ∧ u ≤ t.clock ∧ t.trace = s.trace ++ [.wait d])

/-! ## The whole machine -/

/-- Every step, by whichever agent and with or without a transport failure, keeps the invariant. After a transport failure (R98) it rests
on what a legal device state and the frame buffer are then: assumption 9. -/
def Obligations.StepKeepsInvariant : Prop := ∀ s t : State, Inv s → step s = .next t → Inv t

/-- The launch state meets the invariant. -/
def Obligations.ResetMeetsInvariant : Prop := Inv State.reset

/-- The launch state (R46; the register values are the family's, decision D3, and the line levels decision D31): every register of R19
that can be read is at its reset value, under its address. OBSERVE_TX and CD read as draws (R30, R87). -/
def Obligations.ResetIsTheLaunchState : Prop :=
  State.reset.par = Config.thisHardware
  ∧ statusByte State.reset.par State.reset.dev = 0x0E#8 ∧ fifoStatusByte State.reset.par State.reset.dev = 0x11#8
  ∧ xcvrState State.reset = .powerDown ∧ State.reset.csn = true ∧ State.reset.ce = false ∧ State.reset.clock = 0
  ∧ State.reset.payloadSize = none ∧ State.reset.pipe0Cache = none ∧ State.reset.op = none ∧ State.reset.code = []
  ∧ State.reset.dev.rxDR = false ∧ State.reset.dev.txDS = false ∧ State.reset.dev.maxRT = false
  ∧ State.reset.dev.txq = [] ∧ State.reset.dev.rxq = [] ∧ State.reset.dev.txActive = false
  ∧ State.reset.dev.featuresActive = false ∧ State.reset.dev.mosi = [] ∧ State.reset.dev.miso = []
  ∧ State.reset.par.regAt 0x08#5 = some .observeTx ∧ State.reset.par.regAt 0x09#5 = some .cd
  ∧ (∀ row ∈ ([(0x00#5, .config, [0x08#8]), (0x01#5, .enAA, [0x3F#8]), (0x02#5, .enRxaddr, [0x03#8]), (0x03#5, .setupAw, [0x03#8]),
        (0x04#5, .setupRetr, [0x03#8]), (0x05#5, .rfCh, [0x02#8]), (0x06#5, .rfSetup, [0x0F#8]), (0x07#5, .status, [0x0E#8]),
        (0x0A#5, .rxAddrP0, [0xE7#8, 0xE7#8, 0xE7#8, 0xE7#8, 0xE7#8]), (0x0B#5, .rxAddrP1, [0xC2#8, 0xC2#8, 0xC2#8, 0xC2#8, 0xC2#8]),
        (0x0C#5, .rxAddrP2, [0xC3#8]), (0x0D#5, .rxAddrP3, [0xC4#8]), (0x0E#5, .rxAddrP4, [0xC5#8]), (0x0F#5, .rxAddrP5, [0xC6#8]),
        (0x10#5, .txAddr, [0xE7#8, 0xE7#8, 0xE7#8, 0xE7#8, 0xE7#8])]
      ++ [(0x11#5, .rxPwP0, [0x00#8]), (0x12#5, .rxPwP1, [0x00#8]), (0x13#5, .rxPwP2, [0x00#8]), (0x14#5, .rxPwP3, [0x00#8]),
        (0x15#5, .rxPwP4, [0x00#8]), (0x16#5, .rxPwP5, [0x00#8]), (0x17#5, .fifoStatus, [0x11#8]), (0x1C#5, .dynpd, [0x00#8]),
        (0x1D#5, .feature, [0x00#8])] : List (RegAddr × Reg × List Byte)),
      State.reset.par.regAt row.1 = some row.2.1 ∧ regReadable State.reset.par State.reset.dev row.2.1 = row.2.2)
  ∧ ∀ a ∈ [0x18#5, 0x19#5, 0x1A#5, 0x1B#5, 0x1E#5, 0x1F#5], State.reset.par.regAt a = none

/-- The clock never goes back and the parameters never change; the trace and the results only grow (R156, R58, R165;
decision D20). -/
def Obligations.ClockTraceAndResultsOnlyGrow : Prop :=
  ∀ s t : State, step s = .next t →
    s.clock ≤ t.clock ∧ t.par = s.par ∧ s.trace <+: t.trace ∧ s.results <+: t.results

/-- `CLOCK_PROGRESS` (R156; decision D20) holds of every infinite run of the model, because a schedule is finite and the controller's
default move takes 1 ms (assumption 6). -/
def Obligations.EveryInfiniteRunMakesClockProgress : Prop := ∀ r : Nat → State, IsRun r → ClockProgress r

/-- One caller (R160; decision D40): an operation is taken from the host's list only when no line of another is left, and the list
changes in no other way. -/
def Obligations.OneHostOperationAtATime : Prop :=
  ∀ s t : State, step s = .next t →
    t.program = s.program ∨ (s.code = [] ∧ ∃ op, s.program = op :: t.program)
end

