-- ==== Sys2Proof/Laws/Encoding.lean ====
section
/-! SUPPORT. Lemmas about the register map, the address bytes and the STATUS byte. -/

namespace Sys2Proof

open Sys2Proof.Safety

/-! ## The register map -/

/-- With the register map of this hardware an address names what it names there. -/
theorem Config.regAt_eq {c : Config} (h : Structural c) (a : RegAddr) : c.regAt a = Config.thisHardware.regAt a := by
  simp only [Config.regAt, h.regAddrMax, h.regMap]; rfl

theorem Config.width_eq {c : Config} (h : Structural c) (r : Reg) : c.width r = widthOfRule r := by
  simp only [Config.width, Config.row, h.regMap]; cases r <;> rfl

theorem Config.access_eq {c : Config} (h : Structural c) (r : Reg) : c.access r = accessOfRule r := by
  simp only [Config.access, Config.row, h.regMap]; cases r <;> rfl

theorem Config.reservedMask_eq {c : Config} (h : Structural c) (r : Reg) : c.reservedMask r = reservedOfRule r := by
  simp only [Config.reservedMask, h.regMap]; cases r <;> rfl

theorem Config.illegal_eq {c : Config} (h : Structural c) (r : Reg) (v : Byte) : c.illegal r v = illegalOfRule r v := by
  cases r <;> simp only [Config.illegal, illegalOfRule]
  rw [h.regMap]; revert v; decide

theorem Config.addrMask_eq {c : Config} (h : Structural c) : c.addrMask = 0x1F#8 := by
  simp [Config.addrMask, h.regAddrBits]

theorem Config.addrLimit_eq {c : Config} (h : Structural c) : c.addrLimit = 2 ^ 40 := by
  simp [Config.addrLimit, h.regWidth, h.addrBytes]

theorem encode_eq (i : Instr) : encode i = i.commandByte :: i.data := rfl

@[simp] theorem encode_length (i : Instr) : (encode i).length = i.data.length + 1 := rfl

namespace Machine

@[simp] theorem bytesOfAddr_length (a : Addr) : (bytesOfAddr a).length = 5 := rfl

theorem addrOfBytes_bytesOfAddr (a : Addr) : addrOfBytes (bytesOfAddr a) = a := by
  apply BitVec.eq_of_getLsbD_eq
  intro i hi
  interval_cases i <;> simp [addrOfBytes, bytesOfAddr]

theorem bytesOfAddr_addrOfBytes (b0 b1 b2 b3 b4 : Byte) :
    bytesOfAddr (addrOfBytes [b0, b1, b2, b3, b4]) = [b0, b1, b2, b3, b4] := by
  simp only [bytesOfAddr, addrOfBytes, List.cons.injEq, and_true]
  refine ⟨?_, ?_, ?_, ?_, ?_⟩ <;>
    (apply BitVec.eq_of_getLsbD_eq; intro i hi; interval_cases i <;> simp)

theorem regStored_length_le_width {c : Config} (h : Structural c) (d : Device) (r : Reg) :
    (regStored c d r).length ≤ c.width r := by
  rw [c.width_eq h]; cases r <;> simp [regStored, widthOfRule]

@[simp] theorem clearFlags_config (c : Config) (v : Byte) (d : Device) : (clearFlags c v d).config = d.config := rfl
@[simp] theorem clearFlags_txq (c : Config) (v : Byte) (d : Device) : (clearFlags c v d).txq = d.txq := rfl
@[simp] theorem clearFlags_rxq (c : Config) (v : Byte) (d : Device) : (clearFlags c v d).rxq = d.rxq := rfl
@[simp] theorem clearFlags_txActive (c : Config) (v : Byte) (d : Device) : (clearFlags c v d).txActive = d.txActive := rfl

/-- A second clear with the same byte changes nothing. -/
theorem clearFlags_clearFlags (c : Config) (v : Byte) (d : Device) : clearFlags c v (clearFlags c v d) = clearFlags c v d := by
  simp [clearFlags]

/-! ## The fields, where this hardware has them -/

theorem clearFlags_eq {c : Config} (h : Structural c) (v : Byte) (d : Device) : clearFlags c v d =
    { d with rxDR := d.rxDR && !v.getLsbD 6, txDS := d.txDS && !v.getLsbD 5, maxRT := d.maxRT && !v.getLsbD 4 } := by
  simp only [clearFlags, h.regMap]; rfl

theorem pwrUp_eq {c : Config} (h : Structural c) (d : Device) : d.pwrUp c = d.config.getLsbD 1 := by
  simp only [Device.pwrUp, h.regMap]; rfl

theorem primRx_eq {c : Config} (h : Structural c) (d : Device) : d.primRx c = d.config.getLsbD 0 := by
  simp only [Device.primRx, h.regMap]; rfl

theorem ackAwaited_eq {c : Config} (h : Structural c) (d : Device) : d.ackAwaited c = d.enAA.getLsbD 0 := by
  simp only [Device.ackAwaited, h.regMap]; rfl

theorem pipeEnabled_eq {c : Config} (h : Structural c) (d : Device) (p : Nat) : d.pipeEnabled c p = d.enRxaddr.getLsbD p := by
  simp only [Device.pipeEnabled, h.regMap]; rw [show familyRegMap.fields.erx.low = 0 from rfl, Nat.zero_add]

theorem statusByte_eq {c : Config} (h : Structural c) (d : Device) : statusByte c d =
    flagBit 6 d.rxDR ||| flagBit 5 d.txDS ||| flagBit 4 d.maxRT ||| ((rxPipeNo d).setWidth 8 <<< 1) ||| flagBit 0 (txFull c d) := by
  simp only [statusByte, h.regMap]; rfl

theorem fifoStatusByte_eq {c : Config} (h : Structural c) (d : Device) : fifoStatusByte c d =
    flagBit 5 (txFull c d) ||| flagBit 4 d.txq.isEmpty ||| flagBit 1 (rxFull c d) ||| flagBit 0 d.rxq.isEmpty := by
  simp only [fifoStatusByte, h.regMap]
  show 0#8 ||| _ ||| _ ||| _ ||| _ = _
  rw [BitVec.zero_or]; rfl

@[simp] theorem regStore_txq (d : Device) (r : Reg) (v : List Byte) : (regStore d r v).txq = d.txq := by cases r <;> rfl
@[simp] theorem regStore_rxq (d : Device) (r : Reg) (v : List Byte) : (regStore d r v).rxq = d.rxq := by cases r <;> rfl
@[simp] theorem regStore_txActive (d : Device) (r : Reg) (v : List Byte) : (regStore d r v).txActive = d.txActive := by
  cases r <;> rfl
@[simp] theorem regStore_featuresActive (d : Device) (r : Reg) (v : List Byte) :
    (regStore d r v).featuresActive = d.featuresActive := by cases r <;> rfl
@[simp] theorem regStore_rxDR (d : Device) (r : Reg) (v : List Byte) : (regStore d r v).rxDR = d.rxDR := by cases r <;> rfl
@[simp] theorem regStore_txDS (d : Device) (r : Reg) (v : List Byte) : (regStore d r v).txDS = d.txDS := by cases r <;> rfl
@[simp] theorem regStore_maxRT (d : Device) (r : Reg) (v : List Byte) : (regStore d r v).maxRT = d.maxRT := by cases r <;> rfl

/-- Everything a write's side effects can do: clear `tx_active`, or nothing. -/
theorem writeSideEffects_cases (c : Config) (r : Reg) (old new : Device) :
    writeSideEffects c r old new = new ∨
      (r = .config ∧ writeSideEffects c r old new = { new with txActive := false }) := by
  cases r <;> simp only [writeSideEffects, reduceCtorEq, false_and, or_false, true_and]
  split
  · exact .inr rfl
  · exact .inl rfl

/-- `aw = SETUP_AW.AW + 2` as a number. -/
theorem addrWidth_eq {c : Config} (h : Structural c) (d : Device) : d.addrWidth c = d.setupAw.toNat % 4 + 2 := by
  simp only [Device.addrWidth, BitField.value, h.regMap]; rfl

end Machine
end Sys2Proof
end

