-- ==== Sys2Proof/Laws/State.lean ====
section
/-! SUPPORT. One lemma per field per update of the state, true by rfl and used by simp, so that no proof unfolds a record
update. -/

namespace Sys2Proof.Machine

/-! ## State.setDev -/

@[simp] theorem State.setDev_par (s : State) (d : Device) : (s.setDev d).par = s.par := rfl
@[simp] theorem State.setDev_dev (s : State) (d : Device) : (s.setDev d).dev = d := rfl
@[simp] theorem State.setDev_csn (s : State) (d : Device) : (s.setDev d).csn = s.csn := rfl
@[simp] theorem State.setDev_ce (s : State) (d : Device) : (s.setDev d).ce = s.ce := rfl
@[simp] theorem State.setDev_payloadSize (s : State) (d : Device) : (s.setDev d).payloadSize = s.payloadSize := rfl
@[simp] theorem State.setDev_pipe0Cache (s : State) (d : Device) : (s.setDev d).pipe0Cache = s.pipe0Cache := rfl
@[simp] theorem State.setDev_clock (s : State) (d : Device) : (s.setDev d).clock = s.clock := rfl
@[simp] theorem State.setDev_program (s : State) (d : Device) : (s.setDev d).program = s.program := rfl
@[simp] theorem State.setDev_op (s : State) (d : Device) : (s.setDev d).op = s.op := rfl
@[simp] theorem State.setDev_code (s : State) (d : Device) : (s.setDev d).code = s.code := rfl
@[simp] theorem State.setDev_stepIndex (s : State) (d : Device) : (s.setDev d).stepIndex = s.stepIndex := rfl
@[simp] theorem State.setDev_loc (s : State) (d : Device) : (s.setDev d).loc = s.loc := rfl
@[simp] theorem State.setDev_results (s : State) (d : Device) : (s.setDev d).results = s.results := rfl
@[simp] theorem State.setDev_trace (s : State) (d : Device) : (s.setDev d).trace = s.trace := rfl
@[simp] theorem State.setDev_resp (s : State) (d : Device) : (s.setDev d).resp = s.resp := rfl
@[simp] theorem State.setDev_draws (s : State) (d : Device) : (s.setDev d).draws = s.draws := rfl
@[simp] theorem State.setDev_sched (s : State) (d : Device) : (s.setDev d).sched = s.sched := rfl

/-! ## State.pushCode -/

@[simp] theorem State.pushCode_par (s : State) (as : List Action) : (s.pushCode as).par = s.par := rfl
@[simp] theorem State.pushCode_dev (s : State) (as : List Action) : (s.pushCode as).dev = s.dev := rfl
@[simp] theorem State.pushCode_csn (s : State) (as : List Action) : (s.pushCode as).csn = s.csn := rfl
@[simp] theorem State.pushCode_ce (s : State) (as : List Action) : (s.pushCode as).ce = s.ce := rfl
@[simp] theorem State.pushCode_payloadSize (s : State) (as : List Action) : (s.pushCode as).payloadSize = s.payloadSize := rfl
@[simp] theorem State.pushCode_pipe0Cache (s : State) (as : List Action) : (s.pushCode as).pipe0Cache = s.pipe0Cache := rfl
@[simp] theorem State.pushCode_clock (s : State) (as : List Action) : (s.pushCode as).clock = s.clock := rfl
@[simp] theorem State.pushCode_program (s : State) (as : List Action) : (s.pushCode as).program = s.program := rfl
@[simp] theorem State.pushCode_op (s : State) (as : List Action) : (s.pushCode as).op = s.op := rfl
@[simp] theorem State.pushCode_code (s : State) (as : List Action) : (s.pushCode as).code = as ++ s.code := rfl
@[simp] theorem State.pushCode_stepIndex (s : State) (as : List Action) : (s.pushCode as).stepIndex = s.stepIndex := rfl
@[simp] theorem State.pushCode_loc (s : State) (as : List Action) : (s.pushCode as).loc = s.loc := rfl
@[simp] theorem State.pushCode_results (s : State) (as : List Action) : (s.pushCode as).results = s.results := rfl
@[simp] theorem State.pushCode_trace (s : State) (as : List Action) : (s.pushCode as).trace = s.trace := rfl
@[simp] theorem State.pushCode_resp (s : State) (as : List Action) : (s.pushCode as).resp = s.resp := rfl
@[simp] theorem State.pushCode_draws (s : State) (as : List Action) : (s.pushCode as).draws = s.draws := rfl
@[simp] theorem State.pushCode_sched (s : State) (as : List Action) : (s.pushCode as).sched = s.sched := rfl

/-! ## State.emit -/

@[simp] theorem State.emit_par (s : State) (e : BusEvent) : (s.emit e).par = s.par := rfl
@[simp] theorem State.emit_dev (s : State) (e : BusEvent) : (s.emit e).dev = s.dev := rfl
@[simp] theorem State.emit_csn (s : State) (e : BusEvent) : (s.emit e).csn = s.csn := rfl
@[simp] theorem State.emit_ce (s : State) (e : BusEvent) : (s.emit e).ce = s.ce := rfl
@[simp] theorem State.emit_payloadSize (s : State) (e : BusEvent) : (s.emit e).payloadSize = s.payloadSize := rfl
@[simp] theorem State.emit_pipe0Cache (s : State) (e : BusEvent) : (s.emit e).pipe0Cache = s.pipe0Cache := rfl
@[simp] theorem State.emit_clock (s : State) (e : BusEvent) : (s.emit e).clock = s.clock := rfl
@[simp] theorem State.emit_program (s : State) (e : BusEvent) : (s.emit e).program = s.program := rfl
@[simp] theorem State.emit_op (s : State) (e : BusEvent) : (s.emit e).op = s.op := rfl
@[simp] theorem State.emit_code (s : State) (e : BusEvent) : (s.emit e).code = s.code := rfl
@[simp] theorem State.emit_stepIndex (s : State) (e : BusEvent) : (s.emit e).stepIndex = s.stepIndex + 1 := rfl
@[simp] theorem State.emit_loc (s : State) (e : BusEvent) : (s.emit e).loc = s.loc := rfl
@[simp] theorem State.emit_results (s : State) (e : BusEvent) : (s.emit e).results = s.results := rfl
@[simp] theorem State.emit_trace (s : State) (e : BusEvent) : (s.emit e).trace = s.trace ++ [e] := rfl
@[simp] theorem State.emit_resp (s : State) (e : BusEvent) : (s.emit e).resp = s.resp := rfl
@[simp] theorem State.emit_draws (s : State) (e : BusEvent) : (s.emit e).draws = s.draws := rfl
@[simp] theorem State.emit_sched (s : State) (e : BusEvent) : (s.emit e).sched = s.sched := rfl

/-! ## State.note -/

@[simp] theorem State.note_par (s : State) (e : BusEvent) : (s.note e).par = s.par := rfl
@[simp] theorem State.note_dev (s : State) (e : BusEvent) : (s.note e).dev = s.dev := rfl
@[simp] theorem State.note_csn (s : State) (e : BusEvent) : (s.note e).csn = s.csn := rfl
@[simp] theorem State.note_ce (s : State) (e : BusEvent) : (s.note e).ce = s.ce := rfl
@[simp] theorem State.note_payloadSize (s : State) (e : BusEvent) : (s.note e).payloadSize = s.payloadSize := rfl
@[simp] theorem State.note_pipe0Cache (s : State) (e : BusEvent) : (s.note e).pipe0Cache = s.pipe0Cache := rfl
@[simp] theorem State.note_clock (s : State) (e : BusEvent) : (s.note e).clock = s.clock := rfl
@[simp] theorem State.note_program (s : State) (e : BusEvent) : (s.note e).program = s.program := rfl
@[simp] theorem State.note_op (s : State) (e : BusEvent) : (s.note e).op = s.op := rfl
@[simp] theorem State.note_code (s : State) (e : BusEvent) : (s.note e).code = s.code := rfl
@[simp] theorem State.note_stepIndex (s : State) (e : BusEvent) : (s.note e).stepIndex = s.stepIndex := rfl
@[simp] theorem State.note_loc (s : State) (e : BusEvent) : (s.note e).loc = s.loc := rfl
@[simp] theorem State.note_results (s : State) (e : BusEvent) : (s.note e).results = s.results := rfl
@[simp] theorem State.note_trace (s : State) (e : BusEvent) : (s.note e).trace = s.trace ++ [e] := rfl
@[simp] theorem State.note_resp (s : State) (e : BusEvent) : (s.note e).resp = s.resp := rfl
@[simp] theorem State.note_draws (s : State) (e : BusEvent) : (s.note e).draws = s.draws := rfl
@[simp] theorem State.note_sched (s : State) (e : BusEvent) : (s.note e).sched = s.sched := rfl

/-! ## State.passTime -/

@[simp] theorem State.passTime_par (s : State) (d : Nat) : (s.passTime d).par = s.par := rfl
@[simp] theorem State.passTime_dev (s : State) (d : Nat) : (s.passTime d).dev = s.dev := rfl
@[simp] theorem State.passTime_csn (s : State) (d : Nat) : (s.passTime d).csn = s.csn := rfl
@[simp] theorem State.passTime_ce (s : State) (d : Nat) : (s.passTime d).ce = s.ce := rfl
@[simp] theorem State.passTime_payloadSize (s : State) (d : Nat) : (s.passTime d).payloadSize = s.payloadSize := rfl
@[simp] theorem State.passTime_pipe0Cache (s : State) (d : Nat) : (s.passTime d).pipe0Cache = s.pipe0Cache := rfl
@[simp] theorem State.passTime_clock (s : State) (d : Nat) : (s.passTime d).clock = s.clock + d := rfl
@[simp] theorem State.passTime_program (s : State) (d : Nat) : (s.passTime d).program = s.program := rfl
@[simp] theorem State.passTime_op (s : State) (d : Nat) : (s.passTime d).op = s.op := rfl
@[simp] theorem State.passTime_code (s : State) (d : Nat) : (s.passTime d).code = s.code := rfl
@[simp] theorem State.passTime_stepIndex (s : State) (d : Nat) : (s.passTime d).stepIndex = s.stepIndex := rfl
@[simp] theorem State.passTime_loc (s : State) (d : Nat) : (s.passTime d).loc = s.loc := rfl
@[simp] theorem State.passTime_results (s : State) (d : Nat) : (s.passTime d).results = s.results := rfl
@[simp] theorem State.passTime_trace (s : State) (d : Nat) : (s.passTime d).trace = s.trace := rfl
@[simp] theorem State.passTime_resp (s : State) (d : Nat) : (s.passTime d).resp = s.resp := rfl
@[simp] theorem State.passTime_draws (s : State) (d : Nat) : (s.passTime d).draws = s.draws := rfl
@[simp] theorem State.passTime_sched (s : State) (d : Nat) : (s.passTime d).sched = s.sched := rfl

/-! ## closeFrame -/

@[simp] theorem closeFrame_par (s : State) (resp : List Byte) (n : Nat) : (closeFrame resp n s).par = s.par := rfl
@[simp] theorem closeFrame_dev (s : State) (resp : List Byte) (n : Nat) : (closeFrame resp n s).dev = { s.dev with mosi := [], miso := [] } := rfl
@[simp] theorem closeFrame_csn (s : State) (resp : List Byte) (n : Nat) : (closeFrame resp n s).csn = true := rfl
@[simp] theorem closeFrame_ce (s : State) (resp : List Byte) (n : Nat) : (closeFrame resp n s).ce = s.ce := rfl
@[simp] theorem closeFrame_payloadSize (s : State) (resp : List Byte) (n : Nat) : (closeFrame resp n s).payloadSize = s.payloadSize := rfl
@[simp] theorem closeFrame_pipe0Cache (s : State) (resp : List Byte) (n : Nat) : (closeFrame resp n s).pipe0Cache = s.pipe0Cache := rfl
@[simp] theorem closeFrame_clock (s : State) (resp : List Byte) (n : Nat) : (closeFrame resp n s).clock = s.clock := rfl
@[simp] theorem closeFrame_program (s : State) (resp : List Byte) (n : Nat) : (closeFrame resp n s).program = s.program := rfl
@[simp] theorem closeFrame_op (s : State) (resp : List Byte) (n : Nat) : (closeFrame resp n s).op = s.op := rfl
@[simp] theorem closeFrame_code (s : State) (resp : List Byte) (n : Nat) : (closeFrame resp n s).code = s.code := rfl
@[simp] theorem closeFrame_stepIndex (s : State) (resp : List Byte) (n : Nat) : (closeFrame resp n s).stepIndex = s.stepIndex := rfl
@[simp] theorem closeFrame_loc (s : State) (resp : List Byte) (n : Nat) : (closeFrame resp n s).loc = s.loc := rfl
@[simp] theorem closeFrame_results (s : State) (resp : List Byte) (n : Nat) : (closeFrame resp n s).results = s.results := rfl
@[simp] theorem closeFrame_trace (s : State) (resp : List Byte) (n : Nat) : (closeFrame resp n s).trace = s.trace := rfl
@[simp] theorem closeFrame_resp (s : State) (resp : List Byte) (n : Nat) : (closeFrame resp n s).resp = resp := rfl
@[simp] theorem closeFrame_draws (s : State) (resp : List Byte) (n : Nat) : (closeFrame resp n s).draws = s.draws + n := rfl
@[simp] theorem closeFrame_sched (s : State) (resp : List Byte) (n : Nat) : (closeFrame resp n s).sched = s.sched := rfl

/-! ## finishOp -/

@[simp] theorem finishOp_par (s : State) (r : Result) : (finishOp r s).par = s.par := rfl
@[simp] theorem finishOp_dev (s : State) (r : Result) : (finishOp r s).dev = s.dev := rfl
@[simp] theorem finishOp_csn (s : State) (r : Result) : (finishOp r s).csn = s.csn := rfl
@[simp] theorem finishOp_ce (s : State) (r : Result) : (finishOp r s).ce = s.ce := rfl
@[simp] theorem finishOp_payloadSize (s : State) (r : Result) : (finishOp r s).payloadSize = s.payloadSize := rfl
@[simp] theorem finishOp_pipe0Cache (s : State) (r : Result) : (finishOp r s).pipe0Cache = s.pipe0Cache := rfl
@[simp] theorem finishOp_clock (s : State) (r : Result) : (finishOp r s).clock = s.clock := rfl
@[simp] theorem finishOp_program (s : State) (r : Result) : (finishOp r s).program = s.program := rfl
@[simp] theorem finishOp_op (s : State) (r : Result) : (finishOp r s).op = none := rfl
@[simp] theorem finishOp_code (s : State) (r : Result) : (finishOp r s).code = [] := rfl
@[simp] theorem finishOp_stepIndex (s : State) (r : Result) : (finishOp r s).stepIndex = s.stepIndex := rfl
@[simp] theorem finishOp_loc (s : State) (r : Result) : (finishOp r s).loc = s.loc := rfl
@[simp] theorem finishOp_results (s : State) (r : Result) : (finishOp r s).results = s.results ++ [r] := rfl
@[simp] theorem finishOp_trace (s : State) (r : Result) : (finishOp r s).trace = s.trace := rfl
@[simp] theorem finishOp_resp (s : State) (r : Result) : (finishOp r s).resp = s.resp := rfl
@[simp] theorem finishOp_draws (s : State) (r : Result) : (finishOp r s).draws = s.draws := rfl
@[simp] theorem finishOp_sched (s : State) (r : Result) : (finishOp r s).sched = s.sched := rfl

end Sys2Proof.Machine
end

