-- ==== Sys2Proof/Laws/Ops.lean ====
section
/-! SUPPORT. What the shared operations can do, said once: sequencing, one frame, and each command's commit. -/

namespace Sys2Proof.Machine

@[simp] theorem andThen_next (s : State) (k : State → Out) : andThen (.next s) k = k s := rfl
@[simp] theorem andThen_refused (r : Refusal) (k : State → Out) : andThen (.refused r) k = .refused r := rfl
@[simp] theorem andThen_fault (f : Fault) (k : State → Out) : andThen (.fault f) k = .fault f := rfl

theorem andThen_eq_next_iff (o : Out) (k : State → Out) (t : State) :
    andThen o k = .next t ↔ ∃ s, o = .next s ∧ k s = .next t := by
  cases o <;> simp [andThen]

theorem andThen_assoc (o : Out) (k l : State → Out) :
    andThen (andThen o k) l = andThen o fun s => andThen (k s) l := by
  cases o <;> rfl

/-! ## One frame -/

/-- A frame answers a next state exactly when it may open, its command byte is not refused and its effect commits. -/
theorem runCommand_eq_next_iff (early : Option Refusal) (n : Nat) (miso : Nat → Byte) (commit : State → Out) (s t : State) :
    runCommand early n miso commit s = .next t ↔
      opensTooEarly s = false ∧ early = none ∧
        ∃ u, commit s = .next u ∧ t = closeFrame (frameResponse s n miso) (n + 1) u := by
  unfold runCommand
  cases h : opensTooEarly s <;> cases early <;> simp [andThen_eq_next_iff]
  constructor <;> rintro ⟨u, hu, rfl⟩ <;> exact ⟨u, hu, rfl⟩

/-- Completion of a frame. -/
theorem runCommand_of_commit {n : Nat} {miso : Nat → Byte} {commit : State → Out} {s u : State}
    (h : opensTooEarly s = false) (hc : commit s = .next u) :
    runCommand none n miso commit s = .next (closeFrame (frameResponse s n miso) (n + 1) u) := by
  simp [runCommand, h, hc]

theorem opensTooEarly_eq_false_of_le {s : State} (h : s.par.porMs ≤ s.clock) : opensTooEarly s = false := by
  simp [opensTooEarly, h]

theorem addressRefusal_of_some {c : Config} {a : RegAddr} {r : Reg} (h : c.regAt a = some r) : addressRefusal c a = none := by
  simp [addressRefusal, h]

theorem addressRefusal_of_none {c : Config} {a : RegAddr} (h : c.regAt a = none) :
    addressRefusal c a = some (.undefinedRegister a) := by
  simp [addressRefusal, h]

@[simp] theorem frameResponse_length (s : State) (n : Nat) (miso : Nat → Byte) : (frameResponse s n miso).length = n + 1 := by
  simp [frameResponse]

/-- Every meaning is one frame over the command's own pieces. -/
theorem exec_eq_runCommand (i : Instr) (s : State) :
    exec i s = runCommand (commandRefusal s.par i) i.data.length (commandMiso i s) (commandCommit i) s := by
  cases i <;> rfl

/-! ## What a commit can do -/

/-- A register write that answers a next state clears flags, changes nothing, or stores the value with its side effects. -/
theorem writeReg_next {a : RegAddr} {r : Reg} {v : Byte} {d : List Byte} {s t : State}
    (h : writeReg a r v d s = .next t) :
    (s.par.access r = .w1c ∧ v &&& s.par.reservedMask r = 0#8 ∧ t = s.setDev (clearFlags s.par v s.dev)) ∨
    (s.par.access r = .ro ∧ t = s) ∨
    (s.par.access r = .rw ∧ (r.isFeatureReg && featuresGated s.par s.dev) = true ∧ t = s) ∨
    (s.par.access r = .rw ∧ (r.isFeatureReg && featuresGated s.par s.dev) = false ∧ v &&& s.par.reservedMask r = 0#8
      ∧ s.par.illegal r v = false ∧ t = s.setDev (writeSideEffects s.par r s.dev (regStore s.dev r d))) := by
  unfold writeReg at h
  split at h <;> rename_i ha
  · split at h
    · cases h
    · rename_i hv
      exact .inl ⟨ha, by simpa using hv, by cases h; rfl⟩
  · exact .inr (.inl ⟨ha, by cases h; rfl⟩)
  · split at h
    · rename_i hg
      exact .inr (.inr (.inl ⟨ha, hg, by cases h; rfl⟩))
    · rename_i hg
      split at h
      · cases h
      · rename_i hm
        split at h
        · cases h
        · rename_i hi
          exact .inr (.inr (.inr ⟨ha, by simpa using hg, by simpa using hm, by simpa using hi, by cases h; rfl⟩))

/-- A W_REGISTER commit that answers a next state either had no data, or wrote one register with its full width. -/
theorem wRegisterCommit_next {a : RegAddr} {d : List Byte} {s t : State} (h : wRegisterCommit a d s = .next t) :
    (d = [] ∧ t = s) ∨
    ∃ v rest r, d = v :: rest ∧ s.par.regAt a = some r ∧ d.length = s.par.width r ∧ writeReg a r v d s = .next t := by
  unfold wRegisterCommit at h
  split at h
  · exact .inl ⟨rfl, by cases h; rfl⟩
  · rename_i v rest
    split at h
    · cases h
    · rename_i r hr
      split at h
      · cases h
      · rename_i hl
        exact .inr ⟨v, rest, r, rfl, hr, by simpa using hl, h⟩

/-- A commit changes nothing but the device. -/
theorem commandCommit_next {i : Instr} {s t : State} (h : commandCommit i s = .next t) : t = s.setDev t.dev := by
  have same : s = s.setDev s.dev := rfl
  cases i with
  | rRegister a d => cases h; exact same
  | wRegister a d =>
    obtain ⟨-, rfl⟩ | ⟨v, rest, r, -, -, -, hw⟩ := wRegisterCommit_next h
    · exact same
    · obtain ⟨-, -, rfl⟩ | ⟨-, rfl⟩ | ⟨-, -, rfl⟩ | ⟨-, -, -, -, rfl⟩ := writeReg_next hw <;> rfl
  | activate d =>
    simp only [commandCommit, activateCommit] at h
    split at h
    · cases h
    · split at h <;> cases h <;> rfl
  | rRxPlWid d => cases h; exact same
  | rRxPayload d =>
    cases d <;> (cases h; rfl)
  | wTxPayload d =>
    cases d with
    | nil => cases h; rfl
    | cons v d =>
      simp only [commandCommit, wTxPayloadCommit] at h
      split at h
      · cases h
      · split at h <;> cases h <;> rfl
  | flushTx d => cases h; rfl
  | flushRx d => cases h; rfl
  | nop d => cases h; exact same

/-- A commit reads only the parameters and the device: from two states that agree in both it does the same to the device. -/
theorem commandCommit_eq {i : Instr} {s u : State} (hp : u.par = s.par) (hd : u.dev = s.dev) :
    commandCommit i u = andThen (commandCommit i s) fun t => .next (u.setDev t.dev) := by
  have same : u = u.setDev s.dev := by rw [← hd]; rfl
  have keep : (.next u : Out) = .next (u.setDev s.dev) := congrArg _ same
  cases i with
  | wRegister a d =>
    cases d with
    | nil => exact keep
    | cons v d =>
      simp only [commandCommit, wRegisterCommit, writeReg, hp, hd]
      cases s.par.regAt a with
      | none => rfl
      | some r =>
        simp only []
        split
        · rfl
        cases s.par.access r with
        | w1c => simp only []; split <;> rfl
        | ro => exact keep
        | rw =>
          simp only []
          split
          · exact keep
          · split
            · rfl
            · split <;> rfl
  | activate d =>
    simp only [commandCommit, activateCommit, hp, hd]
    split
    · rfl
    · split
      · rfl
      · exact keep
  | wTxPayload d =>
    cases d with
    | nil => exact keep
    | cons v d =>
      simp only [commandCommit, wTxPayloadCommit, hp, hd]
      split
      · rfl
      · split
        · rfl
        · exact keep
  | rRxPayload d =>
    cases d with
    | nil => exact keep
    | cons v d => simp only [commandCommit, rRxPayloadCommit, hd]; rfl
  | flushTx d => simp only [commandCommit, flushTxCommit, hd]; rfl
  | flushRx d => simp only [commandCommit, flushRxCommit, hd]; rfl
  | rRegister a d => exact keep
  | rRxPlWid d => exact keep
  | nop d => exact keep

/-- Everything a wire command that answers a next state did. -/
theorem exec_next {i : Instr} {s t : State} (h : exec i s = .next t) :
    opensTooEarly s = false ∧ commandRefusal s.par i = none ∧
      ∃ u, commandCommit i s = .next u ∧
        t = closeFrame (frameResponse s i.data.length (commandMiso i s)) (i.data.length + 1) u := by
  rw [exec_eq_runCommand] at h
  exact (runCommand_eq_next_iff _ _ _ _ _ _).1 h

end Sys2Proof.Machine
end

