-- ==== Sys2Proof/Laws/Bus.lean ====
section
/-! SUPPORT. The bus level: what a commit and a MISO byte read of the state, and an open frame byte by byte. -/

namespace Sys2Proof.Machine

/-- `s` with an open frame holding `mo` and `mi`. -/
def inFrame (s : State) (mo mi : List Byte) : State := { s with csn := false, dev := { s.dev with mosi := mo, miso := mi } }

theorem decodeCommand_data {c : Byte} {d : List Byte} :
    decodeCommand c d = none ↔ decodeCommand c [] = none := by
  simp only [decodeCommand]
  simp only [apply_ite (· = none), reduceCtorEq]

/-- The same command with another data phase. -/
def setData (i : Instr) (d : List Byte) : Instr := match i with
  | .rRegister a _ => .rRegister a d
  | .wRegister a _ => .wRegister a d
  | .activate _ => .activate d
  | .rRxPlWid _ => .rRxPlWid d
  | .rRxPayload _ => .rRxPayload d
  | .wTxPayload _ => .wTxPayload d
  | .flushTx _ => .flushTx d
  | .flushRx _ => .flushRx d
  | .nop _ => .nop d

theorem decodeCommand_setData {c : Byte} {d : List Byte} :
    decodeCommand c d = (decodeCommand c []).map (setData · d) := by
  simp only [decodeCommand]
  simp only [apply_ite (Option.map _), Option.map_some, Option.map_none, setData]

@[simp] theorem commandRefusal_setData (c : Config) (i : Instr) (d) : commandRefusal c (setData i d) = commandRefusal c i := by cases i <;> rfl
@[simp] theorem commandMiso_setData (i : Instr) (d) : commandMiso (setData i d) = commandMiso i := by cases i <;> rfl
@[simp] theorem data_setData (i : Instr) (d) : (setData i d).data = d := by cases i <;> rfl

theorem statusByte_inFrame (s : State) (mo mi) : statusByte (inFrame s mo mi).par (inFrame s mo mi).dev = statusByte s.par s.dev := rfl

theorem commandMiso_inFrame (i : Instr) (s : State) (mo mi k) : commandMiso i (inFrame s mo mi) k = commandMiso i s k := by
  cases i <;> rfl

theorem clear_inFrame (s : State) (mo mi resp n) : closeFrame resp n (inFrame s mo mi) = closeFrame resp n s := rfl

theorem commit_inFrame (i : Instr) (s : State) (mo mi : List Byte) (resp n) :
    andThen (commandCommit i (inFrame s mo mi)) (fun t => .next (closeFrame resp n t)) =
    andThen (commandCommit i s) (fun t => .next (closeFrame resp n t)) := by
  cases i with
  | wRegister a d =>
    cases d with
    | nil => rfl
    | cons v d =>
      simp only [commandCommit, wRegisterCommit]
      have hpar : (inFrame s mo mi).par = s.par := rfl
      rw [hpar]
      cases s.par.regAt a with
      | none => rfl
      | some r =>
        simp only []
        split
        · rfl
        · have hg : featuresGated s.par (inFrame s mo mi).dev = featuresGated s.par s.dev := rfl
          simp only [writeReg, hpar, hg]
          cases s.par.access r with
          | w1c => simp only []; split <;> rfl
          | ro => rfl
          | rw =>
            simp only []
            split
            · rfl
            · split
              · rfl
              · split
                · rfl
                · simp only [andThen]; congr 1
                  cases r <;> try rfl
                  simp only [closeFrame, writeSideEffects]
                  have : (inFrame s mo mi).dev.pwrUp s.par = s.dev.pwrUp s.par := rfl
                  have : (inFrame s mo mi).dev.primRx s.par = s.dev.primRx s.par := rfl
                  have : (inFrame s mo mi).dev.txActive = s.dev.txActive := rfl
                  simp only [*]
                  by_cases hc : (s.dev.pwrUp s.par && !(regStore s.dev Reg.config (v :: d)).pwrUp s.par || !s.dev.primRx s.par && (regStore s.dev Reg.config (v :: d)).primRx s.par && s.dev.txActive) = true
                  · have hc' : (s.dev.pwrUp s.par && !(regStore (inFrame s mo mi).dev Reg.config (v :: d)).pwrUp s.par || !s.dev.primRx s.par && (regStore (inFrame s mo mi).dev Reg.config (v :: d)).primRx s.par && s.dev.txActive) = true := hc
                    rw [if_pos hc, if_pos hc']; rfl
                  · have hc' : ¬ (s.dev.pwrUp s.par && !(regStore (inFrame s mo mi).dev Reg.config (v :: d)).pwrUp s.par || !s.dev.primRx s.par && (regStore (inFrame s mo mi).dev Reg.config (v :: d)).primRx s.par && s.dev.txActive) = true := hc
                    rw [if_neg hc, if_neg hc']; rfl
  | activate d =>
    simp only [commandCommit, activateCommit]
    have : (inFrame s mo mi).par = s.par := rfl
    split
    · rfl
    · rw [this]; split <;> rfl
  | wTxPayload d =>
    cases d with
    | nil => rfl
    | cons v d =>
      have hpar : (inFrame s mo mi).par = s.par := rfl
      have htxq : (inFrame s mo mi).dev.txq = s.dev.txq := rfl
      simp only [commandCommit, wTxPayloadCommit, hpar, htxq]
      split
      · rfl
      · split <;> rfl
  | rRxPayload d => cases d <;> rfl
  | _ => rfl

theorem busBytes_inFrame (c : Byte) (i : Instr) (hd : decodeCommand c [] = some i) (d : List Byte) :
    ∀ (s : State) (mo mi : List Byte), busBytes d (inFrame s (c :: mo) mi) =
      .next (inFrame s (c :: mo ++ d) (mi ++ (List.range d.length).map fun j => commandMiso i s (mo.length + 1 + j))) := by
  induction d with
  | nil => intro s mo mi; simp [busBytes]
  | cons m d ih =>
    intro s mo mi
    have h1 : busByte m (inFrame s (c :: mo) mi) = .next (inFrame s (c :: (mo ++ [m])) (mi ++ [commandMiso i s (mo.length + 1)])) := by
      simp only [busByte]
      show (match decodeCommand c [] with | none => _ | some i => _) = _
      rw [hd]
      simp only [commandMiso_inFrame]
      rfl
    rw [busBytes, h1]
    simp only [andThen, ih]
    simp [List.range_succ_eq_map, Function.comp_def]
    congr 3
    · 
      congr 1; funext a; congr 1; omega

theorem busClose_inFrame (c : Byte) (i : Instr) (hd : decodeCommand c [] = some i) (d : List Byte) (s : State) (mi : List Byte) :
    busClose (inFrame s (c :: d) mi) = andThen (commandCommit (setData i d) (inFrame s (c :: d) mi)) fun t => .next (closeFrame mi (c :: d).length t) := by
  have h : decodeCommand c d = some (setData i d) := by rw [decodeCommand_setData, hd]; rfl
  unfold busClose
  simp only [inFrame, h, Bool.false_eq_true, if_false]

/-! ## What the bus reads and writes -/

/-- A byte exchanged adds itself and its answer to the frame buffer, and nothing else. -/
theorem busByte_next {m : Byte} {s t : State} (h : busByte m s = .next t) : ∃ r, t = pushByte m r s := by
  unfold busByte at h
  split at h
  · split at h
    · cases h
    split at h <;> cases h
    exact ⟨_, rfl⟩
  · split at h <;> cases h
    exact ⟨_, rfl⟩

theorem busBytes_next {ms : List Byte} : ∀ {s t : State}, busBytes ms s = .next t →
    ∃ l, l.length = ms.length ∧ t = s.setDev { s.dev with mosi := s.dev.mosi ++ ms, miso := s.dev.miso ++ l } := by
  induction ms with
  | nil => intro s t h; cases h; exact ⟨[], rfl, by simp [State.setDev]⟩
  | cons m ms ih =>
    intro s t h
    rw [busBytes, andThen_eq_next_iff] at h
    obtain ⟨u, h1, h2⟩ := h
    obtain ⟨r, rfl⟩ := busByte_next h1
    obtain ⟨l, hl, rfl⟩ := ih h2
    exact ⟨r :: l, by simp [hl], by simp [pushByte, State.setDev]⟩

theorem busBytes_append (a b : List Byte) (s : State) : busBytes (a ++ b) s = andThen (busBytes a s) (busBytes b) := by
  induction a generalizing s with
  | nil => rfl
  | cons m a ih =>
    rw [List.cons_append, busBytes, busBytes, andThen_assoc]
    congr 1; funext t; exact ih t

/-- The exchange of bytes reads only the parameters, the device and the draws. -/
theorem busBytes_eq {ms : List Byte} : ∀ {s u : State}, u.par = s.par → u.dev = s.dev → u.draws = s.draws →
    busBytes ms u = andThen (busBytes ms s) fun t => .next (u.setDev t.dev) := by
  induction ms with
  | nil => intro s u hp hd hw; simp only [busBytes, andThen_next, ← hd]; rfl
  | cons m ms ih =>
    intro s u hp hd hw
    have hm : ∀ i k, commandMiso i u k = commandMiso i s k := by
      intro i k
      cases i <;> simp only [commandMiso, rRegisterMiso, wRegisterMiso, activateMiso, rRxPlWidMiso, rRxPayloadMiso, wTxPayloadMiso,
        flushTxMiso, flushRxMiso, nopMiso, regByte, drawByte, hp, hd, hw]
    have h1 : busByte m u = andThen (busByte m s) fun t => .next (u.setDev t.dev) := by
      simp only [busByte, hp, hd, hm]
      split
      · split
        · rfl
        · split
          · rfl
          · simp only [pushByte, hd]; rfl
      · split
        · rfl
        · simp only [pushByte, hd]; rfl
    rw [busBytes, busBytes, h1, andThen_assoc, andThen_assoc]
    cases hb : busByte m s with
    | next t =>
      obtain ⟨r, rfl⟩ := busByte_next hb
      simp only [andThen_next]
      exact ih (s := pushByte m r s) (u := u.setDev (pushByte m r s).dev) hp rfl hw
    | fault f => rfl
    | refused r => rfl

/-- The close of a frame reads only the parameters and the device. -/
theorem busClose_eq {s u : State} (hs : s.csn = false) (hu : u.csn = false) (hp : u.par = s.par) (hd : u.dev = s.dev)
    (hw : u.draws = s.draws) :
    busClose u = andThen (busClose s) fun t => .next { u with csn := true, dev := t.dev, resp := t.resp, draws := t.draws } := by
  unfold busClose
  simp only [hs, hu, hd, Bool.false_eq_true, if_false]
  cases s.dev.mosi with
  | nil => simp only [andThen_next, closeFrame, hd, hw]
  | cons c d =>
    simp only []
    cases decodeCommand c d with
    | none => rfl
    | some i =>
      simp only [commandCommit_eq hp hd, andThen_assoc, andThen_next]
      cases hc : commandCommit i s with
      | next t => rw [commandCommit_next hc]; simp only [andThen_next, closeFrame, State.setDev, hw]
      | fault f => rfl
      | refused r => rfl

end Sys2Proof.Machine
end

