-- ==== Sys2Proof/Laws/Frame.lean ====
section
/-! SUPPORT. A wire command once frames may open: its result in terms of its commit, and the bytes of a register read as the rule
writes them. -/

namespace Sys2Proof.Machine

open Sys2Proof.Safety

/-- Once frames may open, a command is its early refusal or its commit and the close of the frame. -/
theorem exec_of_ready {i : Instr} {s : State} (h : Ready s) :
    exec i s =
      match commandRefusal s.par i with
      | some r => .refused r
      | none => andThen (commandCommit i s) fun t =>
          .next (closeFrame (frameResponse s i.data.length (commandMiso i s)) (i.data.length + 1) t) := by
  rw [exec_eq_runCommand]
  simp only [runCommand, opensTooEarly_eq_false_of_le h]
  rfl

/-- Completion of a command from its commit. -/
theorem exec_of_commit {i : Instr} {s : State} {d : Device} (h : Ready s) (hr : commandRefusal s.par i = none)
    (hc : commandCommit i s = .next (s.setDev d)) :
    exec i s =
      .next (frameResult s i.data.length ((List.range i.data.length).map fun j => commandMiso i s (j + 1)) d) := by
  rw [exec_of_ready h, hr]
  simp only [hc, andThen_next]
  rfl

/-- Whether a command is refused depends only on the parameters and the device, once frames may open. -/
theorem exec_refused_of_eq {i : Instr} {s v : State} {r : Refusal} (hs : Ready s) (hv : Ready v) (hp : v.par = s.par)
    (hd : v.dev = s.dev) (h : exec i s = .refused r) : exec i v = .refused r := by
  rw [exec_of_ready hs] at h
  rw [exec_of_ready hv, hp]
  split at h
  · exact h
  · rw [commandCommit_eq hp hd]
    cases hc : commandCommit i s with
    | next t => rw [hc] at h; cases h
    | fault f => exact nomatch f
    | refused q => rw [hc] at h; cases h; rfl

/-- Draws from the first data byte on. -/
theorem map_drawByte (s : State) (n : Nat) : ((List.range n).map fun j => drawByte s (j + 1)) = drawn s 1 n := by
  simp [drawn, drawByte, Nat.add_comm, Nat.add_left_comm]

/-- A list read with a default past its end is its beginning and then the defaults. -/
theorem map_getD_range (l : List Byte) (n : Nat) (f : Nat → Byte) :
    ((List.range n).map fun j => l.getD j (f j)) = l.take n ++ (List.range (n - l.length)).map fun j => f (l.length + j) := by
  apply List.ext_getElem
  · simp; omega
  · intro i h1 h2
    simp at h1
    by_cases hi : i < l.length
    · rw [List.getElem_append_left (by simp; omega)]; simp [hi]
    · rw [List.getElem_append_right (by simp; omega)]; simp [hi]
      congr 1; omega

/-- What a register read returns: the register's bytes, and then draws. -/
theorem map_regByte (s : State) (r : Reg) (n : Nat) : (List.range n).map (regByte s r) =
    (regReadable s.par s.dev r).take n ++ (List.range (n - (regReadable s.par s.dev r).length)).map
      fun j => drawByte s ((regReadable s.par s.dev r).length + j + 1) :=
  map_getD_range _ n fun j => drawByte s (j + 1)

/-- The bytes of a register read are those of the rule. -/
theorem regByte_eq_regbyteOfRule {r : Reg} {s : State} {j : Nat} (hs : Structural s.par) :
    regByte s r j = regbyteOfRule s r j := by
  have e : drawByte s (j+1) = Config.freeByte (s.draws + (j+1)) := rfl
  unfold regByte regbyteOfRule regReadable
  by_cases hj : widthOfRule r ≤ j
  · rw [if_pos hj]
    have : (if (r.isFeatureReg && featuresGated s.par s.dev) = true then [0#8] else regStored s.par s.dev r).length ≤ j := by
      split
      · rename_i h
        cases r <;> simp_all [Reg.isFeatureReg, widthOfRule]
      · exact (regStored_length_le_width hs ..).trans (s.par.width_eq hs r ▸ hj)
    rw [List.getD_eq_default _ _ this]; rfl
  · rw [if_neg hj]
    cases r <;> simp [widthOfRule] at hj <;> try (subst hj)
    all_goals simp [Reg.isFeatureReg, regStored, e, featuresGated]
    all_goals try (interval_cases j <;> simp [bytesOfAddr])
    all_goals (split <;> simp_all)

theorem and_reserved_config {v : Byte} (h : v.getLsbD 7 = false) : v &&& 0x80#8 = 0#8 := by revert v; decide

end Sys2Proof.Machine
end

