-- ==== Sys2Proof/Laws/Device.lean ====
section
/-! SUPPORT. A command at the device alone: what its effect reads of the state, the device it leaves, and the frames the controller
sends. -/

namespace Sys2Proof.Machine

open Sys2Proof.Safety

/-! ## The device alone -/

/-- The device a command leaves. -/
def commitDev (c : Config) (d : Device) (i : Instr) : Option Device :=
  match commandCommit i { State.reset with par := c, dev := d } with
  | .next t => some t.dev
  | .fault _ => none
  | .refused _ => none

theorem commandCommit_of_commitDev {i : Instr} {s : State} {d : Device} (h : commitDev s.par s.dev i = some d) :
    commandCommit i s = .next (s.setDev d) := by
  unfold commitDev at h
  split at h
  · rename_i t ht
    cases h
    exact (commandCommit_eq (s := { State.reset with par := s.par, dev := s.dev }) (u := s) rfl rfl).trans (by rw [ht]; rfl)
  · cases h
  · cases h

theorem commitDev_of_commandCommit {i : Instr} {s u : State} (h : commandCommit i s = .next u) :
    commitDev s.par s.dev i = some u.dev := by
  unfold commitDev
  rw [commandCommit_eq (s := s) (u := { State.reset with par := s.par, dev := s.dev }) rfl rfl, h]
  rfl

/-! ## The frames the controller sends -/

/-- With the register map of this hardware an address that names `r` there names it. -/
theorem regAt_of {c : Config} (h : Structural c) {a : RegAddr} {r : Reg} (e : Config.thisHardware.regAt a = some r) :
    c.regAt a = some r := (c.regAt_eq h a).trans e

theorem decode_writeCmd {c : Config} (h : Structural c) (a : Byte) (ds : List Byte) :
    decode (writeCmd c a :: ds) = some (.wRegister (a.setWidth 5) ds) := by
  have h0 : (0x20#8 ||| (a &&& 0x1F#8)) &&& 0xE0#8 = 0x20#8 := by revert a; decide
  have h1 : (0x20#8 ||| (a &&& 0x1F#8)).setWidth 5 = a.setWidth 5 := by revert a; decide
  simp [decode, decodeCommand, writeCmd, c.addrMask_eq h, h0, h1]

theorem decode_readCmd {c : Config} (h : Structural c) (a : Byte) (ds : List Byte) :
    decode (readCmd c a :: ds) = some (.rRegister (a.setWidth 5) ds) := by
  have h0 : (0x00#8 ||| (a &&& 0x1F#8)) &&& 0xE0#8 = 0x00#8 := by revert a; decide
  have h1 : (0x00#8 ||| (a &&& 0x1F#8)).setWidth 5 = a.setWidth 5 := by revert a; decide
  simp only [decode, decodeCommand, readCmd, c.addrMask_eq h, h0, h1, if_true]

/-- A legal write to a register that no feature gates. -/
theorem commitDev_write {c : Config} {d : Device} {a : RegAddr} {r : Reg} {v : Byte} {ds : List Byte} (h : Structural c)
    (hr : c.regAt a = some r) (hl : (v :: ds).length = widthOfRule r) (ha : accessOfRule r = .rw) (hg : r.isFeatureReg = false)
    (hm : v &&& reservedOfRule r = 0#8) (hi : illegalOfRule r v = false) :
    commitDev c d (.wRegister a (v :: ds)) = some (writeSideEffects c r d (regStore d r (v :: ds))) := by
  simp only [commitDev, commandCommit, wRegisterCommit, hr, hl, c.width_eq h, writeReg, c.access_eq h, ha, hg, c.reservedMask_eq h, hm,
    c.illegal_eq h, hi]
  simp

/-- A write of the 5 bytes of an address. -/
theorem commitDev_addr {c : Config} {d : Device} {ad : RegAddr} {r : Reg} (h : Structural c) (a : Addr)
    (hr : c.regAt ad = some r) (hw : widthOfRule r = 5) :
    commitDev c d (.wRegister ad (bytesOfAddr a)) = some (regStore d r (bytesOfAddr a)) := by
  have hl : (bytesOfAddr a).length = widthOfRule r := hw ▸ rfl
  unfold bytesOfAddr at hl ⊢
  rw [commitDev_write h hr hl]
  · cases r <;> first | rfl | cases hw
  · cases r <;> first | rfl | cases hw
  · cases r <;> first | rfl | cases hw
  · cases r <;> first | exact BitVec.and_zero | cases hw
  · cases r <;> first | rfl | cases hw

/-- A legal write of one byte to a register that no feature gates. -/
theorem commitDev_byte {c : Config} {d : Device} {a : RegAddr} {r : Reg} {v : Byte} (h : Structural c) (hr : c.regAt a = some r)
    (hw : widthOfRule r = 1) (ha : accessOfRule r = .rw) (hg : r.isFeatureReg = false) (hm : v &&& reservedOfRule r = 0#8)
    (hi : illegalOfRule r v = false) :
    commitDev c d (.wRegister a [v]) = some (writeSideEffects c r d (regStore d r [v])) :=
  commitDev_write h hr (hw ▸ rfl) ha hg hm hi

/-- A legal write to STATUS. -/
theorem commitDev_status {c : Config} {d : Device} {v : Byte} (h : Structural c) (hv : v.getLsbD 7 = false) :
    commitDev c d (.wRegister 0x07#5 [v]) = some (clearFlags c v d) := by
  have hr : c.regAt 0x07#5 = some .status := regAt_of h rfl
  have hm : v &&& c.reservedMask .status = 0#8 := by rw [c.reservedMask_eq h]; exact and_reserved_config hv
  simp only [commitDev, commandCommit, wRegisterCommit, hr, c.width_eq h, writeReg, c.access_eq h, accessOfRule, hm]
  rfl

/-- A write to a read-only register. -/
theorem commitDev_ro {c : Config} {d : Device} {a : RegAddr} {r : Reg} {v : Byte} (h : Structural c) (hr : c.regAt a = some r)
    (ha : accessOfRule r = .ro) : commitDev c d (.wRegister a [v]) = some d := by
  have hw : c.width r = 1 := by rw [c.width_eq h]; cases r <;> first | rfl | cases ha
  simp only [commitDev, commandCommit, wRegisterCommit, hr, hw, writeReg, c.access_eq h, ha]
  rfl

/-- A write of 0x00 to DYNPD or FEATURE. -/
theorem commitDev_feature {c : Config} {d : Device} {a : RegAddr} {r : Reg} (h : Structural c) (hr : c.regAt a = some r)
    (hf : r.isFeatureReg = true) :
    commitDev c d (.wRegister a [0x00#8]) = some (if featuresGated c d then d else regStore d r [0x00#8]) := by
  have hw : c.width r = 1 := by rw [c.width_eq h]; cases r <;> first | rfl | cases hf
  have ha : c.access r = .rw := by rw [c.access_eq h]; cases r <;> first | rfl | cases hf
  have hi : c.illegal r 0x00#8 = false := by rw [c.illegal_eq h]; cases r <;> first | rfl | cases hf
  have hsd : ∀ x y : Device, writeSideEffects c r x y = y := by cases r <;> first | (intros; rfl) | cases hf
  simp only [commitDev, commandCommit, wRegisterCommit, hr, hw, writeReg, ha, hf, hi, hsd, BitVec.zero_and, Bool.true_and]
  cases hg : featuresGated c d <;> simp

/-- ACTIVATE. -/
theorem commitDev_activate (c : Config) (d : Device) : commitDev c d (.activate [0x73#8]) =
    some (if c.chipNeedsActivate then { d with featuresActive := !d.featuresActive } else d) := by
  simp only [commitDev, commandCommit, activateCommit]
  cases c.chipNeedsActivate <;> simp

/-- A CONFIG write stores its byte, and may abandon a transmission. -/
theorem writeSideEffects_config (c : Config) (d : Device) (v : Byte) :
    ∃ ta, writeSideEffects c .config d (regStore d .config [v]) = { d with config := v, txActive := ta } ∧ (ta = true → d.txActive = true) := by
  simp only [writeSideEffects]
  split
  · exact ⟨false, rfl, fun h => nomatch h⟩
  · exact ⟨d.txActive, rfl, id⟩

/-- A read-modify-write keeps the Reserved bit of CONFIG clear. -/
theorem config_rmw_legal {v st : Byte} (h : v.getLsbD 7 = false) (hst : st.getLsbD 7 = false) (cl : Byte) :
    ((v ||| st) &&& ~~~cl) &&& 0x80#8 = 0#8 := by
  have hb : ∀ x : Byte, x.getLsbD 7 = false → x &&& 0x80#8 = 0#8 := by decide
  exact hb _ (by rw [BitVec.getLsbD_and, BitVec.getLsbD_or, h, hst]; rfl)

/-- A payload size is a legal width of a pipe. -/
theorem payloadSize_legal {n : Nat} (h : n ≤ 32) :
    BitVec.ofNat 8 n &&& 0xC0#8 = 0#8 ∧ decide (32 < (BitVec.ofNat 8 n).toNat) = false := by
  interval_cases n <;> decide

/-! ## The STATUS byte the controller reads -/

theorem pipeOfStatus_statusByte {c : Config} (h : Structural c) (d : Device) : pipeOfStatus (statusByte c d) = rxPipeNo d := by
  have hb : ∀ (x : PipeNo) (b6 b5 b4 b0 : Bool), 
     ((flagBit 6 b6 ||| flagBit 5 b5 ||| flagBit 4 b4 ||| (x.setWidth 8 <<< 1) ||| flagBit 0 b0) >>> 1).setWidth 3 = x := by decide
  rw [statusByte_eq h]; exact hb ..

theorem statusByte_flags {c : Config} (h : Structural c) (d : Device) : (statusByte c d).getLsbD 6 = d.rxDR ∧ (statusByte c d).getLsbD 5 = d.txDS ∧ (statusByte c d).getLsbD 4 = d.maxRT := by
  have hb : ∀ (x : PipeNo) (b6 b5 b4 b0 : Bool), 
     let w := (flagBit 6 b6 ||| flagBit 5 b5 ||| flagBit 4 b4 ||| (x.setWidth 8 <<< 1) ||| flagBit 0 b0)
     w.getLsbD 6 = b6 ∧ w.getLsbD 5 = b5 ∧ w.getLsbD 4 = b4 := by decide
  rw [statusByte_eq h]; exact hb ..

end Sys2Proof.Machine
end

