-- ==== Sys2Proof/Laws/Legal.lean ====
section
/-! SUPPORT. A wire command keeps the device in a legal state. -/

namespace Sys2Proof.Machine

theorem legal_iff (c : Config) (d : Device) : Device.legal c d = true ↔ legalRegs c d = true ∧ legalFifos c d = true ∧ legalActivity c d = true := by
  simp [Device.legal, and_assoc]

theorem legalFifos_iff (c : Config) (d : Device) : legalFifos c d = true ↔ d.txq.length ≤ c.txFifoDepth ∧ (∀ p ∈ d.txq, 1 ≤ p.length ∧ p.length ≤ c.maxPayload) ∧
    d.rxq.length ≤ c.rxFifoDepth ∧ ∀ e ∈ d.rxq, e.pipe.toNat < c.numPipes ∧ 1 ≤ e.payload.length ∧ e.payload.length ≤ c.maxPayload := by
  simp only [legalFifos, Bool.and_eq_true, List.all_eq_true, decide_eq_true_eq, and_assoc]

theorem legalRegs_regStore {c : Config} {r : Reg} {d : Device} {v : Byte} {rest : List Byte} (h : legalRegs c d = true) (hm : v &&& c.reservedMask r = 0#8)
    (hi : c.illegal r v = false) : legalRegs c (regStore d r (v :: rest)) = true := by
  have hb : legalByte c r v = true := by simp [legalByte, hm, hi]
  cases r <;> simp only [regStore, List.headD] <;> first
    | exact h
    | (simp only [legalRegs, Bool.and_eq_true] at h ⊢
       simp only [h, hb, and_self])

theorem legal_write {c : Config} {r : Reg} {d : Device} {v : Byte} {rest : List Byte} (h : Device.legal c d = true) (hm : v &&& c.reservedMask r = 0#8)
    (hi : c.illegal r v = false) : Device.legal c (writeSideEffects c r d (regStore d r (v :: rest))) = true := by
  rw [legal_iff] at h ⊢
  obtain ⟨h1, h2, h3⟩ := h
  have hr := legalRegs_regStore (rest := rest) h1 hm hi
  by_cases hc : r = .config
  · subst hc
    simp only [writeSideEffects]
    split
    · exact ⟨hr, h2, rfl⟩
    · rename_i hc
      refine ⟨hr, h2, ?_⟩
      simp only [legalActivity, regStore_txActive, regStore_txq] at h3 ⊢
      grind
  · have : writeSideEffects c r d (regStore d r (v :: rest)) = regStore d r (v :: rest) := by
      cases r <;> first | rfl | exact absurd rfl hc
    rw [this]
    refine ⟨hr, ?_, ?_⟩
    · simpa [legalFifos] using h2
    · have e : (regStore d r (v :: rest)).config = d.config := by cases r <;> first | rfl | exact absurd rfl hc
      simpa [legalActivity, Device.pwrUp, Device.primRx, e] using h3

theorem legal_commit {i : Instr} {s t : State} (h : commandCommit i s = .next t) (hl : s.dev.legal s.par = true) : t.dev.legal t.par = true := by
  have hpar : t.par = s.par := by rw [commandCommit_next h]; rfl
  rw [hpar]
  have hl' := (legal_iff ..).1 hl
  obtain ⟨h1, h2, h3⟩ := hl'
  cases i with
  | wRegister a d =>
    obtain ⟨-, rfl⟩ | ⟨v, rest, r, rfl, hr, hn, hw⟩ := wRegisterCommit_next h
    · exact hl
    obtain ⟨hc, -, rfl⟩ | ⟨-, rfl⟩ | ⟨-, -, rfl⟩ | ⟨-, -, hm, hi, rfl⟩ := writeReg_next hw
    · exact hl
    · exact hl
    · exact hl
    · exact legal_write hl hm hi
  | activate d =>
    simp only [commandCommit, activateCommit] at h
    split at h
    · cases h
    · split at h <;> cases h <;> exact hl
  | wTxPayload d =>
    cases d with
    | nil => cases h; exact hl
    | cons v d =>
      simp only [commandCommit, wTxPayloadCommit] at h
      split at h
      · cases h
      · rename_i hlen
        split at h <;> cases h
        · rename_i hroom
          rw [legal_iff]
          refine ⟨h1, ?_, ?_⟩
          · rw [legalFifos_iff] at h2 ⊢
            refine ⟨by simp; omega, ?_, h2.2.2⟩
            intro p hp
            rcases List.mem_append.1 hp with hp | hp
            · exact h2.2.1 p hp
            · rw [List.mem_singleton.1 hp]; simp at hlen ⊢; omega
          · simp only [legalActivity] at h3 ⊢; simp at h3 ⊢
            exact h3.imp id fun h => ⟨h.1.2, h.2⟩
        · exact hl
  | rRxPayload d =>
    cases d with
    | nil => cases h; exact hl
    | cons v d =>
      cases h
      rw [legal_iff]
      refine ⟨h1, ?_, h3⟩
      rw [legalFifos_iff] at h2 ⊢
      exact ⟨h2.1, h2.2.1, by simp; omega, fun x hx => h2.2.2.2 x (List.mem_of_mem_tail hx)⟩
  | flushTx d =>
    cases h
    rw [legal_iff]
    refine ⟨h1, ?_, rfl⟩
    rw [legalFifos_iff] at h2 ⊢; exact ⟨by simp, by simp, h2.2.2⟩
  | flushRx d =>
    cases h
    rw [legal_iff]
    refine ⟨h1, ?_, h3⟩
    rw [legalFifos_iff] at h2 ⊢; exact ⟨h2.1, h2.2.1, by simp, by simp⟩
  | _ => cases h; exact hl

end Sys2Proof.Machine
end

