-- ==== Sys2Proof/Laws/Step.lean ====
section
/-! SUPPORT. What a frame, a line of the controller, a move of the air and a step can do, each said once. -/

namespace Sys2Proof.Machine

open Sys2Proof.Safety

theorem sameOutsideDevice_refl (s : State) : SameOutsideDevice s s := by simp [SameOutsideDevice]
theorem sameOutsideDevice_trans {s t u : State} (h : SameOutsideDevice s t) (k : SameOutsideDevice t u) : SameOutsideDevice s u := by
  unfold SameOutsideDevice at *; grind

/-! ## A frame touches only the device -/

theorem exec_outside {i : Instr} {s t : State} (h : exec i s = .next t) : SameOutsideDevice s t := by
  obtain ⟨-, -, u, hu, rfl⟩ := exec_next h
  rw [commandCommit_next hu]; simp [SameOutsideDevice]

theorem busOpen_outside {s t : State} (h : busOpen s = .next t) : SameOutsideDevice s t := by
  unfold busOpen at h
  split at h
  · cases h
  split at h <;> cases h <;> exact sameOutsideDevice_refl _

theorem busBytes_outside {ms : List Byte} {s t : State} (h : busBytes ms s = .next t) : SameOutsideDevice s t := by
  obtain ⟨l, -, rfl⟩ := busBytes_next h; simp [SameOutsideDevice]

theorem busClose_outside {s t : State} (h : busClose s = .next t) : SameOutsideDevice s t := by
  unfold busClose at h
  split at h
  · cases h; exact sameOutsideDevice_refl _
  split at h
  · cases h; simp [SameOutsideDevice]
  split at h
  · cases h
  rw [andThen_eq_next_iff] at h
  obtain ⟨u, h1, h2⟩ := h
  cases h2
  rw [commandCommit_next h1]; simp [SameOutsideDevice]

theorem execBytes_outside {bs} {s t : State} (h : execBytes bs s = .next t) : SameOutsideDevice s t := by
  unfold execBytes at h
  split at h
  · exact exec_outside h
  split at h
  · cases h
  split at h <;> cases h
  simp [SameOutsideDevice]

/-! ## A line of the controller -/

/-- What every line of the controller keeps: the parameters, the host's list, the schedule, and all of the clock, the trace and the
results so far. -/
def Grows (s t : State) : Prop :=
  s.clock ≤ t.clock ∧ t.par = s.par ∧ s.trace <+: t.trace ∧ s.results <+: t.results ∧ t.program = s.program
    ∧ t.sched = s.sched

theorem Grows.refl (s : State) : Grows s s := by simp [Grows]
theorem Grows.trans {s t u : State} (h : Grows s t) (k : Grows t u) : Grows s u := by
  obtain ⟨a, b, c, d, p, q⟩ := h; obtain ⟨a', b', c', d', p', q'⟩ := k
  exact ⟨a.trans a', b'.trans b, c.trans c', d.trans d', p'.trans p, q'.trans q⟩
theorem Grows.of_outside {s t : State} (h : SameOutsideDevice s t) : Grows s t := by
  simp only [SameOutsideDevice] at h; simp only [Grows, h]; simp

/-- Everything `abort_frame` can do: end the operation with a TransportError and CSN at some level, which is 0 only if its own
`SetCSN(1)` failed and no frame opens too early by it. -/
theorem abortFrame_next {dr : Draw} {s t : State} (h : abortFrame dr s = .next t) :
    (dr.abortFails = true ∧ (opensTooEarly s = false ∨ dr.csn = true) ∧ t = finishOp .transportError (loseDevice dr dr.csn s)) ∨
    (dr.abortFails = false ∧ t = finishOp .transportError (loseDevice dr true (s.note (.csn true)))) := by
  unfold abortFrame at h
  split at h
  · rename_i ha
    split at h <;> cases h
    rename_i ho
    refine .inl ⟨ha, ?_, rfl⟩
    cases hc : dr.csn <;> simp_all
  · rename_i ha
    cases h
    exact .inr ⟨by simpa using ha, rfl⟩

theorem abortFrame_grows {dr : Draw} {s t : State} (h : abortFrame dr s = .next t) : Grows s t := by
  obtain ⟨-, -, rfl⟩ | ⟨-, rfl⟩ := abortFrame_next h <;> simp [Grows, loseDevice, State.note]

theorem exchangeCalls_grows {outs} {s t : State} (h : exchangeCalls outs s = .next t) : Grows s t := by
  induction outs generalizing s with
  | nil => cases h; exact Grows.refl _
  | cons o outs ih =>
    rw [exchangeCalls, andThen_eq_next_iff] at h
    obtain ⟨u, h1, h2⟩ := h
    refine (Grows.of_outside (busBytes_outside h1)).trans (Grows.trans ?_ (ih h2))
    simp [Grows, State.emit]

theorem frameStep_grows {outs dr} {s t : State} (h : frameStep outs dr s = .next t) : Grows s t := by
  unfold frameStep at h
  split at h
  · unfold frameFails at h
    split at h
    · exact abortFrame_grows h
    · rw [andThen_eq_next_iff] at h
      obtain ⟨u, h1, h2⟩ := h
      rw [andThen_eq_next_iff] at h2
      obtain ⟨w, h3, h4⟩ := h2
      refine (Grows.of_outside (busOpen_outside h1)).trans (Grows.trans ?_ ((exchangeCalls_grows h3).trans (Grows.trans ?_ (abortFrame_grows h4))))
      · simp [Grows, State.emit]
      · split <;> simp [Grows, State.note, State.passTime]
  · rw [andThen_eq_next_iff] at h
    obtain ⟨u, h1, h2⟩ := h
    cases h2
    exact (Grows.of_outside (execBytes_outside h1)).trans (by simp [Grows, frameReturns])

theorem runAction_grows {a dr} {s t : State} (h : runAction a dr s = .next t) : Grows s t := by
  cases a with
  | frame outs => exact frameStep_grows h
  | setCSN v =>
    simp only [runAction, csnStep] at h
    split at h
    · exact abortFrame_grows h
    split at h <;> rw [andThen_eq_next_iff] at h <;> obtain ⟨u, h1, h2⟩ := h <;> cases h2
    · exact (Grows.of_outside (busClose_outside h1)).trans (by simp [Grows, State.emit])
    · exact (Grows.of_outside (busOpen_outside h1)).trans (by simp [Grows, State.emit])
  | exchange out =>
    simp only [runAction, exchangeStep] at h
    split at h
    · exact Grows.trans (by simp [Grows, State.note]) (abortFrame_grows h)
    split at h
    · cases h; simp [Grows, State.emit]
    · rw [andThen_eq_next_iff] at h; obtain ⟨u, h1, h2⟩ := h; cases h2
      exact (Grows.of_outside (busBytes_outside h1)).trans (by simp [Grows, State.emit])
  | setCE v =>
    simp only [runAction, ceStep] at h
    split at h
    · exact Grows.trans (by simp [Grows]) (abortFrame_grows h)
    · cases h; simp [Grows, State.emit]
  | waitMs d => cases h; simp [Grows, waitBegins]
  | waitUntil u d => cases h; simp [Grows, waitEnds, State.emit]
  | now => cases h; simp [Grows, nowStep, State.emit]
  | rmw a b c => cases h; simp [Grows, rmwStep]
  | startDeadline => cases h; simp [Grows, startDeadlineStep]
  | poll => cases h; simp [Grows, pollStep]
  | pollFlags => cases h; simp only [pollFlagsStep]; split <;> simp [Grows]
  | pollDeadline => cases h; simp only [pollDeadlineStep]; split <;> simp [Grows]
  | clearSeen => cases h; simp only [clearSeenStep]; split <;> simp [Grows]
  | keep => cases h; simp [Grows, keepStep]
  | setPayloadSize n => cases h; simp [Grows, setPayloadSizeStep]
  | cachePipe0 a => cases h; simp [Grows, cachePipe0Step]
  | restorePipe0 => cases h; simp only [restorePipe0Step]; split <;> simp [Grows]
  | ret r => cases h; simp [Grows]

/-- A call has lines to run, or is rejected with no other effect. -/
theorem startOp_next {op} {s t : State} (h : startOp op s = .next t) :
    (∃ as, t = { s with code := as }) ∨ t = finishOp .invalidArgument s := by
  have rl : ∀ {as}, runLines as s = .next t → ∃ as, t = { s with code := as } := by
    intro as h; cases h; exact ⟨_, rfl⟩
  cases op with
  | readRegister a => exact .inl (rl h)
  | writeRegister a v => exact .inl (rl h)
  | startListening => exact .inl (rl h)
  | available => exact .inl (rl h)
  | stopListening => exact .inl (rl h)
  | dumpRegisters => exact .inl (rl h)
  | readRegisterN a n =>
    simp only [startOp, opReadRegisterN] at h
    split at h
    · exact .inl (rl h)
    · cases h; exact .inr rfl
  | writeRegisterN a n =>
    simp only [startOp, opWriteRegisterN] at h
    split at h
    · exact .inl (rl h)
    · cases h; exact .inr rfl
  | initializeRadio n =>
    simp only [startOp, opInitialize] at h
    split at h
    · cases h
    · exact .inl (rl h)
  | openWritingPipe a =>
    simp only [startOp, opOpenWritingPipe, withPayloadSize] at h
    split at h
    · cases h; exact .inr rfl
    split at h
    · cases h
    · exact .inl (rl h)
  | openReadingPipe p a =>
    simp only [startOp, opOpenReadingPipe, withPayloadSize] at h
    split at h
    · cases h; exact .inr rfl
    split at h
    · cases h; exact .inr rfl
    split at h
    · cases h
    · exact .inl (rl h)
  | transmit p =>
    simp only [startOp, opTransmit, withPayloadSize] at h
    split at h
    · cases h; exact .inr rfl
    split at h
    · cases h
    split at h
    · exact .inl (rl h)
    split at h
    · cases h; exact .inr rfl
    · exact .inl (rl h)
  | readPayload len =>
    simp only [startOp, opReadPayload, withPayloadSize] at h
    split at h
    · cases h; exact .inr rfl
    split at h
    · cases h
    split at h
    · exact .inl (rl h)
    split at h
    · cases h; exact .inr rfl
    · exact .inl (rl h)

/-- Everything a move of the controller can do. -/
theorem controllerStep_next {dr} {s t : State} (h : controllerStep dr s = .next t) :
   ∃ u, t = u.passTime dr.idleMs ∧
    ((s.code = [] ∧ s.program = [] ∧ u = { s with op := none }) ∨
     (s.code = [] ∧ ∃ op rest, s.program = op :: rest ∧ startOp op { s with program := rest, op := some op, stepIndex := 0, loc := Locals.empty } = .next u) ∨
     ∃ a rest, s.code = a :: rest ∧ runAction a dr { s with code := rest } = .next u) := by
  unfold controllerStep at h
  rw [andThen_eq_next_iff] at h
  obtain ⟨u, h1, h2⟩ := h
  cases h2
  refine ⟨u, rfl, ?_⟩
  split at h1
  · rename_i hc
    unfold hostCalls at h1
    split at h1
    · rename_i hp; cases h1; exact .inl ⟨hc, hp, rfl⟩
    · rename_i hp; exact .inr (.inl ⟨hc, _, _, hp, h1⟩)
  · rename_i hc; exact .inr (.inr ⟨_, _, hc, h1⟩)

/-! ## Moves of the air -/

theorem radioStep_next {act : State → State} {s t : State} (h : radioStep act s = .next t) : t = s ∨ t = act s := by
  unfold radioStep at h
  split at h
  · cases h; exact .inl rfl
  split at h
  · cases h; exact .inl rfl
  split at h
  · cases h
  · cases h; exact .inr rfl

theorem txStart_sameButRadio (s : State) : SameButRadio s (txStart s) := by unfold txStart; split <;> rfl
theorem txComplete_sameButRadio (b) (s : State) : SameButRadio s (txComplete b s) := by
  unfold txComplete; split
  · split <;> rfl
  · rfl
theorem rxDeliver_sameButRadio (x p k) (s : State) : SameButRadio s (rxDeliver x p k s) := by
  unfold rxDeliver; split
  · split
    · rfl
    · unfold rxFile; split <;> rfl
  · rfl

/-- Everything a step can be. -/
theorem step_next {s t : State} (h : step s = .next t) :
    (∃ rest d, s.sched = .clock d :: rest ∧ t = { s with sched := rest }.passTime d) ∨
    (∃ m rest, s.sched = m :: rest ∧ (t = { s with sched := rest } ∨ t = txStart { s with sched := rest } ∨ (∃ b, t = txComplete b { s with sched := rest }) ∨ ∃ x p k, t = rxDeliver x p k { s with sched := rest })) ∨
    (∃ dr rest, ControllerMoves s dr rest ∧ controllerStep dr { s with sched := rest } = .next t) := by
  unfold step at h
  split at h
  · rename_i hs; exact .inr (.inr ⟨_, [], .inl ⟨hs, rfl, rfl⟩, by rw [← hs]; exact h⟩)
  · rename_i hs; cases h; exact .inl ⟨_, _, hs, rfl⟩
  · rename_i hs; rcases radioStep_next h with rfl | rfl
    · exact .inr (.inl ⟨_, _, hs, .inl rfl⟩)
    · exact .inr (.inl ⟨_, _, hs, .inr (.inl rfl)⟩)
  · rename_i hs; rcases radioStep_next h with rfl | rfl
    · exact .inr (.inl ⟨_, _, hs, .inl rfl⟩)
    · exact .inr (.inl ⟨_, _, hs, .inr (.inr (.inl ⟨_, rfl⟩))⟩)
  · rename_i hs; rcases radioStep_next h with rfl | rfl
    · exact .inr (.inl ⟨_, _, hs, .inl rfl⟩)
    · exact .inr (.inl ⟨_, _, hs, .inr (.inr (.inr ⟨_, _, _, rfl⟩))⟩)
  · rename_i hs; exact .inr (.inr ⟨_, _, .inr hs, h⟩)

/-- A radio-core action keeps everything but flags, FIFOs and `tx_active`. -/
theorem radioAct_keeps {act : State → State} (h : act = txStart ∨ (∃ b, act = txComplete b) ∨ ∃ x p k, act = rxDeliver x p k) (s : State) :
    SameButRadio s (act s) ∧ (act s).sched = s.sched := by
  rcases h with rfl | ⟨b, rfl⟩ | ⟨x, p, k, rfl⟩
  · unfold txStart; split <;> exact ⟨rfl, rfl⟩
  · unfold txComplete; split
    · split <;> exact ⟨rfl, rfl⟩
    · exact ⟨rfl, rfl⟩
  · unfold rxDeliver; split
    · split
      · exact ⟨rfl, rfl⟩
      · unfold rxFile; split <;> exact ⟨rfl, rfl⟩
    · exact ⟨rfl, rfl⟩

end Sys2Proof.Machine
end

