-- ==== Sys2Proof/Laws/Run.lean ====
section
/-! SUPPORT. Running the lines of an operation under any schedule without a failure: the moves of the environment up to the
controller's next one, one line, one frame and a list of frames, each said once, and the composition of runs. -/

namespace Sys2Proof.Machine

open Sys2Proof.Safety

/-! ## Runs -/

theorem run_zero (s : State) : run 0 s = .next s := rfl

theorem run_succ (k : Nat) (s : State) : run (k + 1) s = andThen (step s) (run k) := by
  refine (Host.Core.run.eq_2 Sys2Proof.core s k).trans ?_
  show _ = andThen (Sys2Proof.core.step s) (run k)
  cases Sys2Proof.core.step s <;> rfl

theorem run_one (s : State) : run 1 s = step s := by rw [run_succ]; cases step s <;> rfl

theorem run_add (j k : Nat) (s : State) : run (j + k) s = andThen (run j s) (run k) := by
  induction j generalizing s with
  | zero => rw [Nat.zero_add, run_zero, andThen_next]
  | succ j ih =>
    rw [Nat.add_right_comm, run_succ, run_succ, andThen_assoc]
    congr 1; funext t; exact ih t

theorem run_trans {j k : Nat} {s t u : State} (h : run j s = .next t) (h' : run k t = .next u) : run (j + k) s = .next u := by
  rw [run_add, h]; exact h'

/-! ## Families of schedules -/

/-- `P j l`: a schedule `l` with at least `j` moves of the controller to go, the default ones counted. A family says what its next move
may be; `Allowed` is the family of the statements, and an explicit list of moves is another. -/
structure Schedules (c : Config) (P : Nat → List Move → Prop) : Prop where
  nil : ∀ j, P (j + 1) [] → P j []
  run : ∀ j dr rest, P (j + 1) (.run dr :: rest) → NoFailure c dr ∧ P j rest
  env : ∀ j m rest, (∀ dr, m ≠ .run dr) → P (j + 1) (m :: rest) → P (j + 1) rest

/-- Every schedule whose moves `ok` allows. -/
def Allowed (ok : Config → Move → Prop) (c : Config) (_ : Nat) (l : List Move) : Prop := ∀ m ∈ l, ok c m

theorem schedules_allowed {ok : Config → Move → Prop} {c : Config} (h : ∀ dr, ok c (.run dr) → NoFailure c dr) :
    Schedules c (Allowed ok c) where
  nil _ h := h
  run _ dr _ hl := ⟨h dr (hl _ List.mem_cons_self), fun m hm => hl m (List.mem_cons_of_mem _ hm)⟩
  env _ _ _ _ hl m hm := hl m (List.mem_cons_of_mem _ hm)

theorem schedules_quiet (c : Config) : Schedules c (Allowed QuietMove c) := schedules_allowed fun _ h => h
theorem schedules_flagless (c : Config) : Schedules c (Allowed FlaglessMove c) := schedules_allowed fun _ h => h
theorem schedules_failureFree (c : Config) : Schedules c (Allowed FailureFreeMove c) := schedules_allowed fun _ h => h

/-- The family of one explicit schedule: `n` quiet draws of the controller, and then `rest`. -/
def Then (rest : List Move) (j : Nat) (l : List Move) : Prop := l = List.replicate j (.run Draw.quiet) ++ rest

theorem noFailure_quiet (c : Config) : NoFailure c Draw.quiet := ⟨rfl, fun _ h => absurd h (List.not_mem_nil)⟩

theorem schedules_then (c : Config) (rest : List Move) : Schedules c (Then rest) where
  nil _ h := by simp [Then, List.replicate_succ] at h
  run j dr l h := by
    simp only [Then, List.replicate_succ, List.cons_append, List.cons.injEq, Move.run.injEq] at h
    exact ⟨h.1 ▸ noFailure_quiet c, h.2⟩
  env j m l hm h := by
    simp only [Then, List.replicate_succ, List.cons_append, List.cons.injEq] at h
    exact absurd h.1 (hm _)

/-! ## What the environment's moves keep -/

/-- A move of the environment that `P` allows answers a next state with only the device, the schedule and the clock changed, and keeps
`D`, while CSN is `b`. -/
def Keeps (P : Nat → List Move → Prop) (c : Config) (b : Bool) (D : Device → Prop) : Prop :=
  ∀ j m rest s, (∀ dr, m ≠ .run dr) → P (j + 1) (m :: rest) → s.par = c → s.csn = b → D s.dev → s.sched = m :: rest →
    ∃ d k, step s = .next { s with dev := d, sched := rest, clock := k } ∧ s.clock ≤ k ∧ D d

/-- The environment's part of a step: the clock, or a step of the radio core. -/
theorem step_env {s : State} {m : Move} {rest : List Move} (hm : ∀ dr, m ≠ .run dr) (hs : s.sched = m :: rest) :
    (∃ d, m = .clock d ∧ step s = .next { s with sched := rest, clock := s.clock + d }) ∨
    (m = .txStart ∧ step s = radioStep txStart { s with sched := rest }) ∨
    (∃ b, m = .txComplete b ∧ step s = radioStep (txComplete b) { s with sched := rest }) ∨
    ∃ x p k, m = .rxDeliver x p k ∧ step s = radioStep (rxDeliver x p k) { s with sched := rest } := by
  unfold step
  rw [hs]
  cases m with
  | clock d => exact .inl ⟨d, rfl, rfl⟩
  | txStart => exact .inr (.inl ⟨rfl, rfl⟩)
  | txComplete b => exact .inr (.inr (.inl ⟨b, rfl, rfl⟩))
  | rxDeliver x p k => exact .inr (.inr (.inr ⟨x, p, k, rfl, rfl⟩))
  | run dr => exact absurd rfl (hm dr)

/-- While no radio-core step can happen, because a frame is open or the device is powered down, every move of the environment keeps the
device. -/
theorem keeps_still {P : Nat → List Move → Prop} {c : Config} {b : Bool} {D : Device → Prop}
    (h : b = false ∨ ∀ d, D d → d.pwrUp c = false) : Keeps P c b D := by
  intro j m rest s hm _ hp hb hD hs
  have still : ∀ act, radioStep act { s with sched := rest } = .next { s with sched := rest } := by
    intro act
    unfold radioStep
    rcases h with rfl | h
    · rw [if_pos hb]
    · split
      · rfl
      · rw [if_pos (hp ▸ h _ hD)]
  rcases step_env hm hs with ⟨d, -, e⟩ | ⟨-, e⟩ | ⟨b, -, e⟩ | ⟨x, p, k, -, e⟩
  · exact ⟨s.dev, _, e, Nat.le_add_right _ _, hD⟩
  all_goals exact ⟨s.dev, s.clock, e.trans (still _), le_rfl, hD⟩

/-- With a silent air the device stays. -/
theorem keeps_quiet (c : Config) (b : Bool) (D : Device → Prop) : Keeps (Allowed QuietMove c) c b D := by
  intro j m rest s hm hP hp hb hD hs
  have ok := hP m List.mem_cons_self
  rcases step_env hm hs with ⟨d, -, e⟩ | ⟨rfl, e⟩ | ⟨b, rfl, e⟩ | ⟨x, p, k, rfl, e⟩
  · exact ⟨s.dev, _, e, Nat.le_add_right _ _, hD⟩
  all_goals exact absurd ok (by simp [QuietMove])

/-- An explicit list of controller moves has no move of the environment in it. -/
theorem keeps_then (rest : List Move) (c : Config) (b : Bool) (D : Device → Prop) : Keeps (Then rest) c b D := by
  intro j m l s hm hP
  simp only [Then, List.replicate_succ, List.cons_append, List.cons.injEq] at hP
  exact absurd hP.1 (hm _)

/-- What the radio core can do to the device, dynamic payload being off, in the terms of 45_radio_core.md R133, R134 and R138. -/
structure Radiates (c : Config) (D : Device → Prop) : Prop where
  static : ∀ d, D d → d.pwrUp c = true → dynamicPayloadOn c d = false
  start : ∀ d, D d → d.txq ≠ [] → D { d with txActive := true }

/-- And what it can do when it completes transmissions and delivers packets too. -/
structure RadiatesAll (c : Config) (D : Device → Prop) : Prop extends Radiates c D where
  sent : ∀ d b, D d → d.txActive = true → txSent c b d = true → D { d with txq := d.txq.tail, txDS := true, txActive := false }
  lost : ∀ d b, D d → d.txActive = true → txSent c b d = false → D { d with maxRT := true, txActive := false }
  deliver : ∀ d e, D d → D { d with rxq := d.rxq ++ [e], rxDR := true }

theorem radioStep_of_static {c : Config} {D : Device → Prop} (h : ∀ d, D d → d.pwrUp c = true → dynamicPayloadOn c d = false)
    {s : State} (hp : s.par = c) (hD : D s.dev) (act : State → State) : radioStep act s = .next s ∨ radioStep act s = .next (act s) := by
  unfold radioStep
  split
  · exact .inl rfl
  split
  · exact .inl rfl
  · rename_i hw
    rw [hp, h _ hD (by simpa [hp] using hw)]
    exact .inr rfl

theorem keeps_start {c : Config} {D : Device → Prop} (h : Radiates c D) {s : State} (hp : s.par = c) (hD : D s.dev) :
    ∃ d, radioStep txStart s = .next { s with dev := d } ∧ D d := by
  rcases radioStep_of_static h.static hp hD txStart with e | e
  · exact ⟨s.dev, e, hD⟩
  · unfold txStart at e
    split at e
    · rename_i he
      refine ⟨_, e, h.start _ hD ?_⟩
      simp only [txStartEnabled, Bool.and_eq_true, Bool.not_eq_true', List.isEmpty_eq_false_iff] at he
      exact he.1.1.2
    · exact ⟨s.dev, e, hD⟩

theorem keeps_flagless {c : Config} {b : Bool} {D : Device → Prop} (h : Radiates c D) : Keeps (Allowed FlaglessMove c) c b D := by
  intro j m rest s hm hP hp hb hD hs
  have ok := hP m List.mem_cons_self
  rcases step_env hm hs with ⟨d, -, e⟩ | ⟨rfl, e⟩ | ⟨b, rfl, e⟩ | ⟨x, p, k, rfl, e⟩
  · exact ⟨s.dev, _, e, Nat.le_add_right _ _, hD⟩
  · obtain ⟨d, e', hd⟩ := keeps_start h (s := { s with sched := rest }) hp hD
    exact ⟨d, s.clock, e.trans e', le_rfl, hd⟩
  all_goals exact absurd ok (by simp [FlaglessMove])

theorem keeps_failureFree {c : Config} {b : Bool} {D : Device → Prop} (h : RadiatesAll c D) :
    Keeps (Allowed FailureFreeMove c) c b D := by
  intro j m rest s hm hP hp hb hD hs
  rcases step_env hm hs with ⟨d, -, e⟩ | ⟨rfl, e⟩ | ⟨a, rfl, e⟩ | ⟨x, p, k, rfl, e⟩
  · exact ⟨s.dev, _, e, Nat.le_add_right _ _, hD⟩
  · obtain ⟨d, e', hd⟩ := keeps_start h.toRadiates (s := { s with sched := rest }) hp hD
    exact ⟨d, s.clock, e.trans e', le_rfl, hd⟩
  · rw [e]
    rcases radioStep_of_static h.static (s := { s with sched := rest }) hp hD (txComplete a) with e | e <;> rw [e]
    · exact ⟨s.dev, s.clock, rfl, le_rfl, hD⟩
    · unfold txComplete
      split
      · rename_i ha
        split
        · rename_i hs; exact ⟨_, s.clock, rfl, le_rfl, h.sent _ a hD ha (hp ▸ hs)⟩
        · rename_i hs; exact ⟨_, s.clock, rfl, le_rfl, h.lost _ a hD ha (by simpa [hp] using hs)⟩
      · exact ⟨s.dev, s.clock, rfl, le_rfl, hD⟩
  · rw [e]
    rcases radioStep_of_static h.static (s := { s with sched := rest }) hp hD (rxDeliver x p k) with e | e <;> rw [e]
    · exact ⟨s.dev, s.clock, rfl, le_rfl, hD⟩
    · unfold rxDeliver
      split
      · split
        · exact ⟨s.dev, s.clock, rfl, le_rfl, hD⟩
        · unfold rxFile
          split
          · exact ⟨s.dev, s.clock, rfl, le_rfl, hD⟩
          · exact ⟨_, s.clock, rfl, le_rfl, h.deliver _ _ hD⟩
      · exact ⟨s.dev, s.clock, rfl, le_rfl, hD⟩

/-! ## Up to the controller's next line -/

/-- What is left of a run that must reach time `K`: it shrinks with every step before `K`, since a move leaves the schedule or takes a
millisecond. -/
def toGo (K : Nat) (s : State) : Nat := s.sched.length + (K - s.clock)

/-- `t` is `s` with `code` to run, after moves of the environment. -/
structure Drifts (s : State) (code : List Action) (t : State) : Prop where
  eq : t = { s with dev := t.dev, sched := t.sched, clock := t.clock, code := code }
  clock : s.clock ≤ t.clock
  toGo : ∀ K, toGo K t ≤ toGo K s

theorem Drifts.par {s t : State} {code : List Action} (h : Drifts s code t) : t.par = s.par := by rw [h.eq]
theorem Drifts.csn {s t : State} {code : List Action} (h : Drifts s code t) : t.csn = s.csn := by rw [h.eq]
theorem Drifts.ce {s t : State} {code : List Action} (h : Drifts s code t) : t.ce = s.ce := by rw [h.eq]
theorem Drifts.payloadSize {s t : State} {code : List Action} (h : Drifts s code t) : t.payloadSize = s.payloadSize := by rw [h.eq]
theorem Drifts.pipe0Cache {s t : State} {code : List Action} (h : Drifts s code t) : t.pipe0Cache = s.pipe0Cache := by rw [h.eq]
theorem Drifts.program {s t : State} {code : List Action} (h : Drifts s code t) : t.program = s.program := by rw [h.eq]
theorem Drifts.op {s t : State} {code : List Action} (h : Drifts s code t) : t.op = s.op := by rw [h.eq]
theorem Drifts.results {s t : State} {code : List Action} (h : Drifts s code t) : t.results = s.results := by rw [h.eq]
theorem Drifts.loc {s t : State} {code : List Action} (h : Drifts s code t) : t.loc = s.loc := by rw [h.eq]
theorem Drifts.trace {s t : State} {code : List Action} (h : Drifts s code t) : t.trace = s.trace := by rw [h.eq]
theorem Drifts.draws {s t : State} {code : List Action} (h : Drifts s code t) : t.draws = s.draws := by rw [h.eq]
theorem Drifts.code {s t : State} {code : List Action} (h : Drifts s code t) : t.code = code := by rw [h.eq]

theorem step_of_controllerMoves {s : State} {dr : Draw} {rest : List Move} (h : ControllerMoves s dr rest) :
    step s = controllerStep dr { s with sched := rest } := by
  unfold step
  rcases h with ⟨h, rfl, rfl⟩ | h
  · rw [h]; show controllerStep _ s = _; congr 1; rw [← h]
  · rw [h]

/-- The environment moves until the controller does. -/
theorem run_to_controller {c : Config} {P : Nat → List Move → Prop} {b : Bool} {D : Device → Prop} {j : Nat} {code : List Action}
    (hP : Schedules c P) (hE : Keeps P c b D) : ∀ (l : List Move) {s : State}, s.sched = l → s.par = c → s.csn = b → P (j + 1) l →
      D s.dev → s.code = code →
      ∃ k t dr rest, run k s = .next t ∧ Drifts s code t ∧ D t.dev ∧ ControllerMoves t dr rest ∧ NoFailure c dr ∧ P j rest
        ∧ ∀ K, t.clock + dr.idleMs ≤ K → rest.length + (K - (t.clock + dr.idleMs)) < toGo K s := by
  intro l
  induction l with
  | nil =>
    intro s hl hp hb hs hD hc
    refine ⟨0, s, Draw.quiet, [], rfl, ⟨by rw [← hc], le_rfl, fun _ => le_rfl⟩, hD, .inl ⟨hl, rfl, rfl⟩, noFailure_quiet c, hP.nil _ hs, ?_⟩
    intro K hK
    have : Draw.quiet.idleMs = 1 := rfl
    simp only [toGo, hl, List.length_nil, this] at hK ⊢
    omega
  | cons m rest ih =>
    intro s hl hp hb hs hD hc
    by_cases hm : ∃ dr, m = .run dr
    · obtain ⟨dr, rfl⟩ := hm
      obtain ⟨h1, h2⟩ := hP.run _ _ _ hs
      refine ⟨0, s, dr, rest, rfl, ⟨by rw [← hc], le_rfl, fun _ => le_rfl⟩, hD, .inr hl, h1, h2, ?_⟩
      intro K hK
      simp only [toGo, hl, List.length_cons]
      omega
    · have hm : ∀ dr, m ≠ .run dr := fun dr h => hm ⟨dr, h⟩
      obtain ⟨d, q, h1, h2, h3⟩ := hE _ _ _ _ hm hs hp hb hD hl
      obtain ⟨k, t, dr, rest', k1, k2, k3, k4, k5, k6, k7⟩ :=
        ih (s := { s with dev := d, sched := rest, clock := q }) rfl hp hb (hP.env _ _ _ hm hs) h3 hc
      have hg : ∀ K, toGo K { s with dev := d, sched := rest, clock := q } ≤ toGo K s := by
        intro K; simp only [toGo, hl, List.length_cons]; omega
      refine ⟨k + 1, t, dr, rest', ?_, ⟨?_, h2.trans k2.clock, fun K => (k2.toGo K).trans (hg K)⟩, k3, k4, k5, k6,
        fun K hK => (k7 K hK).trans_le (hg K)⟩
      · rw [run_succ, h1]; exact k1
      · rw [k2.eq]

/-! ## One line -/

/-- Between lines of an operation: the parameters are `c`, CSN is high, the schedule is one of `P`, the clock is at `T` or later, the
device is one of `D`, and the lines `code` are to run. -/
structure Stage (c : Config) (P : Nat → List Move → Prop) (j T : Nat) (D : Device → Prop) (code : List Action) (s : State) : Prop where
  par : s.par = c
  csn : s.csn = true
  sched : P j s.sched
  clock : T ≤ s.clock
  dev : D s.dev
  code : s.code = code

theorem Stage.imp {c : Config} {P : Nat → List Move → Prop} {j T T' : Nat} {D D' : Device → Prop} {code : List Action} {s : State}
    (h : Stage c P j T D code s) (hT : T' ≤ T) (hD : ∀ d, D d → D' d) : Stage c P j T' D' code s :=
  ⟨h.par, h.csn, h.sched, hT.trans h.clock, hD _ h.dev, h.code⟩

/-- What lines keep besides the device and the draws; the trace grows. -/
structure Kept (s t : State) : Prop where
  ce : t.ce = s.ce
  payloadSize : t.payloadSize = s.payloadSize
  pipe0Cache : t.pipe0Cache = s.pipe0Cache
  program : t.program = s.program
  op : t.op = s.op
  results : t.results = s.results
  locals : t.loc = { s.loc with ins := t.loc.ins }
  clock : s.clock ≤ t.clock
  trace : s.trace <+: t.trace
  toGo : ∀ K, toGo K t ≤ toGo K s

theorem Kept.refl (s : State) : Kept s s := ⟨rfl, rfl, rfl, rfl, rfl, rfl, rfl, le_rfl, List.prefix_rfl, fun _ => le_rfl⟩

theorem Kept.trans {s t u : State} (h : Kept s t) (k : Kept t u) : Kept s u :=
  ⟨k.ce.trans h.ce, k.payloadSize.trans h.payloadSize, k.pipe0Cache.trans h.pipe0Cache,
   k.program.trans h.program, k.op.trans h.op, k.results.trans h.results, by rw [k.locals, h.locals], h.clock.trans k.clock,
   h.trace.trans k.trace, fun K => (k.toGo K).trans (h.toGo K)⟩

/-- One line: the environment's moves, the line itself from a state `v`, and the move's idle time. -/
theorem run_line {c : Config} {P : Nat → List Move → Prop} {D : Device → Prop} {j T : Nat} {a : Action} {code : List Action} {s : State}
    (hP : Schedules c P) (hE : Keeps P c true D) (h : Stage c P (j + 1) T D (a :: code) s) :
    ∃ k v dr, (run k s = andThen (runAction a dr v) fun t => .next (t.passTime dr.idleMs)) ∧ Drifts s code v ∧ NoFailure c dr
      ∧ D v.dev ∧ P j v.sched ∧ ∀ K, v.clock + dr.idleMs ≤ K → v.sched.length + (K - (v.clock + dr.idleMs)) < toGo K s := by
  obtain ⟨k, t, dr, rest, k1, k2, k3, k4, k5, k6, k7⟩ := run_to_controller hP hE _ rfl h.par h.csn h.sched h.dev h.code
  refine ⟨k + 1, { t with sched := rest, code := code }, dr, ?_, ⟨by rw [k2.eq], k2.clock, ?_⟩, k5, k3, k6, k7⟩
  · rw [run_add, k1, andThen_next, run_one, step_of_controllerMoves k4]
    unfold controllerStep
    simp only [k2.code]
  · intro K
    have h1 := k2.toGo K
    rcases k4 with ⟨k4, -, rfl⟩ | k4 <;> simp only [toGo, k4, List.length_nil, List.length_cons] at h1 ⊢ <;> omega

/-- One line whose move does not touch the schedule or the clock backwards, and answers `w`. -/
theorem run_line_next {c : Config} {P : Nat → List Move → Prop} {D : Device → Prop} {j T : Nat} {a : Action} {code : List Action} {s : State}
    (hP : Schedules c P) (hE : Keeps P c true D) (h : Stage c P (j + 1) T D (a :: code) s) {Q : State → State → Prop}
    (ha : ∀ v dr, Drifts s code v → NoFailure c dr → D v.dev →
      ∃ w, runAction a dr v = .next w ∧ w.sched = v.sched ∧ v.clock ≤ w.clock ∧ Q v w) :
    ∃ k v w idle, run k s = .next (w.passTime idle) ∧ Drifts s code v ∧ D v.dev ∧ P j w.sched ∧ Q v w ∧ s.clock ≤ w.clock
      ∧ (∀ K, toGo K (w.passTime idle) ≤ toGo K s)
      ∧ ∀ K, w.clock + idle ≤ K → toGo K (w.passTime idle) < toGo K s := by
  obtain ⟨k, v, dr, k1, k2, k3, k4, k5, k6⟩ := run_line hP hE h
  obtain ⟨w, h1, h2, h3, h4⟩ := ha v dr k2 k3 k4
  refine ⟨k, v, w, dr.idleMs, by rw [k1, h1]; rfl, k2, k4, h2 ▸ k5, h4, k2.clock.trans h3, ?_, ?_⟩
  · intro K
    have := k2.toGo K
    simp only [toGo, State.passTime_sched, State.passTime_clock, h2] at this ⊢
    omega
  · intro K hK
    have := k6 K (by omega)
    simp only [toGo, State.passTime_sched, State.passTime_clock, h2] at this ⊢
    omega

/-- A line that changes nothing the device, the lines or `cfg` keep: it leaves other lines, and maybe a local. -/
theorem run_local {c : Config} {P : Nat → List Move → Prop} {D : Device → Prop} {j T : Nat} {a : Action} {as code : List Action}
    {s : State} {l : Locals} (hP : Schedules c P) (hE : Keeps P c true D) (h : Stage c P (j + 1) T D (a :: code) s)
    (ha : ∀ v dr, Drifts s code v → runAction a dr v = .next { v with loc := l, code := as ++ code }) :
    ∃ k t, run k s = .next t ∧ Stage c P j T D (as ++ code) t ∧ t.loc = l ∧ t.ce = s.ce ∧ t.payloadSize = s.payloadSize
      ∧ t.pipe0Cache = s.pipe0Cache ∧ t.program = s.program ∧ t.op = s.op ∧ t.results = s.results ∧ t.trace = s.trace
      ∧ t.draws = s.draws ∧ s.clock ≤ t.clock ∧ (∀ K, toGo K t ≤ toGo K s) ∧ ∀ K, t.clock ≤ K → toGo K t < toGo K s := by
  obtain ⟨k, v, w, idle, k1, k2, k3, k4, rfl, k5, k6, k7⟩ := run_line_next hP hE h
    (Q := fun v w => w = { v with loc := l, code := as ++ code }) fun v dr hv _ _ => ⟨_, ha v dr hv, rfl, le_rfl, rfl⟩
  have := h.clock
  have := k2.clock
  refine ⟨k, _, k1, ⟨k2.par.trans h.par, k2.csn.trans h.csn, k4, ?_, k3, rfl⟩, rfl, k2.ce, k2.payloadSize, k2.pipe0Cache,
    k2.program, k2.op, k2.results, k2.trace, k2.draws, ?_, k6, k7⟩
  · simp only [State.passTime_clock]; omega
  · simp only [State.passTime_clock]; omega

/-- A line that only puts other lines in its place. -/
theorem run_push {c : Config} {P : Nat → List Move → Prop} {D : Device → Prop} {j T : Nat} {a : Action} {as code : List Action}
    {s : State} (hP : Schedules c P) (hE : Keeps P c true D) (h : Stage c P (j + 1) T D (a :: code) s)
    (ha : ∀ v dr, Drifts s code v → runAction a dr v = .next (v.pushCode as)) :
    ∃ k t, run k s = .next t ∧ Stage c P j T D (as ++ code) t ∧ Kept s t ∧ t.loc = s.loc ∧ t.trace = s.trace ∧ t.draws = s.draws := by
  obtain ⟨k, t, k1, k2, k3, k4, k5, k6, k7, k8, k9, k10, k11, k12, k13, -⟩ := run_local (as := as) (l := s.loc) hP hE h fun v dr hv => by
    rw [ha v dr hv]; simp only [State.pushCode, hv.code, ← hv.loc]
  exact ⟨k, t, k1, k2, ⟨k4, k5, k6, k7, k8, k9, by rw [k3], k12, by rw [k10], k13⟩, k3, k10, k11⟩

/-! ## The lines of the pseudocode -/

/-- `SetCE(v)`. -/
theorem run_setCE {c : Config} {P : Nat → List Move → Prop} {D : Device → Prop} {j T : Nat} {b : Bool} {code : List Action} {s : State}
    (hP : Schedules c P) (hE : Keeps P c true D) (h : Stage c P (j + 1) T D (.setCE b :: code) s) :
    ∃ k t, run k s = .next t ∧ Stage c P j T D code t ∧ t.ce = b ∧ Kept { s with ce := b } t ∧ t.loc = s.loc := by
  obtain ⟨k, v, w, idle, k1, k2, k3, k4, rfl, k5, k6, -⟩ := run_line_next hP hE h
    (Q := fun v w => w = { v with ce := b }.emit (.ce b)) fun v dr _ hn _ =>
      ⟨{ v with ce := b }.emit (.ce b), by simp only [runAction, ceStep, hn.1, reduceCtorEq, if_false], rfl, le_rfl, rfl⟩
  have := h.clock
  have := k2.clock
  refine ⟨k, _, k1, ⟨k2.par.trans h.par, k2.csn.trans h.csn, k4, ?_, k3, k2.code⟩, rfl,
    ⟨rfl, k2.payloadSize, k2.pipe0Cache, k2.program, k2.op, k2.results, by simp [k2.loc], ?_, by simp [k2.trace], k6⟩, k2.loc⟩
  · simp only [State.passTime_clock, State.emit_clock]; omega
  · simp only [State.passTime_clock, State.emit_clock]; omega

/-- `WaitMs(d)`, from its begin to its end. -/
theorem run_wait {c : Config} {P : Nat → List Move → Prop} {D : Device → Prop} {j T d : Nat} {code : List Action} {s : State}
    (hP : Schedules c P) (hE : Keeps P c true D) (h : Stage c P (j + 2) T D (.waitMs d :: code) s) :
    ∃ k t, run k s = .next t ∧ Stage c P j (T + d) D code t ∧ Kept s t ∧ t.loc = s.loc := by
  obtain ⟨k, v, w, idle, k1, k2, k3, k4, rfl, k5, k6, -⟩ := run_line_next hP hE h
    (Q := fun v w => w = waitBegins d v) fun v dr _ _ _ => ⟨_, rfl, rfl, le_rfl, rfl⟩
  have hw : Stage c P (j + 1) T D (.waitUntil (v.clock + d) d :: code) ((waitBegins d v).passTime idle) :=
    ⟨k2.par.trans h.par, k2.csn.trans h.csn, k4, by have := h.clock; have := k2.clock; simp [waitBegins]; omega, k3,
      by simp [waitBegins, k2.code]⟩
  obtain ⟨k', v', w', idle', k1', k2', k3', k4', rfl, k5', k6', -⟩ := run_line_next hP hE hw
    (Q := fun v' w => w = waitEnds (v.clock + d) d v') fun v' dr _ _ _ => ⟨_, rfl, rfl, le_max_left _ _, rfl⟩
  have hc := h.clock
  have hv := k2.clock
  have hv' := k2'.clock
  have kd : Kept s (waitEnds (v.clock + d) d v' |>.passTime idle') := by
    refine ⟨k2'.ce.trans k2.ce, k2'.payloadSize.trans k2.payloadSize, k2'.pipe0Cache.trans k2.pipe0Cache, k2'.program.trans k2.program,
      k2'.op.trans k2.op, k2'.results.trans k2.results, ?_, ?_, ?_, fun K => (k6' K).trans (k6 K)⟩
    · have : v'.loc = s.loc := k2'.loc.trans k2.loc
      simp [waitEnds, this]
    · simp only [waitBegins, State.passTime_clock, State.pushCode_clock] at hv'
      simp [waitEnds]; omega
    · have : v'.trace = s.trace := k2'.trace.trans k2.trace
      simp [waitEnds, this]
  refine ⟨k + k', _, run_trans k1 k1', ⟨k2'.par.trans (k2.par.trans h.par), k2'.csn.trans (k2.csn.trans h.csn), k4', ?_, k3', k2'.code⟩,
    kd, k2'.loc.trans k2.loc⟩
  simp [waitEnds]; omega

/-- The optional wait after a mode switch: no move, or the two of a wait. -/
theorem run_powerUpWait {c : Config} {P : Nat → List Move → Prop} {D : Device → Prop} {j T : Nat} {code : List Action} {s : State}
    (hP : Schedules c P) (hE : Keeps P c true D) (h : Stage c P (j + 2 * (powerUpWait c).length) T D (powerUpWait c ++ code) s) :
    ∃ k t, run k s = .next t ∧ Stage c P j T D code t ∧ Kept s t ∧ t.loc = s.loc := by
  unfold powerUpWait at h
  split at h
  · exact ⟨0, s, rfl, h, .refl s, rfl⟩
  · obtain ⟨k, t, h1, h2, h3, h4⟩ := run_wait hP hE h
    exact ⟨k, t, h1, h2.imp (Nat.le_add_right _ _) fun _ h => h, h3, h4⟩

theorem frameFailure_eq_none {c : Config} {dr : Draw} (h : NoFailure c dr) (m : Nat) : frameFailure c dr m = none := by
  have hx : ∀ k, ¬ c.xferTimeoutMs < dr.xferMs.getD k 0 := by
    intro k
    by_cases hk : k < dr.xferMs.length
    · rw [List.getD_eq_getElem _ _ hk]; exact Nat.not_lt.2 (h.2 _ (List.getElem_mem hk))
    · rw [List.getD_eq_default _ _ (by omega)]; omega
  simp only [frameFailure, exchangeFails, h.1, List.find?_eq_none, List.mem_range]
  intro k _
  split
  · simp
  · simpa using Nat.not_lt.1 (hx _)

/-- What one frame did: the bytes it returned are those of the device `d` at its opening, and `i` is the command. -/
structure Framed (c : Config) (s t : State) (outs : List (List Byte)) (i : Instr) (d : Device) : Prop where
  kept : Kept s t
  draws : t.draws = s.draws + (i.data.length + 1)
  trace : t.trace = s.trace ++ frameEvents outs t.loc.ins
  ins : ∀ v : State, v.par = c → v.dev = d → v.draws = s.draws →
    t.loc.ins = splitMiso outs (frameResponse v i.data.length (commandMiso i v))

theorem frameResponse_congr {i : Instr} {u v : State} (hp : u.par = v.par) (hd : u.dev = v.dev) (hw : u.draws = v.draws) :
    frameResponse u i.data.length (commandMiso i u) = frameResponse v i.data.length (commandMiso i v) := by
  have hm : ∀ k, commandMiso i u k = commandMiso i v k := by
    intro k
    cases i <;> simp only [commandMiso, rRegisterMiso, wRegisterMiso, activateMiso, rRxPlWidMiso, rRxPayloadMiso, wTxPayloadMiso,
      flushTxMiso, flushRxMiso, nopMiso, regByte, drawByte, hp, hd, hw]
  simp only [frameResponse, hm, hp, hd]

/-- One frame that does not fail. -/
theorem run_frame {c : Config} {P : Nat → List Move → Prop} {D D' : Device → Prop} {j T : Nat} {outs : List (List Byte)}
    {code : List Action} {s : State} {i : Instr}
    (hP : Schedules c P) (hE : Keeps P c true D) (h : Stage c P (j + 1) T D (.frame outs :: code) s) (hT : c.porMs ≤ T)
    (hd : decode outs.flatten = some i) (hr : commandRefusal c i = none)
    (hc : ∀ d, D d → ∃ e, commitDev c d i = some e ∧ D' { e with mosi := [], miso := [] }) :
    ∃ k t d, run k s = .next t ∧ Stage c P j T D' code t ∧ D d ∧ Framed c s t outs i d
      ∧ ∀ e, commitDev c d i = some e → t.dev = { e with mosi := [], miso := [] } := by
  obtain ⟨k, v, w, idle, k1, k2, k3, k4, ⟨e, x, he, hD', rfl⟩, k5, k6, -⟩ := run_line_next hP hE h
    (Q := fun v w => ∃ e x, commitDev c v.dev i = some e ∧ D' { e with mosi := [], miso := [] } ∧
      w = { closeFrame (frameResponse v i.data.length (commandMiso i v)) (i.data.length + 1) (v.setDev e) with
        loc := { v.loc with ins := splitMiso outs (frameResponse v i.data.length (commandMiso i v)) }
        trace := v.trace ++ frameEvents outs (splitMiso outs (frameResponse v i.data.length (commandMiso i v)))
        stepIndex := v.stepIndex + (outs.length + 2)
        clock := v.clock + x }) (by
      intro v dr hv hn hD
      obtain ⟨e, he, hD'⟩ := hc _ hD
      have hp : v.par = c := hv.par.trans h.par
      have hcsn : v.csn = true := hv.csn.trans h.csn
      have hready : v.par.porMs ≤ v.clock := by have := h.clock; have := hv.clock; rw [hp]; omega
      have hx : exec i v = .next (closeFrame (frameResponse v i.data.length (commandMiso i v)) (i.data.length + 1) (v.setDev e)) := by
        rw [exec_eq_runCommand, hp, hr]
        exact runCommand_of_commit (opensTooEarly_eq_false_of_le hready) (commandCommit_of_commitDev (by rw [hp]; exact he))
      refine ⟨{ closeFrame (frameResponse v i.data.length (commandMiso i v)) (i.data.length + 1) (v.setDev e) with
        loc := { v.loc with ins := splitMiso outs (frameResponse v i.data.length (commandMiso i v)) }
        trace := v.trace ++ frameEvents outs (splitMiso outs (frameResponse v i.data.length (commandMiso i v)))
        stepIndex := v.stepIndex + (outs.length + 2)
        clock := v.clock + xferTime dr outs.length }, ?_, rfl, Nat.le_add_right _ _, e, xferTime dr outs.length, he, hD', rfl⟩
      simp only [runAction, frameStep, hp, frameFailure_eq_none hn, execBytes, fetchFrame, hcsn, if_true, List.nil_append, hd, hx,
        andThen_next]
      rfl)
  have hclk := h.clock
  have hv := k2.clock
  refine ⟨k, _, v.dev, k1, ⟨k2.par.trans h.par, rfl, k4, ?_, hD', k2.code⟩, k3, ⟨⟨k2.ce, k2.payloadSize, k2.pipe0Cache, k2.program, k2.op,
    k2.results, ?_, ?_, ?_, k6⟩, ?_, ?_, ?_⟩, ?_⟩
  · simp only [State.passTime_clock]; omega
  · simp [k2.loc]
  · simp only [State.passTime_clock]; omega
  · simp [k2.trace]
  · show v.draws + _ = _; rw [k2.draws]
  · show v.trace ++ _ = _; rw [k2.trace]; rfl
  · intro u hu1 hu2 hu3
    have := frameResponse_congr (i := i) (u := u) (v := v) (hu1.trans (k2.par.trans h.par).symm) hu2 (hu3.trans k2.draws.symm)
    rw [this]; rfl
  · intro e' he'
    rw [he] at he'
    cases he'; rfl

/-- A frame whose command is refused ends the run. -/
theorem run_frame_refused {c : Config} {P : Nat → List Move → Prop} {d : Device} {j T : Nat} {outs : List (List Byte)} {code : List Action}
    {s : State} {i : Instr} {r : Refusal} (hP : Schedules c P) (hE : Keeps P c true (· = d))
    (h : Stage c P (j + 1) T (· = d) (.frame outs :: code) s) (hT : c.porMs ≤ T) (hd : decode outs.flatten = some i)
    (hr : ∀ v, v.par = c → v.dev = d → Ready v → exec i v = .refused r) : ∃ k, run k s = .refused r := by
  obtain ⟨k, v, dr, k1, k2, k3, k4, -⟩ := run_line hP hE h
  have hp : v.par = c := k2.par.trans h.par
  have hx : exec i v = .refused r := hr v hp k4 (by have := h.clock; have := k2.clock; simp only [Ready, hp]; omega)
  refine ⟨k, k1.trans ?_⟩
  simp only [runAction, frameStep, hp, frameFailure_eq_none k3, execBytes, fetchFrame, k2.csn.trans h.csn, if_true, List.nil_append, hd, hx,
    andThen_refused]

/-- The devices `hold` allows are kept by the environment. -/
def Holds (P : Nat → List Move → Prop) (c : Config) (hold : Device → Prop) : Prop := ∀ d, hold d → Keeps P c true (· = d)

theorem holds_quiet (c : Config) : Holds (Allowed QuietMove c) c fun _ => True := fun _ _ => keeps_quiet c _ _
theorem holds_then (rest : List Move) (c : Config) : Holds (Then rest) c fun _ => True := fun _ _ => keeps_then rest c _ _
theorem holds_off (P : Nat → List Move → Prop) (c : Config) : Holds P c fun d => d.pwrUp c = false :=
  fun _ h => keeps_still (.inr (by rintro _ rfl; exact h))

/-- The frames `fs` take the device from `d` to `e`, through devices that `hold` allows. -/
def FramesTo (c : Config) (hold : Device → Prop) : Device → List (List (List Byte)) → Device → Prop
  | d, [], e => d = e
  | d, outs :: fs, e =>
      hold d ∧ ∃ i d', decode outs.flatten = some i ∧ commandRefusal c i = none ∧ commitDev c d i = some d'
        ∧ FramesTo c hold { d' with mosi := [], miso := [] } fs e

/-- A list of frames. -/
theorem run_frames {c : Config} {P : Nat → List Move → Prop} {hold : Device → Prop} {j T : Nat} {e : Device} (hP : Schedules c P)
    (hH : Holds P c hold) (hT : c.porMs ≤ T) (fs : List (List (List Byte))) : ∀ {d : Device} {code : List Action} {s : State},
      Stage c P (j + fs.length) T (· = d) (fs.map .frame ++ code) s → FramesTo c hold d fs e →
      ∃ k t, run k s = .next t ∧ Stage c P j T (· = e) code t ∧ Kept s t := by
  induction fs with
  | nil => rintro d code s h rfl; exact ⟨0, s, rfl, h, .refl s⟩
  | cons outs fs ih =>
    rintro d code s h ⟨hd, i, d', h1, h2, h3, h4⟩
    obtain ⟨k, t, x, k1, k2, -, k3, -⟩ := run_frame (j := j + fs.length) (D' := (· = { d' with mosi := [], miso := [] })) hP (hH d hd)
      h hT h1 h2 (by rintro _ rfl; exact ⟨_, h3, rfl⟩)
    obtain ⟨k', u, l1, l2, l3⟩ := ih k2 h4
    exact ⟨k + k', u, run_trans k1 l1, l2, k3.kept.trans l3⟩

theorem framesTo_cons {c : Config} {hold : Device → Prop} {d d' e : Device} {i : Instr} {outs : List (List Byte)}
    {fs : List (List (List Byte))} (h : hold d) (hd : decode outs.flatten = some i) (hr : commandRefusal c i = none)
    (he : commitDev c d i = some d') (hf : FramesTo c hold { d' with mosi := [], miso := [] } fs e) : FramesTo c hold d (outs :: fs) e :=
  ⟨h, i, d', hd, hr, he, hf⟩

theorem framesTo_append {c : Config} {hold : Device → Prop} {m e : Device} {gs : List (List (List Byte))}
    (fs : List (List (List Byte))) : ∀ {d : Device}, FramesTo c hold d fs m → FramesTo c hold m gs e → FramesTo c hold d (fs ++ gs) e := by
  induction fs with
  | nil => rintro d rfl h; exact h
  | cons outs fs ih => rintro d ⟨h, i, d', h1, h2, h3, h4⟩ hg; exact ⟨h, i, d', h1, h2, h3, ih h4 hg⟩

/-- `WriteReg(a, bs)` in two exchange calls. -/
theorem framesTo_writeN {c : Config} {hold : Device → Prop} {d d' e : Device} {a : Byte} {bs : List Byte} {r : Reg}
    {fs : List (List (List Byte))} (hs : Structural c) (h : hold d) (hr : c.regAt (a.setWidth 5) = some r)
    (he : commitDev c d (.wRegister (a.setWidth 5) bs) = some d')
    (hf : FramesTo c hold { d' with mosi := [], miso := [] } fs e) : FramesTo c hold d ([[writeCmd c a], bs] :: fs) e :=
  framesTo_cons (i := .wRegister (a.setWidth 5) bs) h (by simpa using decode_writeCmd hs a bs) (addressRefusal_of_some hr) he hf

/-- `WriteReg(a, [v])` in one exchange call. -/
theorem framesTo_write1 {c : Config} {hold : Device → Prop} {d d' e : Device} {a v : Byte} {r : Reg}
    {fs : List (List (List Byte))} (hs : Structural c) (h : hold d) (hr : c.regAt (a.setWidth 5) = some r)
    (he : commitDev c d (.wRegister (a.setWidth 5) [v]) = some d')
    (hf : FramesTo c hold { d' with mosi := [], miso := [] } fs e) : FramesTo c hold d ([[writeCmd c a, v]] :: fs) e :=
  framesTo_cons (i := .wRegister (a.setWidth 5) [v]) h (by simpa using decode_writeCmd hs a [v]) (addressRefusal_of_some hr) he hf

/-- FLUSH_TX and FLUSH_RX. -/
theorem framesTo_flushTx {c : Config} {hold : Device → Prop} {d e : Device} {fs : List (List (List Byte))} (h : hold d)
    (hf : FramesTo c hold { d with txq := [], txActive := false, mosi := [], miso := [] } fs e) : FramesTo c hold d ([[0xE1#8]] :: fs) e :=
  framesTo_cons (i := .flushTx []) h rfl rfl rfl hf

theorem framesTo_flushRx {c : Config} {hold : Device → Prop} {d e : Device} {fs : List (List (List Byte))} (h : hold d)
    (hf : FramesTo c hold { d with rxq := [], mosi := [], miso := [] } fs e) : FramesTo c hold d ([[0xE2#8]] :: fs) e :=
  framesTo_cons (i := .flushRx []) h rfl rfl rfl hf

/-- What `ReadReg(a, n)` returns: the status byte, and the bytes of the register. -/
theorem run_readReg {c : Config} {P : Nat → List Move → Prop} {D D' : Device → Prop} {j T n : Nat} {a : Byte} {r : Reg} {code : List Action}
    {s : State} (hP : Schedules c P) (hE : Keeps P c true D) (hs : Structural c)
    (h : Stage c P (j + 1) T D (readRegN c a n :: code) s) (hT : c.porMs ≤ T) (hr : c.regAt (a.setWidth 5) = some r)
    (hD : ∀ d, D d → D' { d with mosi := [], miso := [] }) :
    ∃ k t d, run k s = .next t ∧ Stage c P j T D' code t ∧ Kept s t ∧ t.draws = s.draws + (n + 1) ∧ D d
      ∧ t.dev = { d with mosi := [], miso := [] }
      ∧ t.trace = s.trace ++ frameEvents [[readCmd c a], List.replicate n c.dummyByte] t.loc.ins
      ∧ ∀ v : State, v.par = c → v.dev = d → v.draws = s.draws →
        t.loc.ins = [[statusByte c d], (List.range n).map (regByte v r)] := by
  obtain ⟨k, t, d, k1, k2, k3, k4, k5⟩ := run_frame (i := .rRegister (a.setWidth 5) (List.replicate n c.dummyByte)) (D' := D')
    hP hE h hT (by simpa using decode_readCmd hs a (List.replicate n c.dummyByte)) (addressRefusal_of_some hr)
    fun d hd => ⟨d, rfl, hD d hd⟩
  refine ⟨k, t, d, k1, k2, k4.kept, by simpa [Instr.data] using k4.draws, k3, k5 d rfl, k4.trace, fun v h1 h2 h3 => ?_⟩
  rw [k4.ins v h1 h2 h3]
  subst h1 h2
  simp [frameResponse, Instr.data, splitMiso, commandMiso, rRegisterMiso, hr, List.take_of_length_le]

/-- A read-modify-write of a 1-byte register: the read, the line between, and the write. -/
theorem run_rmw {c : Config} {P : Nat → List Move → Prop} {D D₁ D₂ : Device → Prop} {j T : Nat} {a : Byte} {r : Reg} {st cl v : Byte}
    {code : List Action} {s : State} (hP : Schedules c P) (hE : Keeps P c true D) (hE₁ : Keeps P c true D₁) (hs : Structural c)
    (h : Stage c P (j + 3) T D (readReg1 c a :: .rmw a st cl :: code) s) (hT : c.porMs ≤ T) (hr : c.regAt (a.setWidth 5) = some r)
    (hread : ∀ d, D d → regReadable c d r = [v] ∧ D₁ { d with mosi := [], miso := [] })
    (hwrite : ∀ d, D₁ d → ∃ e, commitDev c d (.wRegister (a.setWidth 5) [(v ||| st) &&& ~~~cl]) = some e
      ∧ D₂ { e with mosi := [], miso := [] }) :
    ∃ k t, run k s = .next t ∧ Stage c P j T D₂ code t ∧ Kept s t := by
  obtain ⟨k, t, d, k1, k2, k3, -, k4, -, -, k5⟩ := run_readReg (j := j + 2) hP hE hs h hT hr fun d hd => (hread d hd).2
  have hv : insByte t.loc.ins 1 0 = v := by
    rw [k5 { s with par := c, dev := d } rfl rfl rfl]
    simp [insByte, regByte, (hread d k4).1]
  obtain ⟨k', u, l1, l2, l3, -⟩ := run_push (j := j + 1) (as := [writeReg1 c a ((v ||| st) &&& ~~~cl)]) hP hE₁ k2 fun w dr hw => by
    simp only [runAction, rmwStep, hw.par, k2.par, hw.loc, hv]
  obtain ⟨k'', w, x, m1, m2, -, m3, -⟩ := run_frame (i := .wRegister (a.setWidth 5) [(v ||| st) &&& ~~~cl]) hP hE₁ l2 hT
    (by simpa using decode_writeCmd hs a [(v ||| st) &&& ~~~cl]) (addressRefusal_of_some hr) hwrite
  exact ⟨k + k' + k'', w, run_trans (run_trans k1 l1) m1, m2, (k3.trans l3).trans m3.kept⟩

/-- The last line returns the result and ends the operation. -/
theorem run_ret {c : Config} {P : Nat → List Move → Prop} {D : Device → Prop} {j T : Nat} {r : Return} {s : State}
    (hP : Schedules c P) (hE : Keeps P c true D) (h : Stage c P (j + 1) T D [.ret r] s) :
    ∃ k t, run k s = .next t ∧ t.results = s.results ++ [returnValue r s.loc] ∧ t.op = none ∧ t.code = [] ∧ D t.dev
      ∧ t.csn = true ∧ t.ce = s.ce ∧ t.par = c ∧ t.payloadSize = s.payloadSize ∧ t.pipe0Cache = s.pipe0Cache
      ∧ t.program = s.program ∧ t.trace = s.trace ∧ T ≤ t.clock := by
  obtain ⟨k, v, w, idle, k1, k2, k3, k4, rfl, k5, k6, -⟩ := run_line_next hP hE h
    (Q := fun v w => w = finishOp (returnValue r v.loc) v) fun v dr _ _ _ => ⟨_, rfl, rfl, le_rfl, rfl⟩
  refine ⟨k, _, k1, ?_, rfl, rfl, k3, k2.csn.trans h.csn, k2.ce, k2.par.trans h.par, k2.payloadSize, k2.pipe0Cache, k2.program,
    k2.trace, ?_⟩
  · simp [k2.results, k2.loc]
  · have := h.clock; have := k2.clock; simp; omega

/-! ## The call -/

/-- A call whose lines are `as` has them to run, and nothing else has happened but moves of the environment. -/
structure Called (s : State) (as : List Action) (op : HostOp) (p : List HostOp) (t : State) : Prop where
  par : t.par = s.par
  csn : t.csn = s.csn
  ce : t.ce = s.ce
  payloadSize : t.payloadSize = s.payloadSize
  pipe0Cache : t.pipe0Cache = s.pipe0Cache
  results : t.results = s.results
  trace : t.trace = s.trace
  draws : t.draws = s.draws
  loc : t.loc = Locals.empty
  program : t.program = p
  op : t.op = some op
  code : t.code = as
  clock : s.clock ≤ t.clock

theorem run_call {c : Config} {P : Nat → List Move → Prop} {b : Bool} {D : Device → Prop} {j : Nat} {as : List Action} {op : HostOp}
    {p : List HostOp} {s : State} (hP : Schedules c P) (hE : Keeps P c b D) (hp : s.par = c) (hb : s.csn = b) (hs : P (j + 1) s.sched)
    (hD : D s.dev) (hc : s.code = []) (hprog : s.program = op :: p)
    (h : ∀ u : State, u.par = s.par → u.payloadSize = s.payloadSize → startOp op u = runLines as u) :
    ∃ k t, run k s = .next t ∧ Called s as op p t ∧ P j t.sched ∧ D t.dev := by
  obtain ⟨k, v, dr, rest, k1, k2, k3, k4, -, k6, -⟩ := run_to_controller hP hE _ rfl hp hb hs hD hc
  refine ⟨k + 1, ({ v with program := p, op := some op, stepIndex := 0, loc := Locals.empty, sched := rest, code := as }).passTime dr.idleMs,
    ?_, ⟨k2.par, k2.csn, k2.ce, k2.payloadSize, k2.pipe0Cache, k2.results, k2.trace, k2.draws, rfl, rfl, rfl, rfl, ?_⟩, k6, k3⟩
  · rw [run_add, k1, andThen_next, run_one, step_of_controllerMoves k4]
    unfold controllerStep
    simp only [k2.code, hostCalls, k2.program, hprog]
    rw [h { v with sched := rest, program := p, op := some op, stepIndex := 0, loc := Locals.empty, code := [] } k2.par k2.payloadSize]
    rfl
  · have := k2.clock; simp; omega

/-- The same for a call with CSN high: its lines are a stage. -/
theorem run_call_stage {ok : Config → Move → Prop} {D : Device → Prop} {as : List Action} {op : HostOp} {p : List HostOp} {s : State}
    (hP : Schedules s.par (Allowed ok s.par)) (hE : Keeps (Allowed ok s.par) s.par true D) (hc : CallsUnder ok s op p)
    (hcsn : s.csn = true) (hD : D s.dev)
    (h : ∀ u : State, u.par = s.par → u.payloadSize = s.payloadSize → startOp op u = runLines as u) :
    ∃ k t, run k s = .next t ∧ Called s as op p t ∧ ∀ j, Stage s.par (Allowed ok s.par) j s.clock D as t := by
  obtain ⟨k, t, k1, k2, k3, k4⟩ := run_call (j := 0) hP hE rfl hcsn hc.sched hD hc.idle hc.program h
  exact ⟨k, t, k1, k2, fun j => ⟨k2.par, k2.csn.trans hcsn, k3, k2.clock, k4, k2.code⟩⟩

/-! ## Register reads whose bytes are kept -/

/-- What one register read of `dumpRegisters` returns. -/
def keptRead (c : Config) (d : Device) (r : Reg) : List (List Byte) := [[statusByte c d], regReadable c d r]

/-- `ReadReg(a, width)` and the line that keeps its bytes, for a register every byte of which a rule defines. -/
theorem run_readKeep {c : Config} {P : Nat → List Move → Prop} {d : Device} {j T n : Nat} {a : Byte} {r : Reg} {code : List Action}
    {s : State} (hP : Schedules c P) (hE : ∀ d, Keeps P c true (· = d)) (hs : Structural c)
    (h : Stage c P (j + 2) T (· = d) (readRegN c a n :: .keep :: code) s) (hT : c.porMs ≤ T) (hr : c.regAt (a.setWidth 5) = some r)
    (hn : (regReadable c d r).length = n) :
    ∃ k t, run k s = .next t ∧ Stage c P j T (· = { d with mosi := [], miso := [] }) code t
      ∧ t.loc.kept = s.loc.kept ++ [keptRead c d r] ∧ t.ce = s.ce ∧ t.payloadSize = s.payloadSize ∧ t.pipe0Cache = s.pipe0Cache
      ∧ t.program = s.program ∧ t.results = s.results := by
  obtain ⟨k, t, e, k1, k2, k3, -, rfl, -, -, k5⟩ := run_readReg (j := j + 1) (D' := (· = { d with mosi := [], miso := [] })) hP (hE d) hs h hT hr
    (by rintro _ rfl; rfl)
  have hk : t.loc.ins = keptRead c e r := by
    rw [k5 { s with par := c, dev := e } rfl rfl rfl]
    rw [map_regByte, hn, Nat.sub_self, List.take_of_length_le hn.le]
    simp [keptRead]
  obtain ⟨k', u, l1, l2, l3, l4, l5, l6, l7, -, l8, -⟩ := run_local (j := j) (as := []) (l := { t.loc with kept := t.loc.kept ++ [t.loc.ins] })
    hP (hE _) k2 fun v dr hv => by simp only [runAction, keepStep, hv.loc, List.nil_append, ← hv.code]
  refine ⟨k + k', u, run_trans k1 l1, l2, ?_, l4.trans k3.ce, l5.trans k3.payloadSize, l6.trans k3.pipe0Cache, l7.trans k3.program,
    l8.trans k3.results⟩
  rw [l3, k3.locals, hk]

/-- A list of such reads. -/
theorem run_readsKeep {c : Config} {P : Nat → List Move → Prop} {T : Nat} (hP : Schedules c P) (hE : ∀ d, Keeps P c true (· = d))
    (hs : Structural c) (hT : c.porMs ≤ T) (rs : List (Byte × Reg × Nat))
    (hx : ∀ x ∈ rs, c.regAt (x.1.setWidth 5) = some x.2.1 ∧ ∀ d, (regReadable c d x.2.1).length = x.2.2) :
    ∀ {j : Nat} {d : Device} {code : List Action} {s : State},
      Stage c P (j + 2 * rs.length) T (· = d) ((rs.flatMap fun x => [readRegN c x.1 x.2.2, .keep]) ++ code) s →
      ∃ k t, run k s = .next t ∧ Stage c P j T (fun e => e = { d with mosi := [], miso := [] } ∨ rs = [] ∧ e = d) code t
        ∧ t.loc.kept = s.loc.kept ++ rs.map (fun x => keptRead c d x.2.1) ∧ t.ce = s.ce ∧ t.payloadSize = s.payloadSize
        ∧ t.pipe0Cache = s.pipe0Cache ∧ t.program = s.program ∧ t.results = s.results := by
  induction rs with
  | nil =>
    intro j d code s h
    exact ⟨0, s, rfl, h.imp le_rfl fun _ h => .inr ⟨rfl, h⟩, by simp, rfl, rfl, rfl, rfl, rfl⟩
  | cons x rs ih =>
    intro j d code s h
    obtain ⟨h1, h2⟩ := hx x List.mem_cons_self
    obtain ⟨k, t, k1, k2, k3, k4, k5, k6, k7, k8⟩ := run_readKeep (j := j + 2 * rs.length)
      (code := (rs.flatMap fun x => [readRegN c x.1 x.2.2, .keep]) ++ code) hP hE hs
      (by rw [List.length_cons, Nat.mul_succ] at h; exact h) hT h1 (h2 d)
    obtain ⟨k', u, l1, l2, l3, l4, l5, l6, l7, l8⟩ := ih (fun w hw => hx w (List.mem_cons_of_mem _ hw)) k2
    have hsame : ∀ r, keptRead c { d with mosi := [], miso := [] } r = keptRead c d r := by intro r; cases r <;> rfl
    refine ⟨k + k', u, run_trans k1 l1, l2.imp le_rfl fun _ h => .inl (h.elim id And.right), ?_, l4.trans k4, l5.trans k5,
      l6.trans k6, l7.trans k7, l8.trans k8⟩
    rw [l3, k3]; simp [hsame]

end Sys2Proof.Machine
end

