-- ==== Sys2Proof/Laws/OnAir.lean ====
section
/-! SUPPORT. A call under every schedule without a failure, whatever the radio core and the air do: the devices they can reach from one, and
the frames of an operation through them (20_memory.md R63, R65). -/

namespace Sys2Proof.Machine

open Sys2Proof.Safety

/-! ## What the radio core can reach -/

/-- `e` is `d` but for what the radio core writes, and the frame buffer. -/
def OnAir (d e : Device) : Prop :=
  e = { d with
    rxDR := e.rxDR, txDS := e.txDS, maxRT := e.maxRT, txq := e.txq, rxq := e.rxq, txActive := e.txActive, mosi := e.mosi, miso := e.miso }

theorem OnAir.refl (d : Device) : OnAir d d := rfl

theorem OnAir.closed {d e : Device} (h : OnAir d e) : OnAir d { e with mosi := [], miso := [] } := by
  rw [h]; rfl

theorem OnAir.config {d e : Device} (h : OnAir d e) : e.config = d.config := by rw [h]
theorem OnAir.featuresActive {d e : Device} (h : OnAir d e) : e.featuresActive = d.featuresActive := by rw [h]

theorem OnAir.dynamicPayloadOn {c : Config} {d e : Device} (h : OnAir d e) : dynamicPayloadOn c e = dynamicPayloadOn c d := by
  rw [h]; rfl

theorem OnAir.featuresGated {c : Config} {d e : Device} (h : OnAir d e) : featuresGated c e = featuresGated c d := by
  rw [h]; rfl

/-- A register the radio core does not write reads the same. -/
theorem OnAir.regReadable {c : Config} {d e : Device} {r : Reg} (h : OnAir d e) (h1 : r ≠ .status) (h2 : r ≠ .fifoStatus) :
    regReadable c e r = regReadable c d r := by
  rw [h]; cases r <;> first | rfl | exact absurd rfl h1 | exact absurd rfl h2

theorem OnAir.sameRegisters {c : Config} {d e : Device} (h : OnAir d e) (rs : List Reg) : SameRegistersOnAir rs c d e :=
  ⟨fun _ hr => h.regReadable (fun e => hr (e ▸ List.mem_cons_self)) fun e => hr (e ▸ List.mem_cons_of_mem _ List.mem_cons_self),
    h.featuresActive⟩

/-- With no payload left to send and no transmission in progress. -/
def OnAirIdle (d e : Device) : Prop := OnAir d e ∧ e.txq = [] ∧ e.txActive = false

theorem OnAirIdle.closed {d e : Device} (h : OnAirIdle d e) : OnAirIdle d { e with mosi := [], miso := [] } :=
  ⟨h.1.closed, h.2.1, h.2.2⟩

theorem radiatesAll_onAir {c : Config} {d : Device} (h : dynamicPayloadOn c d = false) : RadiatesAll c (OnAir d) where
  static _ hx _ := hx.dynamicPayloadOn.trans h
  start _ hx _ := by rw [hx]; rfl
  sent _ _ hx _ _ := by rw [hx]; rfl
  lost _ _ hx _ _ := by rw [hx]; rfl
  deliver _ _ hx := by rw [hx]; rfl

theorem radiatesAll_onAirIdle {c : Config} {d : Device} (h : dynamicPayloadOn c d = false) : RadiatesAll c (OnAirIdle d) where
  static _ hx _ := hx.1.dynamicPayloadOn.trans h
  start _ hx hq := absurd hx.2.1 hq
  sent _ _ hx ha _ := absurd ha (by simp [hx.2.2])
  lost _ _ hx ha _ := absurd ha (by simp [hx.2.2])
  deliver _ e hx := ⟨(radiatesAll_onAir h).deliver _ e hx.1, hx.2⟩

/-- The flags of `d` that are set are set in `e`, and the payloads received stay, new ones behind them. -/
def NothingLost (d e : Device) : Prop :=
  (d.rxDR = true → e.rxDR = true) ∧ (d.txDS = true → e.txDS = true) ∧ (d.maxRT = true → e.maxRT = true) ∧ d.rxq <+: e.rxq

theorem NothingLost.refl (d : Device) : NothingLost d d := ⟨id, id, id, List.prefix_rfl⟩

theorem radiatesAll_nothingLost {c : Config} {d : Device} (h : dynamicPayloadOn c d = false) :
    RadiatesAll c fun e => OnAir d e ∧ NothingLost d e where
  static _ hx _ := hx.1.dynamicPayloadOn.trans h
  start _ hx hq := ⟨(radiatesAll_onAir h).start _ hx.1 hq, hx.2⟩
  sent _ _ hx ha hs := ⟨(radiatesAll_onAir h).sent _ _ hx.1 ha hs, hx.2.1, fun _ => rfl, hx.2.2.2⟩
  lost _ _ hx ha hs := ⟨(radiatesAll_onAir h).lost _ _ hx.1 ha hs, hx.2.1, hx.2.2.1, fun _ => rfl, hx.2.2.2.2⟩
  deliver _ e hx := ⟨(radiatesAll_onAir h).deliver _ e hx.1, fun _ => rfl, hx.2.2.1, hx.2.2.2.1,
    hx.2.2.2.2.trans (List.prefix_append ..)⟩

/-! ## Frames through them -/

/-- The frames `fs` take every device of the family `A d` to one of `A e`, through families that the environment keeps. -/
def FramesThrough (c : Config) (A : Device → Device → Prop) : Device → List (List (List Byte)) → Device → Prop
  | d, [], e => d = e
  | d, outs :: fs, e =>
      RadiatesAll c (A d) ∧ ∃ i d', decode outs.flatten = some i ∧ commandRefusal c i = none
        ∧ (∀ x, A d x → ∃ y, commitDev c x i = some y ∧ A d' { y with mosi := [], miso := [] }) ∧ FramesThrough c A d' fs e

theorem run_framesThrough {c : Config} {A : Device → Device → Prop} {j T : Nat} {e : Device} (hT : c.porMs ≤ T)
    (fs : List (List (List Byte))) : ∀ {d : Device} {code : List Action} {s : State},
      Stage c (Allowed FailureFreeMove c) (j + fs.length) T (A d) (fs.map .frame ++ code) s → FramesThrough c A d fs e →
      ∃ k t, run k s = .next t ∧ Stage c (Allowed FailureFreeMove c) j T (A e) code t ∧ Kept s t := by
  induction fs with
  | nil => rintro d code s h rfl; exact ⟨0, s, rfl, h, .refl s⟩
  | cons outs fs ih =>
    rintro d code s h ⟨hE, i, d', h1, h2, h3, h4⟩
    obtain ⟨k, t, x, k1, k2, -, k3, -⟩ := run_frame (j := j + fs.length) (D' := A d') (schedules_failureFree c) (keeps_failureFree hE)
      h hT h1 h2 h3
    obtain ⟨k', u, l1, l2, l3⟩ := ih k2 h4
    exact ⟨k + k', u, run_trans k1 l1, l2, k3.kept.trans l3⟩

/-- A store of a register leaves the device on air from the stored one. -/
theorem OnAir.regStore {d x : Device} (h : OnAir d x) (r : Reg) (v : List Byte) : OnAir (regStore d r v) (regStore x r v) := by
  rw [h]; cases r <;> rfl

theorem OnAir.setTxActive {d x : Device} (h : OnAir d x) (b : Bool) : OnAir d { x with txActive := b } := by
  rw [h]; rfl

/-- The side effects of a register write stay within what the radio core writes. -/
theorem OnAir.writeSideEffects {c : Config} {d x o : Device} {r : Reg} (h : OnAir d x) : OnAir d (writeSideEffects c r o x) := by
  rcases writeSideEffects_cases c r o x with e | ⟨-, e⟩ <;> rw [e]
  · exact h
  · exact h.setTxActive false

/-- `WriteReg(a, bs)` of a register that no feature gates, legal. -/
theorem onAir_write {c : Config} {d x : Device} {a : RegAddr} {r : Reg} {v : Byte} {ds : List Byte} (h : Structural c)
    (hr : c.regAt a = some r) (hl : (v :: ds).length = widthOfRule r) (ha : accessOfRule r = .rw) (hg : r.isFeatureReg = false)
    (hm : v &&& reservedOfRule r = 0#8) (hi : illegalOfRule r v = false) (hx : OnAir d x) :
    ∃ y, commitDev c x (.wRegister a (v :: ds)) = some y ∧ OnAir (Sys2Proof.Machine.regStore d r (v :: ds)) { y with mosi := [], miso := [] } :=
  ⟨_, commitDev_write h hr hl ha hg hm hi, (OnAir.writeSideEffects (hx.regStore r _)).closed⟩

theorem onAir_addr {c : Config} {d x : Device} {ad : RegAddr} {r : Reg} (h : Structural c) (a : Addr) (hr : c.regAt ad = some r)
    (hw : widthOfRule r = 5) (hx : OnAir d x) :
    ∃ y, commitDev c x (.wRegister ad (bytesOfAddr a)) = some y
      ∧ OnAir (Sys2Proof.Machine.regStore d r (bytesOfAddr a)) { y with mosi := [], miso := [] } :=
  ⟨_, commitDev_addr h a hr hw, (hx.regStore r _).closed⟩

theorem OnAir.clearFlags {d x : Device} (h : OnAir d x) (c : Config) (v : Byte) : OnAir (clearFlags c v d) (clearFlags c v x) := by
  rw [h]; rfl

theorem OnAir.closedBoth {d x : Device} (h : OnAir d x) : OnAir { d with mosi := [], miso := [] } { x with mosi := [], miso := [] } := by
  rw [h]; rfl

theorem OnAir.sideEffectsBoth {d x : Device} (h : OnAir d x) (c : Config) (r : Reg) (o o' : Device) :
    OnAir (Sys2Proof.Machine.writeSideEffects c r o d) (Sys2Proof.Machine.writeSideEffects c r o' x) := by
  have hx : OnAir d (Sys2Proof.Machine.writeSideEffects c r o' x) := h.writeSideEffects
  rcases writeSideEffects_cases c r o d with e | ⟨-, e⟩ <;> rw [e]
  · exact hx
  · rw [hx]; rfl

/-- A register write that completes at `d` completes at every device on air from it, and leaves it on air. -/
theorem onAir_wRegister {c : Config} {d x u : Device} {a : RegAddr} {bs : List Byte} (h : OnAir d x)
    (hu : commitDev c d (.wRegister a bs) = some u) :
    ∃ y, commitDev c x (.wRegister a bs) = some y ∧ OnAir { u with mosi := [], miso := [] } { y with mosi := [], miso := [] } := by
  have hc : wRegisterCommit a bs { State.reset with par := c, dev := d } = .next { State.reset with par := c, dev := u } :=
    commandCommit_of_commitDev (s := { State.reset with par := c, dev := d }) hu
  rcases wRegisterCommit_next hc with ⟨rfl, e⟩ | ⟨v, ds, r, rfl, hr, hl, hw⟩
  · cases congrArg State.dev e
    exact ⟨x, rfl, h.closedBoth⟩
  · have hr : c.regAt a = some r := hr
    have hl : (v :: ds).length = c.width r := hl
    rcases writeReg_next hw with ⟨ha, hm, e⟩ | ⟨ha, e⟩ | ⟨ha, hg, e⟩ | ⟨ha, hg, hm, hi, e⟩ <;> dsimp only at ha <;>
      cases congrArg State.dev e <;>
      simp only [commitDev, commandCommit, wRegisterCommit, writeReg, hr, hl, ne_eq, not_true_eq_false, if_false, ha]
    · dsimp only at hm
      simp only [hm, not_true_eq_false, if_false]
      exact ⟨_, rfl, (h.clearFlags c v).closedBoth⟩
    · exact ⟨_, rfl, h.closedBoth⟩
    · dsimp only at hg
      simp only [h.featuresGated, hg, if_true]
      exact ⟨_, rfl, h.closedBoth⟩
    · dsimp only at hg hm hi
      simp only [h.featuresGated, hg, hm, hi, not_true_eq_false, Bool.false_eq_true, if_false]
      exact ⟨_, rfl, ((h.regStore r (v :: ds)).sideEffectsBoth c r d x).closedBoth⟩

/-- A legal write of one byte, as the next frame. -/
theorem framesThrough_byte {c : Config} {d e : Device} {a v : Byte} {r : Reg} {fs : List (List (List Byte))} (hs : Structural c)
    (hdp : dynamicPayloadOn c d = false) (hr : c.regAt (a.setWidth 5) = some r) (hw : widthOfRule r = 1) (ha : accessOfRule r = .rw)
    (hg : r.isFeatureReg = false) (hm : v &&& reservedOfRule r = 0#8) (hi : illegalOfRule r v = false)
    (hf : FramesThrough c OnAir (Sys2Proof.Machine.regStore d r [v]) fs e) : FramesThrough c OnAir d ([[writeCmd c a, v]] :: fs) e :=
  ⟨radiatesAll_onAir hdp, .wRegister (a.setWidth 5) [v], _, by simpa using decode_writeCmd hs a _, addressRefusal_of_some hr,
    fun _ hx => onAir_write hs hr (hw ▸ rfl) ha hg hm hi hx, hf⟩

/-- A write of the 5 bytes of an address, as the next frame. -/
theorem framesThrough_addr {c : Config} {d e : Device} {a : Byte} {r : Reg} {x : Addr} {fs : List (List (List Byte))} (hs : Structural c)
    (hdp : dynamicPayloadOn c d = false) (hr : c.regAt (a.setWidth 5) = some r) (hw : widthOfRule r = 5)
    (hf : FramesThrough c OnAir (Sys2Proof.Machine.regStore d r (bytesOfAddr x)) fs e) :
    FramesThrough c OnAir d ([[writeCmd c a], bytesOfAddr x] :: fs) e :=
  ⟨radiatesAll_onAir hdp, .wRegister (a.setWidth 5) (bytesOfAddr x), _, by simpa using decode_writeCmd hs a _, addressRefusal_of_some hr,
    fun _ hx => onAir_addr hs _ hr hw hx, hf⟩

theorem OnAirIdle.flushTx {c : Config} {d x : Device} (h : OnAir d x) :
    ∃ y, commitDev c x (.flushTx []) = some y ∧ OnAirIdle d { y with mosi := [], miso := [] } :=
  ⟨{ x with txq := [], txActive := false }, rfl, by unfold OnAirIdle; rw [h]; exact ⟨rfl, rfl, rfl⟩⟩

theorem OnAirIdle.flushRx {c : Config} {d x : Device} (h : OnAirIdle d x) :
    ∃ y, commitDev c x (.flushRx []) = some y ∧ OnAirIdle d { y with mosi := [], miso := [] } :=
  ⟨{ x with rxq := [] }, rfl, by rw [h.1]; rfl, h.2⟩

/-- FLUSH_TX and FLUSH_RX: no payload is left to send, and none comes in to be sent. -/
theorem run_flushBoth_onAir {c : Config} {d : Device} {j T : Nat} {code : List Action} {s : State} (hdp : dynamicPayloadOn c d = false)
    (h : Stage c (Allowed FailureFreeMove c) (j + 2) T (OnAir d) (flushBoth ++ code) s) (hT : c.porMs ≤ T) :
    ∃ k t, run k s = .next t ∧ Stage c (Allowed FailureFreeMove c) j T (OnAirIdle d) code t ∧ Kept s t := by
  obtain ⟨k1, y, x1, y1, y2, -, y3, -⟩ := run_frame (j := j + 1) (i := .flushTx []) (D' := OnAirIdle d) (outs := [[0xE1#8]])
    (code := .frame [[0xE2#8]] :: code) (schedules_failureFree c) (keeps_failureFree (radiatesAll_onAir hdp)) h hT rfl rfl
    fun x hx => OnAirIdle.flushTx hx
  obtain ⟨k2, z, x2, z1, z2, -, z3, -⟩ := run_frame (j := j) (i := .flushRx []) (D' := OnAirIdle d)
    (schedules_failureFree c) (keeps_failureFree (radiatesAll_onAirIdle hdp)) y2 hT rfl rfl fun x hx => OnAirIdle.flushRx hx
  exact ⟨_, z, run_trans y1 z1, z2, y3.kept.trans z3.kept⟩

/-! ## Register reads whose bytes are kept -/

/-- The record does not look at the status bytes of the reads. -/
theorem dumpRecord_congr {ks ls : List (List (List Byte))} (h : ks.map (·.getD 1 []) = ls.map (·.getD 1 [])) : dumpRecord ks = dumpRecord ls := by
  have e : ∀ (l : List (List (List Byte))) k, (l.getD k []).getD 1 [] = (l.map (·.getD 1 [])).getD k [] := by
    intro l k
    simp only [List.getD_eq_getElem?_getD, List.getElem?_map]
    cases l[k]? <;> rfl
  have hg : ∀ k, (ks.getD k []).getD 1 [] = (ls.getD k []).getD 1 [] := fun k => by rw [e, e, h]
  simp only [dumpRecord, insByte, hg]

/-- A list of reads of registers that the radio core does not write, each with the line that keeps its bytes. -/
theorem run_readsKeep_onAir {c : Config} {d : Device} {T : Nat} (hdp : dynamicPayloadOn c d = false) (hs : Structural c)
    (hT : c.porMs ≤ T) (rs : List (Byte × Reg × Nat))
    (hx : ∀ x ∈ rs, c.regAt (x.1.setWidth 5) = some x.2.1 ∧ (regReadable c d x.2.1).length = x.2.2 ∧ x.2.1 ≠ .status ∧ x.2.1 ≠ .fifoStatus) :
    ∀ {j : Nat} {code : List Action} {s : State},
      Stage c (Allowed FailureFreeMove c) (j + 2 * rs.length) T (OnAir d) ((rs.flatMap fun x => [readRegN c x.1 x.2.2, .keep]) ++ code) s →
      ∃ k t, run k s = .next t ∧ Stage c (Allowed FailureFreeMove c) j T (OnAir d) code t
        ∧ t.loc.kept.map (·.getD 1 []) = s.loc.kept.map (·.getD 1 []) ++ rs.map (fun x => regReadable c d x.2.1) ∧ t.ce = s.ce
        ∧ t.payloadSize = s.payloadSize ∧ t.pipe0Cache = s.pipe0Cache ∧ t.program = s.program ∧ t.results = s.results := by
  have hP := schedules_failureFree c
  have hE : Keeps (Allowed FailureFreeMove c) c true (OnAir d) := keeps_failureFree (radiatesAll_onAir hdp)
  induction rs with
  | nil =>
    intro j code s h
    exact ⟨0, s, rfl, h, by simp, rfl, rfl, rfl, rfl, rfl⟩
  | cons x rs ih =>
    intro j code s h
    obtain ⟨h1, h2, h3, h4⟩ := hx x List.mem_cons_self
    obtain ⟨k, t, e, k1, k2, k3, -, k4, -, -, k5⟩ := run_readReg (j := j + 2 * rs.length + 1) (D' := OnAir d) (n := x.2.2)
      (code := .keep :: (rs.flatMap fun x => [readRegN c x.1 x.2.2, .keep]) ++ code) hP hE hs
      (by rw [List.length_cons, Nat.mul_succ] at h; exact h) hT h1 fun _ hd => hd.closed
    have hk : t.loc.ins.getD 1 [] = regReadable c d x.2.1 := by
      rw [k5 { s with par := c, dev := e } rfl rfl rfl, map_regByte, k4.regReadable h3 h4, h2, Nat.sub_self, List.take_of_length_le h2.le]
      simp
    obtain ⟨k', u, l1, l2, l3, l4, l5, l6, l7, -, l8, -⟩ := run_local (j := j + 2 * rs.length) (as := [])
      (l := { t.loc with kept := t.loc.kept ++ [t.loc.ins] }) hP hE k2 fun v dr hv => by
        simp only [runAction, keepStep, hv.loc, List.nil_append, ← hv.code]
    obtain ⟨k'', w, m1, m2, m3, m4, m5, m6, m7, m8⟩ := ih (fun y hy => hx y (List.mem_cons_of_mem _ hy)) l2
    refine ⟨_, w, run_trans (run_trans k1 l1) m1, m2, ?_, m4.trans (l4.trans k3.ce), m5.trans (l5.trans k3.payloadSize),
      m6.trans (l6.trans k3.pipe0Cache), m7.trans (l7.trans k3.program), m8.trans (l8.trans k3.results)⟩
    rw [m3, l3]
    have hl : t.loc.kept = s.loc.kept := by rw [k3.locals]
    simp only [List.map_append, List.map_cons, List.map_nil, hk, hl, List.append_assoc, List.singleton_append]

/-! ## Calls -/

theorem run_call_onAir {D : Device → Prop} {as : List Action} {op : HostOp} {p : List HostOp} {s : State} (hE : RadiatesAll s.par D)
    (hc : CallsOnAir s op p) (hD : D s.dev) (h : ∀ u : State, u.par = s.par → u.payloadSize = s.payloadSize → startOp op u = runLines as u) :
    ∃ k t, run k s = .next t ∧ Called s as op p t ∧ ∀ j, Stage s.par (Allowed FailureFreeMove s.par) j s.clock D as t :=
  run_call_stage (schedules_failureFree _) (keeps_failureFree hE) hc.toCallsUnder hc.csn hD h

end Sys2Proof.Machine
end

