-- ==== Sys2Proof/Laws/PerInstr.lean ====
section
/-! SUPPORT. Facts about every wire command as syntax, one lemma per constructor. Family `TableWord`: the command byte fits the
match and mask of its row of spec/opcode_table.json, and the frame is the command byte followed by the data phase. -/

namespace Sys2Proof.Laws.TableWord

/-- Mask of the command's row. -/
def mask : Instr → Byte
  | .rRegister _ _ => 0xE0#8
  | .wRegister _ _ => 0xE0#8
  | .activate _ => 0xFF#8
  | .rRxPlWid _ => 0xFF#8
  | .rRxPayload _ => 0xFF#8
  | .wTxPayload _ => 0xFF#8
  | .flushTx _ => 0xFF#8
  | .flushRx _ => 0xFF#8
  | .nop _ => 0xFF#8

/-- Match of the command's row. -/
def word : Instr → Byte
  | .rRegister _ _ => 0x00#8
  | .wRegister _ _ => 0x20#8
  | .activate _ => 0x50#8
  | .rRxPlWid _ => 0x60#8
  | .rRxPayload _ => 0x61#8
  | .wTxPayload _ => 0xA0#8
  | .flushTx _ => 0xE1#8
  | .flushRx _ => 0xE2#8
  | .nop _ => 0xFF#8

def Statement (i : Instr) : Prop := encode i = i.commandByte :: i.data ∧ i.commandByte &&& mask i = word i

theorem rRegister (a : RegAddr) (d : List Byte) : Statement (.rRegister a d) := ⟨rfl, by simp only [Instr.commandByte, mask, word]; revert a; decide⟩
theorem wRegister (a : RegAddr) (d : List Byte) : Statement (.wRegister a d) := ⟨rfl, by simp only [Instr.commandByte, mask, word]; revert a; decide⟩
theorem activate (d : List Byte) : Statement (.activate d) := ⟨rfl, by simp only [Instr.commandByte, mask, word]; decide⟩
theorem rRxPlWid (d : List Byte) : Statement (.rRxPlWid d) := ⟨rfl, by simp only [Instr.commandByte, mask, word]; decide⟩
theorem rRxPayload (d : List Byte) : Statement (.rRxPayload d) := ⟨rfl, by simp only [Instr.commandByte, mask, word]; decide⟩
theorem wTxPayload (d : List Byte) : Statement (.wTxPayload d) := ⟨rfl, by simp only [Instr.commandByte, mask, word]; decide⟩
theorem flushTx (d : List Byte) : Statement (.flushTx d) := ⟨rfl, by simp only [Instr.commandByte, mask, word]; decide⟩
theorem flushRx (d : List Byte) : Statement (.flushRx d) := ⟨rfl, by simp only [Instr.commandByte, mask, word]; decide⟩
theorem nop (d : List Byte) : Statement (.nop d) := ⟨rfl, by simp only [Instr.commandByte, mask, word]; decide⟩

end Sys2Proof.Laws.TableWord
end

