-- ==== Sys2Proof/Laws/Transmit.lean ====
section
/-! SUPPORT. The parts of `transmit` under any schedule without a failure (44_transfer_engine.md R120 to R123): entering Transmit, the
bounded poll, and finishing, each for devices the caller names. -/

namespace Sys2Proof.Machine

open Sys2Proof.Safety

/-- What these lines keep besides the device, the draws and the other locals; the trace grows. -/
structure Polled (s t : State) : Prop where
  ce : t.ce = s.ce
  payloadSize : t.payloadSize = s.payloadSize
  pipe0Cache : t.pipe0Cache = s.pipe0Cache
  program : t.program = s.program
  results : t.results = s.results
  trace : s.trace <+: t.trace
  t0 : t.loc.t0 = s.loc.t0
  clock : s.clock ≤ t.clock
  toGo : ∀ K, toGo K t ≤ toGo K s

theorem Polled.trans {s t u : State} (h : Polled s t) (k : Polled t u) : Polled s u :=
  ⟨k.ce.trans h.ce, k.payloadSize.trans h.payloadSize, k.pipe0Cache.trans h.pipe0Cache, k.program.trans h.program,
   k.results.trans h.results, h.trace.trans k.trace, k.t0.trans h.t0, h.clock.trans k.clock, fun K => (k.toGo K).trans (h.toGo K)⟩

theorem Kept.polled {s t : State} (h : Kept s t) : Polled s t :=
  ⟨h.ce, h.payloadSize, h.pipe0Cache, h.program, h.results, h.trace, by rw [h.locals], h.clock, h.toGo⟩

/-- `Now()`: the local takes a time not before the line. -/
theorem run_now {c : Config} {P : Nat → List Move → Prop} {D : Device → Prop} {j T : Nat} {code : List Action} {s : State}
    (hP : Schedules c P) (hE : Keeps P c true D) (h : Stage c P (j + 1) T D (.now :: code) s) :
    ∃ k t, run k s = .next t ∧ Stage c P j t.loc.time D code t ∧ Polled s t ∧ s.clock ≤ t.loc.time
      ∧ t.loc = { s.loc with time := t.loc.time } := by
  obtain ⟨k, v, w, idle, k1, k2, k3, k4, rfl, k5, k6, -⟩ := run_line_next hP hE h
    (Q := fun v w => w = nowStep v) fun v dr _ _ _ => ⟨_, rfl, rfl, le_rfl, rfl⟩
  have hv := k2.clock
  exact ⟨k, _, k1, ⟨k2.par.trans h.par, k2.csn.trans h.csn, k4, by simp [nowStep], k3, k2.code⟩,
    ⟨k2.ce, k2.payloadSize, k2.pipe0Cache, k2.program, k2.results, by simp [nowStep, k2.trace], by simp [nowStep, k2.loc],
      by simp [nowStep]; omega, k6⟩, hv, by simp [nowStep, k2.loc]⟩

/-- `t0 <- Now()`: the deadline counts from a time not before the line. -/
theorem run_startDeadline {c : Config} {P : Nat → List Move → Prop} {D : Device → Prop} {j T : Nat} {code : List Action} {s : State}
    (hP : Schedules c P) (hE : Keeps P c true D) (h : Stage c P (j + 2) T D (.now :: .startDeadline :: code) s) :
    ∃ k t, run k s = .next t ∧ Stage c P j t.loc.t0 D code t ∧ T ≤ t.loc.t0 ∧ t.ce = s.ce ∧ t.payloadSize = s.payloadSize
      ∧ t.pipe0Cache = s.pipe0Cache ∧ t.program = s.program ∧ t.results = s.results ∧ s.trace <+: t.trace := by
  obtain ⟨k, v, k1, k2, k3, k4, -⟩ := run_now (j := j + 1) hP hE h
  obtain ⟨k', t, l1, l2, l3, l4, l5, l6, l7, -, l8, l9, -⟩ := run_local (as := []) (l := { v.loc with t0 := v.loc.time }) hP hE k2
    fun u dr hu => by simp only [runAction, startDeadlineStep, hu.loc, List.nil_append, ← hu.code]
  exact ⟨k + k', t, run_trans k1 l1, by rw [l3]; exact l2, by rw [l3]; exact h.clock.trans k4, l4.trans k3.ce,
    l5.trans k3.payloadSize, l6.trans k3.pipe0Cache, l7.trans k3.program, l8.trans k3.results, by rw [l9]; exact k3.trace⟩

/-- What the poll ended with: the STATUS byte of a device of `D`, with a flag set or with the deadline `K` reached. -/
def PollEnd (c : Config) (D : Device → Prop) (K : Nat) (t : State) : Prop :=
  ∃ d, D d ∧ t.loc.status = statusByte c d ∧ (d.txDS = true ∨ d.maxRT = true ∨ K ≤ t.clock)

/-- The flags of the STATUS byte just read decide (R122): finish, or test the deadline. -/
theorem run_pollFlags {c : Config} {P : Nat → List Move → Prop} {D : Device → Prop} {j T : Nat} {code : List Action} {s : State}
    (hP : Schedules c P) (hE : Keeps P c true D) (h : Stage c P (j + 1) T D (.pollFlags :: code) s) :
    let v := insByte s.loc.ins 1 0
    ∃ k t, run k s = .next t
      ∧ Stage c P j T D ((if v.getLsbD 5 || v.getLsbD 4 then finishTransmit c else [.now, .pollDeadline]) ++ code) t
      ∧ Polled s t ∧ t.loc.status = v := by
  intro v
  obtain ⟨k, t, l1, l2, l3, l4, l5, l6, l7, -, l8, l9, -, l11, l10, -⟩ := run_local (l := { s.loc with status := v })
    (as := if v.getLsbD 5 || v.getLsbD 4 then finishTransmit c else [.now, .pollDeadline]) hP hE h fun u dr hu => by
      simp only [runAction, pollFlagsStep, hu.loc, hu.par, h.par, ← hu.code]
      split <;> simp_all [State.pushCode, v]
  exact ⟨k, t, l1, l2, ⟨l4, l5, l6, l7, l8, by rw [l9], by rw [l3], l11, l10⟩, by rw [l3]⟩

/-- The bounded poll, from its head to the first line of the finish: it ends, because what is left of the run up to the deadline shrinks
with every round. -/
theorem run_poll {c : Config} {P : Nat → List Move → Prop} {D : Device → Prop} (hs : Structural c) (hP : Schedules c P)
    (hN : ∀ j j' l, P j l → P j' l) (hE : Keeps P c true D) (hD : ∀ d, D d → D { d with mosi := [], miso := [] }) {T : Nat} (hT : c.porMs ≤ T)
    (N : Nat) : ∀ {j : Nat} {s : State}, s.loc.t0 ≤ T → toGo (s.loc.t0 + c.txTimeoutMs) s ≤ N → Stage c P j T D [.poll] s →
      ∃ k t, run k s = .next t ∧ Stage c P j T D (finishTransmit c) t ∧ Polled s t ∧ PollEnd c D (s.loc.t0 + c.txTimeoutMs) t := by
  induction N using Nat.strong_induction_on with
  | _ N ih =>
    intro j s h0 hg h
    have any : ∀ {j j' T : Nat} {D : Device → Prop} {code : List Action} {s : State}, Stage c P j T D code s → Stage c P j' T D code s :=
      fun h => ⟨h.par, h.csn, hN _ _ _ h.sched, h.clock, h.dev, h.code⟩
    obtain ⟨k, t, l1, l2, l3, l4, l5, l6, l7, -, l8, l9, -, l11, l12, l10⟩ := run_local (j := 9) (l := s.loc)
      (as := [readReg1 c 0x08#8, readReg1 c 0x07#8, .pollFlags]) hP hE (any h) fun u dr hu => by
        simp only [runAction, pollStep, State.pushCode, hu.par, h.par, hu.code, ← hu.loc]
    obtain ⟨k1, u, -, u1, u2, u3, -⟩ := run_readReg (r := .observeTx) hP hE hs l2 hT (regAt_of hs rfl) hD
    obtain ⟨k2, v, d, v1, v2, v3, -, hd, -, -, hins⟩ := run_readReg (r := .status) hP hE hs u2 hT (regAt_of hs rfl) hD
    have hv : insByte v.loc.ins 1 0 = statusByte c d := by
      rw [hins { u with par := c, dev := d } rfl rfl rfl]
      simp [insByte, regByte, regReadable, Reg.isFeatureReg, regStored]
    obtain ⟨k3, w, w1, w2, w3, w4⟩ := run_pollFlags (j := 6) hP hE v2
    obtain ⟨-, f5, f4⟩ := statusByte_flags hs d
    rw [hv] at w2 w4
    rw [f5, f4] at w2
    have hrun := run_trans l1 (run_trans u1 (run_trans v1 w1))
    have hkeep : Polled s w := Polled.trans ⟨l4, l5, l6, l7, l8, by rw [l9], by rw [l3], l11, l12⟩ ((u3.trans v3).polled.trans w3)
    by_cases hflag : (d.txDS || d.maxRT) = true
    · rw [if_pos hflag] at w2
      refine ⟨_, w, hrun, any (by simpa using w2), hkeep, d, hd, w4, ?_⟩
      simp only [Bool.or_eq_true] at hflag
      tauto
    · rw [if_neg hflag] at w2
      obtain ⟨k4, x, x1, x2, x3, x4, x5⟩ := run_now (j := 5) hP hE w2
      have hx0 : x.loc.t0 = s.loc.t0 := by rw [x3.t0, hkeep.t0]
      obtain ⟨k5, z, z1, z2, z3, z4, z5, z6, z7, -, z8, z9, -, z10, z11, -⟩ := run_local (j := 4) (l := x.loc)
        (as := if c.txTimeoutMs ≤ x.loc.time - s.loc.t0 then finishTransmit c else [.poll]) hP hE x2 fun u dr hu => by
          have hp : u.par = c := hu.par.trans x2.par
          simp only [runAction, pollDeadlineStep, hu.loc, hp, hx0]
          split <;> simp only [State.pushCode, hu.code, ← hu.loc, ← hp]
      have hrun' := run_trans hrun (run_trans x1 z1)
      have hkeep' : Polled s z := hkeep.trans (x3.trans ⟨z4, z5, z6, z7, z8, by rw [z9], by rw [z3], z10, z11⟩)
      have hzT := z2.clock
      have hwT := w2.clock
      have back : ∀ {code : List Action}, Stage c P 4 x.loc.time D code z → Stage c P j T D code z :=
        fun h => any (h.imp (hwT.trans x4) fun _ h => h)
      by_cases hdl : c.txTimeoutMs ≤ x.loc.time - s.loc.t0
      · rw [if_pos hdl] at z2
        refine ⟨_, z, hrun', back (by simpa using z2), hkeep', d, hd, ?_, .inr (.inr ?_)⟩
        · rw [z3, x5]; exact w4
        · omega
      · rw [if_neg hdl] at z2
        have hlt : t.clock ≤ s.loc.t0 + c.txTimeoutMs := by
          have h1 := u3.clock; have h2 := v3.clock; have h3 := w3.clock
          omega
        have hz : toGo (z.loc.t0 + c.txTimeoutMs) z < N := by
          rw [hkeep'.t0]
          have h1 := l10 _ hlt
          have h2 := u3.toGo (s.loc.t0 + c.txTimeoutMs); have h3 := v3.toGo (s.loc.t0 + c.txTimeoutMs)
          have h4 := w3.toGo (s.loc.t0 + c.txTimeoutMs); have h5 := x3.toGo (s.loc.t0 + c.txTimeoutMs)
          have h6 := z11 (s.loc.t0 + c.txTimeoutMs)
          omega
        obtain ⟨k6, q, q1, q2, q3, q4⟩ := ih _ hz (by rw [hkeep'.t0]; exact h0) le_rfl (back (by simpa using z2))
        rw [hkeep'.t0] at q4
        exact ⟨_, q, run_trans hrun' q1, q2, hkeep'.trans q3, q4⟩

/-- Enter Transmit, up to the CE pulse: CE low, flags cleared, PTX mode, and the payload sent in one exchange call. -/
theorem run_enterTransmit {c : Config} {P : Nat → List Move → Prop} {D₀ D₁ D₂ D₃ : Device → Prop} {j T : Nat} {v : Byte} {p : List Byte}
    {s : State} (hs : Structural c) (hP : Schedules c P) (hE₀ : Keeps P c true D₀) (hE₁ : Keeps P c true D₁) (hE₂ : Keeps P c true D₂)
    (h : Stage c P (j + 6 + 2 * (powerUpWait c).length) T D₀ (enterTransmit c p) s) (hT : c.porMs ≤ T) (hv : v.getLsbD 7 = false)
    (hp : 1 ≤ p.length ∧ p.length ≤ 32)
    (hclear : ∀ d, D₀ d → D₁ { clearFlags c 0x70#8 d with mosi := [], miso := [] })
    (hread : ∀ d, D₁ d → d.config = v ∧ D₁ { d with mosi := [], miso := [] })
    (hmode : ∀ d ta, D₁ d → (ta = true → d.txActive = true) →
      D₂ { d with config := (v ||| 0x02#8) &&& ~~~0x01#8, txActive := ta, mosi := [], miso := [] })
    (hload : ∀ d, D₂ d → D₃ { d with
      txq := if d.txq.length < c.txFifoDepth then d.txq ++ [p] else d.txq, mosi := [], miso := [] }) :
    ∃ k t, run k s = .next t ∧ Stage c P j T D₃ (cePulse c ++ [.now, .startDeadline, .poll]) t ∧ Kept { s with ce := false } t ∧ Sent p t := by
  have hcode : enterTransmit c p = .setCE false :: clearStatusAll c :: readReg1 c 0x00#8 :: .rmw 0x00#8 0x02#8 0x01#8 ::
      (powerUpWait c ++ cmdData 0xA0#8 p :: (cePulse c ++ [.now, .startDeadline, .poll])) := by simp [enterTransmit, setModePtx]
  rw [hcode, show j + 6 + 2 * (powerUpWait c).length = j + 1 + 2 * (powerUpWait c).length + 5 by omega] at h
  obtain ⟨k1, t1, r1, h1, -, e1, -⟩ := run_setCE hP hE₀ h
  obtain ⟨k2, t2, d2, r2, h2, -, e2, -⟩ := run_frame hP hE₀ h1 hT (decode_writeCmd hs 0x07#8 [0x70#8])
    (addressRefusal_of_some (regAt_of (r := .status) hs rfl)) fun d hd => ⟨_, commitDev_status hs rfl, hclear d hd⟩
  obtain ⟨k3, t3, r3, h3, e3⟩ := run_rmw (v := v) (D₂ := D₂) hP hE₁ hE₁ hs h2 hT (regAt_of (r := .config) hs rfl)
    (fun d hd => ⟨congrArg (fun x => [x]) (hread d hd).1, (hread d hd).2⟩) fun d hd => by
      obtain ⟨ta, e, hta⟩ := writeSideEffects_config c d ((v ||| 0x02#8) &&& ~~~0x01#8)
      exact ⟨_, commitDev_byte hs (regAt_of hs rfl) rfl rfl rfl (config_rmw_legal hv rfl _) rfl, by rw [e]; exact hmode d ta hd hta⟩
  obtain ⟨k4, t4, r4, h4, e4, -⟩ := run_powerUpWait hP hE₂ h3
  obtain ⟨k5, t5, d5, r5, h5, -, e5, -⟩ := run_frame (i := .wTxPayload p) (D' := D₃) hP hE₂ h4 hT (by simp [decode, decodeCommand]) rfl fun d hd => by
    cases p with
    | nil => exact absurd hp.1 (by simp)
    | cons b bs =>
      refine ⟨{ d with txq := if d.txq.length < c.txFifoDepth then d.txq ++ [b :: bs] else d.txq }, ?_, hload d hd⟩
      simp only [commitDev, commandCommit, wTxPayloadCommit, hs.maxPayload, if_neg (Nat.not_lt.2 hp.2)]
      by_cases hq : d.txq.length < c.txFifoDepth
      · simp only [if_pos hq]; rfl
      · simp only [if_neg hq]
  refine ⟨_, t5, run_trans r1 (run_trans r2 (run_trans r3 (run_trans r4 r5))), h5, e1.trans (e2.kept.trans (e3.trans (e4.trans e5.kept))),
    t5.loc.ins.getD 1 [], ?_⟩
  rw [e5.trace, e5.ins { t4 with par := c, dev := d5 } rfl rfl rfl]
  simp [frameEvents, splitMiso]

/-- Finish Transmit: flags cleared, TX FIFO flushed, power down, and the result of the last STATUS byte. -/
theorem run_finishTransmit {c : Config} {P : Nat → List Move → Prop} {D₀ D₁ D₂ D₃ : Device → Prop} {j T : Nat} {v : Byte} {s : State}
    (hs : Structural c) (hP : Schedules c P) (hE₀ : Keeps P c true D₀) (hE₁ : Keeps P c true D₁) (hE₂ : Keeps P c true D₂)
    (hE₃ : Keeps P c true D₃) (h : Stage c P (j + 6) T D₀ (finishTransmit c) s) (hT : c.porMs ≤ T) (hv : v.getLsbD 7 = false)
    (hclear : ∀ d, D₀ d → D₁ { clearFlags c 0x70#8 d with mosi := [], miso := [] })
    (hflush : ∀ d, D₁ d → D₂ { d with txq := [], txActive := false, mosi := [], miso := [] })
    (hread : ∀ d, D₂ d → d.config = v ∧ d.txActive = false ∧ D₂ { d with mosi := [], miso := [] })
    (hdown : ∀ d, D₂ d → D₃ { d with config := (v ||| 0x00#8) &&& ~~~0x02#8, txActive := false, mosi := [], miso := [] }) :
    ∃ k t, run k s = .next t ∧ t.results = s.results ++ [transmitResult s.loc.status] ∧ t.op = none ∧ t.code = [] ∧ D₃ t.dev
      ∧ t.csn = true ∧ t.ce = s.ce ∧ t.par = c ∧ t.payloadSize = s.payloadSize ∧ t.pipe0Cache = s.pipe0Cache
      ∧ t.program = s.program ∧ s.trace <+: t.trace ∧ T ≤ t.clock := by
  obtain ⟨k1, t1, d1, r1, h1, -, e1, -⟩ := run_frame (j := j + 5) hP hE₀ h hT (decode_writeCmd hs 0x07#8 [0x70#8])
    (addressRefusal_of_some (regAt_of (r := .status) hs rfl)) fun d hd => ⟨_, commitDev_status hs rfl, hclear d hd⟩
  obtain ⟨k2, t2, d2, r2, h2, -, e2, -⟩ := run_frame (j := j + 4) (i := .flushTx []) hP hE₁ h1 hT rfl rfl fun d hd => ⟨_, rfl, hflush d hd⟩
  obtain ⟨k3, t3, r3, h3, e3⟩ := run_rmw (j := j + 1) (v := v) (D₂ := D₃) hP hE₂ hE₂ hs h2 hT (regAt_of (r := .config) hs rfl)
    (fun d hd => ⟨congrArg (fun x => [x]) (hread d hd).1, (hread d hd).2.2⟩) fun d hd => by
      obtain ⟨ta, e, hta⟩ := writeSideEffects_config c d ((v ||| 0x00#8) &&& ~~~0x02#8)
      obtain rfl : ta = false := by
        cases ta
        · rfl
        · exact absurd (hta rfl) (by simp [(hread d hd).2.1])
      exact ⟨_, commitDev_byte hs (regAt_of hs rfl) rfl rfl rfl (config_rmw_legal hv rfl _) rfl, by rw [e]; exact hdown d hd⟩
  obtain ⟨k4, t4, r4, f1, f2, f3, f4, f5, f6, f7, f8, f9, f10, f11, f12⟩ := run_ret hP hE₃ h3
  have e : Kept s t3 := e1.kept.trans (e2.kept.trans e3)
  refine ⟨_, t4, run_trans r1 (run_trans r2 (run_trans r3 r4)), ?_, f2, f3, f4, f5, f6.trans e.ce, f7, f8.trans e.payloadSize,
    f9.trans e.pipe0Cache, f10.trans e.program, f11 ▸ e.trace, f12⟩
  rw [f1, e.results, e.locals]; rfl

/-- From the fall of CE to the end of the call: the poll and the finish. -/
theorem run_transmitTail {c : Config} {P : Nat → List Move → Prop} {D₀ D₁ D₂ D₃ : Device → Prop} {j T : Nat} {v : Byte} {s : State}
    (hs : Structural c) (hP : Schedules c P) (hN : ∀ j j' l, P j l → P j' l) (hE₀ : Keeps P c true D₀) (hE₁ : Keeps P c true D₁)
    (hE₂ : Keeps P c true D₂) (hE₃ : Keeps P c true D₃) (h : Stage c P j T D₀ (.setCE false :: .now :: .startDeadline :: [.poll]) s)
    (hT : c.porMs ≤ T) (hv : v.getLsbD 7 = false)
    (hpoll : ∀ d, D₀ d → D₀ { d with mosi := [], miso := [] })
    (hclear : ∀ d, D₀ d → D₁ { clearFlags c 0x70#8 d with mosi := [], miso := [] })
    (hflush : ∀ d, D₁ d → D₂ { d with txq := [], txActive := false, mosi := [], miso := [] })
    (hread : ∀ d, D₂ d → d.config = v ∧ d.txActive = false ∧ D₂ { d with mosi := [], miso := [] })
    (hdown : ∀ d, D₂ d → D₃ { d with config := (v ||| 0x00#8) &&& ~~~0x02#8, txActive := false, mosi := [], miso := [] }) :
    ∃ k t d, run k s = .next t ∧ D₀ d ∧ t.results = s.results ++ [transmitResult (statusByte c d)] ∧ t.op = none ∧ t.code = []
      ∧ D₃ t.dev ∧ t.csn = true ∧ t.ce = false ∧ t.par = c ∧ t.payloadSize = s.payloadSize ∧ t.pipe0Cache = s.pipe0Cache
      ∧ t.program = s.program ∧ s.trace <+: t.trace ∧ (d.txDS = true ∨ d.maxRT = true ∨ T + c.txTimeoutMs ≤ t.clock) := by
  have any : Stage c P 3 T D₀ (.setCE false :: .now :: .startDeadline :: [.poll]) s :=
    ⟨h.par, h.csn, hN _ _ _ h.sched, h.clock, h.dev, h.code⟩
  obtain ⟨k4, d, d1, d2, d3, d4, -⟩ := run_setCE (j := 2) hP hE₀ any
  obtain ⟨k5, e, e1, e2, e3, e4, e5, e6, e7, e8, e9⟩ := run_startDeadline (j := 0) hP hE₀ d2
  obtain ⟨k6, f, f1, f2, f3, dd, hd, hst, hend⟩ := run_poll hs hP hN hE₀ hpoll (by omega) _ le_rfl le_rfl e2
  obtain ⟨k7, z, z1, z2, z3, z4, z5, z6, z7, z8, z9, z10, z11, z12, z13⟩ := run_finishTransmit (j := 0) hs hP hE₀ hE₁ hE₂
    hE₃ (T := f.clock) ⟨f2.par, f2.csn, hN _ _ _ f2.sched, le_rfl, f2.dev, f2.code⟩ (by have := f2.clock; omega) hv hclear hflush hread hdown
  refine ⟨_, z, dd, run_trans d1 (run_trans e1 (run_trans f1 z1)), hd, ?_, z3, z4, z5, z6, ?_, z8, ?_, ?_, ?_, ?_, ?_⟩
  · rw [z2, hst, f3.results, e8, d4.results]
  · rw [z7, f3.ce, e4, d3]
  · rw [z9, f3.payloadSize, e5, d4.payloadSize]
  · rw [z10, f3.pipe0Cache, e6, d4.pipe0Cache]
  · rw [z11, f3.program, e7, d4.program]
  · exact List.IsPrefix.trans (by simpa using d4.trace) (e9.trans (f3.trace.trans z12))
  · rcases hend with h | h | h
    · exact .inl h
    · exact .inr (.inl h)
    · exact .inr (.inr (by omega))

/-- What `transmit` reports of a STATUS byte. -/
theorem transmitResult_statusByte {c : Config} (hs : Structural c) (d : Device) :
    transmitResult (statusByte c d) = if d.txDS then .ok .delivered else if d.maxRT then .ok .notDelivered else .timeout := by
  obtain ⟨-, s5, s4⟩ := statusByte_flags hs d
  rw [transmitResult, s5, s4]

end Sys2Proof.Machine
end

