-- ==== Sys2Proof/Machine/Assembly.lean ====
section
/-! DEFINITION. The assembler lines of 30_encoding.md R80 as terms, and the MOSI byte list each stands for. The spelling of a line
as text is not part of the model (assumption 20). No step reads an assembler line. -/

namespace Sys2Proof.Machine

/-- `<reg>`: a register's name, or a number 0x00 to 0x1F. -/
inductive RegOperand where
  | name (r : Reg)
  | number (a : RegAddr)
  deriving DecidableEq, Repr

/-- The value of a W_REGISTER line: its bytes, or one 40-bit number for a 5-byte register. -/
inductive WriteOperand where
  | bytes (bs : List Byte)
  | number (a : Addr)
  deriving DecidableEq, Repr

/-- One line, one frame. -/
inductive AsmLine where
  /-- `R_REGISTER <reg> [, <n>]`: without `<n>`, the register's width -/
  | rRegister (reg : RegOperand) (n : Option Nat)
  /-- `W_REGISTER <reg>, ...` -/
  | wRegister (reg : RegOperand) (value : WriteOperand)
  /-- `R_RX_PAYLOAD <n>` -/
  | rRxPayload (n : Nat)
  /-- `W_TX_PAYLOAD <b0> ...` -/
  | wTxPayload (bs : List Byte)
  | flushTx
  | flushRx
  /-- `ACTIVATE 0x73` -/
  | activate
  | rRxPlWid
  | nop
  deriving DecidableEq, Repr

/-- The 5-bit address a `<reg>` stands for: a name stands for the address `REG_MAP` gives it. -/
def RegOperand.addr (c : Config) : RegOperand → Option RegAddr
  | .name r => c.addrOf r
  | .number a => some a

/-- The bytes a written value stands for: a 40-bit number stands for its `bytes(A)` (R80). -/
def WriteOperand.data : WriteOperand → List Byte
  | .bytes bs => bs
  | .number a => bytesOfAddr a

/-- `DUMMY_BYTE` for each byte read (R71, R80). -/
def dummies (c : Config) (n : Nat) : List Byte := List.replicate n c.dummyByte

/-- The command a line writes: none for a register name without a row in `REG_MAP`, and for a read without `<n>` of an address
that names no register. -/
def AsmLine.command (c : Config) : AsmLine → Option Instr
  | .rRegister reg (some n) => (reg.addr c).map fun a => .rRegister a (dummies c n)
  | .rRegister reg none =>
      (reg.addr c).bind fun a => (c.regAt a).map fun r => .rRegister a (dummies c (c.width r))
  | .wRegister reg value => (reg.addr c).map fun a => .wRegister a value.data
  | .rRxPayload n => some (.rRxPayload (dummies c n))
  | .wTxPayload bs => some (.wTxPayload bs)
  | .flushTx => some (.flushTx [])
  | .flushRx => some (.flushRx [])
  | .activate => some (.activate [0x73#8])
  | .rRxPlWid => some (.rRxPlWid (dummies c 1))
  | .nop => some (.nop [])

/-- "The line's encoding is the MOSI byte list" (R80). -/
def AsmLine.mosi (c : Config) (l : AsmLine) : Option (List Byte) := (l.command c).map encode

end Sys2Proof.Machine
end

