-- ==== Sys2Proof/Tests/Slice0.lean ====
section
/-! SUPPORT. The model's own tests: words of the spec decoded, ill-formed commands refused, vectors of 95_test_vectors.md (their names
stand in the theorem names; a byte the spec writes `??` is a free draw and is not compared), and one witness for the
hypotheses of each obligation. Every expected result is the spec's. -/

namespace Sys2Proof.Tests

open Sys2Proof.Machine Sys2Proof.Safety

/-! ## Helpers -/

/-- The parameters of this hardware. -/
abbrev hw : Config := Config.thisHardware

/-- The device after reset. -/
abbrev resetDev : Device := Device.reset hw

/-- The launch state once the power-on reset is over (the start of 95_test_vectors.md's vectors). -/
def launch : State := { State.reset with clock := 5 }

/-- `launch` with another device. -/
def withDev (d : Device) : State := { launch with dev := d }

/-- `launch`, holding RX entries. -/
def holding (es : List RxEntry) (rxDR : Bool) : State := withDev { resetDev with rxq := es, rxDR := rxDR }

/-- The entry `(1, [46 32])` of the vectors. -/
def entry1 : RxEntry := { pipe := 1#3, payload := [0x46#8, 0x32#8] }

/-- The entry `(2, [01 02])` of the vectors. -/
def entry2 : RxEntry := { pipe := 2#3, payload := [0x01#8, 0x02#8] }

/-- `launch` with these lines in front of the controller. -/
def running (as : List Action) : State := { launch with code := as }

/-- `launch` with this call of the host next. -/
def calling (op : HostOp) : State := { launch with program := [op] }

/-- `launch` after `initialize(2)`, as far as the calls read it. -/
def configured (op : HostOp) : State := { calling op with payloadSize := some 2 }

/-- The state a step gives. -/
def nextOf : Out → Option State
  | .next t => some t
  | .fault _ => none
  | .refused _ => none

/-- The reason a step is refused for. -/
def refusalOf : Out → Option Refusal
  | .next _ => none
  | .fault _ => none
  | .refused r => some r

/-- The first `n` MISO bytes and a view of the device after one frame. -/
def frameView {α : Type} (n : Nat) (f : Device → α) (bytes : List Byte) (s : State) : Option (List Byte × α) :=
  (nextOf (execBytes bytes s)).map fun t => (t.resp.take n, f t.dev)

/-- The parameters of this hardware have its shape, whatever the over-length policy. -/
theorem structural_hw : Structural hw := ⟨rfl, rfl, rfl, rfl, rfl, rfl, rfl⟩

theorem structural_truncate : Structural { hw with overlength := .truncate } := ⟨rfl, rfl, rfl, rfl, rfl, rfl, rfl⟩

/-- A call of the host under the empty schedule. -/
theorem callsUnder_of {ok : Config → Move → Prop} {s : State} {op : HostOp} {rest : List HostOp} (hp : s.par = hw) (hc : s.code = [])
    (hprog : s.program = op :: rest) (hs : s.sched = []) : CallsUnder ok s op rest where
  structural := hp ▸ structural_hw
  idle := hc
  program := hprog
  sched := fun _ h => by rw [hs] at h; cases h

/-- The default draws do not fail. -/
theorem noFailure_quiet : NoFailure hw Draw.quiet := ⟨rfl, fun _ h => nomatch h⟩

/-- Moves of every agent: the clock, a transmission started and completed, a packet delivered, and a slow controller. -/
def airMoves : List Move :=
  [.clock 3, .txStart, .run { Draw.quiet with idleMs := 7 }, .rxDeliver 0xF0F0F0F0D2#40 [0x46#8, 0x32#8] 0, .txComplete true]

/-- A call of the host while the radio core and the air move. -/
def onAir (s : State) : State := { s with sched := airMoves }

theorem callsOnAir_of {s : State} {op : HostOp} {rest : List HostOp} (hp : s.par = hw) (hc : s.code = []) (hprog : s.program = op :: rest)
    (hs : s.sched = airMoves) (hcsn : s.csn = true) (hk : 5 ≤ s.clock) (hd : dynamicPayloadOn s.par s.dev = false) :
    CallsOnAir s op rest where
  structural := hp ▸ structural_hw
  idle := hc
  program := hprog
  sched := fun m hm => by
    rw [hs] at hm
    simp only [airMoves, List.mem_cons, List.not_mem_nil, or_false] at hm
    rcases hm with rfl | rfl | rfl | rfl | rfl
    · trivial
    · trivial
    · exact ⟨rfl, fun _ h => nomatch h⟩
    · trivial
    · trivial
  csn := hcsn
  ready := by unfold Ready; rw [hp]; exact hk
  staticPayload := hd

/-- `transmit` of one byte with the payload size 2. -/
theorem transmits_configured {ok : Config → Move → Prop} : Transmits ok (configured (.transmit [0x46#8])) [0x46#8] 2 [] where
  toCallsUnder := callsUnder_of rfl rfl rfl rfl
  nonempty := by decide
  size := rfl
  sizeRange := by decide
  fits := .inl (by decide)
  csn := rfl
  ready := by unfold Ready; decide
  configLegal := by decide
  staticPayload := by decide

/-! ## Decoding: words written out from 30_encoding.md R73 and 95_test_vectors.md E8 -/

theorem test_decode_rRegister : decode [0b00000000#8, 0xFF#8] = some (.rRegister 0x00#5 [0xFF#8])
    ∧ decode [0b00011101#8] = some (.rRegister 0x1D#5 []) := by decide

theorem test_decode_wRegister : decode [0b00111101#8, 0x00#8] = some (.wRegister 0x1D#5 [0x00#8])
    ∧ decode [0b00100111#8, 0x70#8] = some (.wRegister 0x07#5 [0x70#8]) := by decide

theorem test_decode_activate : decode [0b01010000#8, 0b01110011#8] = some (.activate [0x73#8]) := by decide

theorem test_decode_rRxPlWid : decode [0b01100000#8, 0xFF#8] = some (.rRxPlWid [0xFF#8]) := by decide

theorem test_decode_rRxPayload : decode [0b01100001#8, 0xFF#8] = some (.rRxPayload [0xFF#8]) := by decide

theorem test_decode_wTxPayload : decode [0b10100000#8, 0x46#8, 0x32#8] = some (.wTxPayload [0x46#8, 0x32#8]) := by decide

theorem test_decode_flushTx : decode [0b11100001#8] = some (.flushTx []) := by decide

theorem test_decode_flushRx : decode [0b11100010#8] = some (.flushRx []) := by decide

theorem test_decode_nop : decode [0b11111111#8] = some (.nop []) := by decide

/-- W51 to W53: unlisted command bytes. -/
theorem test_decode_refused : decode [0x40#8] = none ∧ decode [0xE3#8] = none ∧ decode [0xA8#8, 0x01#8] = none
    ∧ decode [] = none := by decide

/-- 30_encoding.md R80: the encodings of three assembler lines. -/
theorem test_assembler_lines :
    AsmLine.mosi hw (.wRegister (.name .status) (.bytes [0x70#8])) = some [0x27#8, 0x70#8]
    ∧ AsmLine.mosi hw (.wRegister (.name .txAddr) (.number 0xF0F0F0F0E1#40))
      = some [0x30#8, 0xE1#8, 0xF0#8, 0xF0#8, 0xF0#8, 0xF0#8]
    ∧ AsmLine.mosi hw (.rRegister (.name .config) none) = some [0x00#8, 0xFF#8] := by decide

/-- A table word of two bytes: the second byte stands in bits 15..8. -/
theorem test_decodeTableWord : decodeTableWord 16 0x7350 = some (.activate [0x73#8])
    ∧ decodeTableWord 8 0x61 = some (.rRxPayload []) := by decide

/-! ## Well-formedness: one ill-formed command for each check -/

theorem test_wf_no_register_read : Instr.wf hw (.rRegister 0x18#5 [0xFF#8]) = false := by decide

theorem test_wf_no_register_write : Instr.wf hw (.wRegister 0x1F#5 [0x00#8]) = false := by decide

theorem test_wf_write_length : Instr.wf hw (.wRegister 0x10#5 [0xAA#8]) = false
    ∧ Instr.wf hw (.wRegister 0x00#5 [0x0C#8, 0x0C#8]) = false := by decide

theorem test_wf_activate_data : Instr.wf hw (.activate [0x74#8]) = false ∧ Instr.wf hw (.activate []) = false := by decide

theorem test_wf_payload_length : Instr.wf hw (.wTxPayload (List.replicate 33 0x00#8)) = false := by decide

/-! ## The register map (10_state.md R19, 40_spi_commands.md R87, R88) -/

/-- Widths, access classes, Reserved bits and illegal values, as the rules list them, for every register. -/
theorem test_register_map : ∀ r ∈ hw.regMap.rows.map RegRow.reg,
    hw.width r = widthOfRule r ∧ hw.access r = accessOfRule r ∧ hw.reservedMask r = reservedOfRule r
    ∧ ([0x00#8, 0x03#8, 0x20#8, 0x21#8, 0xFF#8].all fun v => hw.illegal r v == illegalOfRule r v) = true := by decide

/-! ## Wire commands (95_test_vectors.md §2.1) -/

theorem test_W3_read_address_register : frameView 6 (fun d => d) [0x0A#8, 0xFF#8, 0xFF#8, 0xFF#8, 0xFF#8, 0xFF#8] launch
    = some ([0x0E#8, 0xE7#8, 0xE7#8, 0xE7#8, 0xE7#8, 0xE7#8], resetDev) := by decide

theorem test_W8_read_of_no_register :
    refusalOf (execBytes [0x18#8, 0xFF#8] launch) = some (.undefinedRegister 0x18#5) := by decide

theorem test_W21_status_write_one_to_clear :
    frameView 1 (fun d => (d.rxDR, d.txDS, d.maxRT, statusByte hw d)) [0x27#8, 0x70#8]
      (withDev { resetDev with rxDR := true, maxRT := true })
    = some ([0x5E#8], (false, false, false, 0x0E#8)) := by decide

/-- W28, and W60: a CONFIG write that turns PRIM_RX on during a transmission. -/
theorem test_W28_W60_register_writes :
    frameView 1 (fun d => (d.rxAddrP1, effAddr d 2)) [0x2B#8, 0xD2#8, 0x11#8, 0x22#8, 0x33#8, 0x44#8] launch
      = some ([0x0E#8], (0x44332211D2#40, 0x44332211C3#40))
    ∧ (nextOf (execBytes [0x20#8, 0x0F#8]
        { withDev { resetDev with config := 0x0E#8, txq := [[0x46#8]], txActive := true } with ce := true })).map
        (fun t => (t.dev.txActive, t.dev.txq, xcvrState t)) = some (false, [[0x46#8]], .listening) := by decide

theorem test_W30_read_payload_short :
    frameView 2 (fun d => (d.rxq, statusByte hw d)) [0x61#8, 0xFF#8] (holding [entry1, entry2] false)
    = some ([0x02#8, 0x46#8], ([entry2], 0x04#8)) := by decide

theorem test_W33_read_payload_command_only :
    frameView 1 (fun d => d.rxq) [0x61#8] (holding [entry1] false) = some ([0x02#8], [entry1]) := by decide

theorem test_W34_write_payload :
    frameView 1 (fun d => (d.txq, fifoStatusByte hw d)) [0xA0#8, 0x46#8, 0x32#8] launch
    = some ([0x0E#8], ([[0x46#8, 0x32#8]], 0x01#8)) := by decide

theorem test_W36_write_payload_full :
    frameView 1 (fun d => d.txq) [0xA0#8, 0x02#8] (withDev { resetDev with txq := [[0x01#8], [0x01#8], [0x01#8]] })
    = some ([0x0F#8], [[0x01#8], [0x01#8], [0x01#8]]) := by decide

theorem test_W40_flush_tx_abandons :
    frameView 1 (fun d => (d.txq, d.txActive, d.txDS, d.maxRT)) [0xE1#8]
      (withDev { resetDev with config := 0x0E#8, txq := [[0x46#8, 0x32#8]], txActive := true })
    = some ([0x0E#8], ([], false, false, false)) := by decide

theorem test_W41_flush_rx_keeps_flag :
    frameView 1 (fun d => (d.rxq, statusByte hw d)) [0xE2#8] (holding [entry1] true)
    = some ([0x42#8], ([], 0x4E#8)) := by decide

theorem test_W43_activate_toggles_off :
    frameView 1 (fun d => d.featuresActive) [0x50#8, 0x73#8] (withDev { resetDev with featuresActive := true })
    = some ([0x0E#8], false) := by decide

theorem test_W44_bad_activate :
    refusalOf (execBytes [0x50#8, 0x74#8] launch) = some (.badActivate [0x74#8]) := by decide

theorem test_W46_payload_width :
    frameView 2 (fun d => d.rxq) [0x60#8, 0xFF#8]
      (withDev { resetDev with featuresActive := true, rxq := [entry1] })
    = some ([0x02#8, 0x02#8], [entry1]) := by decide

theorem test_W49_nop : frameView 1 (fun d => d) [0xFF#8] launch = some ([0x0E#8], resetDev) := by decide

theorem test_W55_frame_too_early :
    refusalOf (execBytes [0xFF#8] { launch with clock := 3 }) = some .frameBeforePowerOnReset := by decide

/-! ## The radio core (95_test_vectors.md §2.6) -/

/-- RC10's state: Listening, pipe 1 open at 0xF0F0F0F0D2 with width 2. -/
def listening : State :=
  { withDev { resetDev with config := 0x0F#8, rxAddrP1 := 0xF0F0F0F0D2#40, rxPwP1 := 2#8 } with ce := true }

/-- RC1's state: PTX with CE high and a payload queued. -/
def readyToSend : State :=
  { withDev { resetDev with config := 0x0E#8, txq := [[0x46#8, 0x32#8]] } with ce := true }

/-- A view of the state after one move of the schedule. -/
def moveView {α : Type} (f : State → α) (m : Move) (s : State) : Option α :=
  (nextOf (step { s with sched := [m] })).map f

theorem test_RC1_tx_start :
    moveView (fun t => (t.dev.txActive, t.dev.txq, xcvrState t, t.dev.txDS)) .txStart readyToSend
    = some (true, [[0x46#8, 0x32#8]], .transmitting, false) := by decide

theorem test_RC7_tx_complete :
    (let s := { readyToSend with dev := { readyToSend.dev with txActive := true } }
     (moveView (fun t => (t.dev.txq, t.dev.txDS, t.dev.txActive)) (.txComplete true) s,
      moveView (fun t => (t.dev.txq, statusByte t.par t.dev, t.dev.txActive)) (.txComplete false) s))
    = (some ([], true, false), some ([[0x46#8, 0x32#8]], 0x1E#8, false)) := by decide

/-- RC9: with 3-byte addresses the low bytes E1 66 77 and E1 F0 F0 differ, so only MaxRt is possible. -/
theorem test_RC9_unreachable_ack :
    moveView (fun t => (t.dev.txDS, t.dev.maxRT)) (.txComplete true)
      { readyToSend with dev := { readyToSend.dev with
          txActive := true, setupAw := 0x01#8, rxAddrP0 := 0x99887766E1#40, txAddr := 0xF0F0F0F0E1#40 } }
    = some (false, true) := by decide

theorem test_RC10_rx_delivery :
    moveView (fun t => (t.dev.rxq, statusByte t.par t.dev)) (.rxDeliver 0xF0F0F0F0D2#40 [0x46#8, 0x32#8] 0) listening
    = some ([entry1], 0x42#8) := by decide

theorem test_RC11_wrong_length_ignored :
    moveView (fun t => (t.dev.rxq, t.dev.rxDR)) (.rxDeliver 0xF0F0F0F0D2#40 [0x46#8] 0) listening
    = some ([], false) := by decide

theorem test_RC15_dynamic_payload_refused :
    refusalOf (step { listening with
      sched := [.txStart], dev := { listening.dev with featuresActive := true, feature := 0x04#8 } })
    = some .dynamicPayload := by decide

theorem test_RC17_three_byte_match :
    moveView (fun t => (t.dev.rxq, t.dev.rxDR)) (.rxDeliver 0x1234F0F0D2#40 [0x46#8, 0x32#8] 0)
      { listening with dev := { listening.dev with setupAw := 0x01#8 } }
    = some ([entry1], true) := by decide

/-- RC18: two candidate pipes, and the air can choose either. -/
theorem test_RC18_every_candidate :
    (let s := { listening with dev := { listening.dev with enRxaddr := 0x06#8, rxAddrP2 := 0xD2#8, rxPwP2 := 2#8 } }
     ([0, 1].map fun k => moveView (fun t => t.dev.rxq) (.rxDeliver 0xF0F0F0F0D2#40 [0x46#8, 0x32#8] k) s))
    = [some [entry1], some [{ pipe := 2#3, payload := [0x46#8, 0x32#8] }]] := by decide

theorem test_RC21_open_frame_holds_the_radio :
    moveView (fun t => t.dev.txActive) .txStart { readyToSend with csn := false } = some false := by decide

/-! ## Host operations (95_test_vectors.md §2.2 to §2.5) -/

/-- The results of the host's call after one step (a rejected call ends at once). -/
def callView (s : State) : Option (List Result × List BusEvent) :=
  (nextOf (step s)).map fun t => (t.results, t.trace)

theorem test_A6_A7_read_length : callView (calling (.readRegisterN 0x00#8 0)) = some ([.invalidArgument], [])
    ∧ callView (calling (.readRegisterN 0x00#8 33)) = some ([.invalidArgument], []) := by decide

theorem test_A12_write_length : callView (calling (.writeRegisterN 0x10#8 [])) = some ([.invalidArgument], []) := by decide

theorem test_I4_initialize_zero : refusalOf (step (calling (.initializeRadio (some 0)))) = some .zeroPayloadSize := by decide

theorem test_PP2_PP3_open_writing_pipe :
    callView (calling (.openWritingPipe 0x10000000000)) = some ([.invalidArgument], [])
    ∧ refusalOf (step (calling (.openWritingPipe 0xF0F0F0F0E1))) = some .payloadSizeUnset := by decide

theorem test_PP7_index_before_address :
    callView (calling (.openReadingPipe 6 0x10000000000)) = some ([.invalidArgument], []) := by decide

theorem test_T5_T7_transmit_lengths : callView (calling (.transmit [])) = some ([.invalidArgument], [])
    ∧ callView (configured (.transmit [0x46#8, 0x32#8, 0x01#8])) = some ([.invalidArgument], []) := by decide

theorem test_T9_transmit_unset :
    refusalOf (step (calling (.transmit [0x46#8, 0x32#8]))) = some .payloadSizeUnset := by decide

/-- T6 and T8: the padded and the truncated payload. -/
theorem test_T6_T8_payload_frame :
    ((nextOf (step (configured (.transmit [0x46#8])))).map fun t => t.code.contains (cmdData 0xA0#8 [0x46#8, 0x00#8]))
      = some true
    ∧ ((nextOf (step { configured (.transmit [0x46#8, 0x32#8, 0x01#8]) with
          par := { hw with overlength := .truncate } })).map
        fun t => t.code.contains (cmdData 0xA0#8 [0x46#8, 0x32#8])) = some true := by decide

/-- T12: TX_DS wins over MAX_RT, and either over the deadline (R123). -/
theorem test_T12_transmit_decode : transmitResult 0x3E#8 = .ok .delivered ∧ transmitResult 0x1E#8 = .ok .notDelivered
    ∧ transmitResult 0x0E#8 = .timeout := by decide

theorem test_T18_T19_read_payload_lengths : callView (configured (.readPayload 0)) = some ([.invalidArgument], [])
    ∧ callView (configured (.readPayload 3)) = some ([.invalidArgument], []) := by decide

/-- 31 frames of `initialize` and 21 of `dumpRegisters` (R113, R143); the 31st is the write half of POWER_DOWN, which
the line before it sends. -/
theorem test_frame_counts :
    ((initProgram hw ++ initFinish hw 2).filter
      fun a => match a with | .frame _ => true | .rmw _ _ _ => true | _ => false).length = 31
    ∧ (dumpReads hw).length = 21 := by decide

/-! ## One step of a frame -/

/-- A1: one frame of two exchange calls. -/
theorem test_A1_read_register_frame :
    (nextOf (step (running [readReg1 hw 0x00#8]))).map (fun t => (t.trace, t.csn, t.stepIndex))
    = some ([.csn false, .xfer [0x00#8] [0x0E#8], .xfer [0xFF#8] [0x08#8], .csn true], true, 4) := by decide

/-- A9: `writeRegister(0x47, 0x70)` sends `27 70`. -/
theorem test_A9_masked_write : writeReg1 hw 0x47#8 0x70#8 = .frame [[0x27#8, 0x70#8]] := by decide

/-- A16 to A19: the byte each mode helper writes back. -/
theorem test_A16_A19_mode_helpers :
    ([(0x0D#8, 0x02#8, 0x01#8), (0x0C#8, 0x03#8, 0x00#8), (0x0F#8, 0x00#8, 0x02#8), (0x7C#8, 0x02#8, 0x01#8)].map fun w =>
      (rmwStep 0x00#8 w.2.1 w.2.2 { launch with loc := { Locals.empty with ins := [[0x0E#8], [w.1]] } }).code)
    = [[writeReg1 hw 0x00#8 0x0E#8], [writeReg1 hw 0x00#8 0x0F#8], [writeReg1 hw 0x00#8 0x0D#8], [writeReg1 hw 0x00#8 0x7E#8]] := by decide

/-- Draws of a move in which primitive `k` fails and, when `again`, the abort's own line change too. -/
def failing (k : Nat) (again : Bool) : Draw := { Draw.quiet with failAt := some k, abortFails := again, csn := false }

/-- A14: the exchange fails. -/
theorem test_A14_exchange_fails :
    moveView (fun t => (t.trace, t.results, t.csn)) (.run (failing 1 false)) (running [writeReg1 hw 0x05#8 0x4C#8])
    = some ([.csn false, .xfail [0x25#8, 0x4C#8], .csn true], [.transportError], true) := by decide

/-- A15: the abort's own `SetCSN(1)` fails too, and the level of CSN is drawn. -/
theorem test_A15_abort_fails :
    moveView (fun t => (t.trace, t.results, t.csn)) (.run (failing 1 true)) (running [readReg1 hw 0x00#8])
    = some ([.csn false, .xfail [0x00#8]], [.transportError], false) := by decide

/-- 70_reset_and_hazards.md R170: an abort whose drawn CSN falls before `POR_MS` opens a frame too early and is refused; afterwards, and
when the level stays 1, it is not. -/
theorem test_R170_abort_opens_too_early :
    (let s := fun k : Nat => { running [.setCE false] with clock := k, sched := [.run (failing 0 true)] }
     (refusalOf (step (s 4)), refusalOf (step (s 5)))) = (some .frameBeforePowerOnReset, none)
    ∧ refusalOf (step { running [.setCE false] with
        clock := 0, sched := [.run { failing 0 true with csn := true }] }) = none := by decide

/-- R7 and R113: without an argument `initialize` asks for `PAYLOAD_SIZE_REQ`, 32. -/
theorem test_initialize_default :
    ((nextOf (step (calling (.initializeRadio none)))).map fun t => t.code.contains (.setPayloadSize 32)) = some true := by decide

/-- The word placed by `withFetchWord` is what the next step runs, right after reset. -/
theorem test_withFetchWord_runs :
    (nextOf (step (State.reset.withFetchWord 8 0xFF))).map (fun t => (t.resp, t.trace))
      = some ([0x0E#8], [.csn false, .xfer [0xFF#8] [0x0E#8], .csn true])
    ∧ (nextOf (step (State.reset.withFetchWord 16 0x7350))).map (fun t => t.dev.featuresActive) = some true := by decide

/-! ## Witnesses: for each obligation with hypotheses, a state and operands that meet all of them together. Where an obligation has
several clauses, each has its own, at the ends of its range -/

theorem witness_DecodeEncodeRoundTrip : decode [0x27#8, 0x70#8] = some (.wRegister 0x07#5 [0x70#8]) := by decide

/-- The ends of the five ranges of 30_encoding.md R77, and their neighbours, which decode. -/
theorem witness_UnlistedCommandBytesDoNotDecode :
    ([0x40#8, 0x4F#8, 0x51#8, 0x5F#8, 0x62#8, 0x9F#8, 0xA1#8, 0xE0#8, 0xE3#8, 0xFE#8].all fun c =>
      (decodeCommand c []).isNone) = true
    ∧ ([0x3F#8, 0x50#8, 0x60#8, 0x61#8, 0xA0#8, 0xE1#8, 0xE2#8, 0xFF#8].all fun c => (decodeCommand c []).isSome) = true := by
  decide

/-- Two schedules: none, and one that holds the controller's move. -/
theorem witness_StepRunsDecodedCommand :
    let s := running [.frame [[0x27#8, 0x70#8]]]
    ControllerMoves s Draw.quiet [] ∧ ControllerMoves { s with sched := [.run Draw.quiet, .txStart] } Draw.quiet [.txStart]
    ∧ s.code = [.frame [[0x27#8, 0x70#8]]] ∧ frameFailure s.par Draw.quiet 1 = none
    ∧ decode (fetchFrame [[0x27#8, 0x70#8]] s) = some (.wRegister 0x07#5 [0x70#8])
    ∧ Instr.wf s.par (.wRegister 0x07#5 [0x70#8]) = true :=
  ⟨.inl ⟨rfl, rfl, rfl⟩, .inr rfl, rfl, by decide, by decide, by decide⟩

theorem witness_PlacedWordRunsNext : decodeTableWord 8 0xE1 = some (.flushTx []) := by decide

/-- The last millisecond of the power-on reset; `witness_ready` is the first one after it. -/
theorem witness_FrameBeforePowerOnResetRefused :
    let s := { launch with clock := 4 }
    s.csn = true ∧ s.clock < s.par.porMs := by decide

theorem witness_UnlistedCommandFrameRefused :
    let s := running [.frame [[0xE3#8], [0x00#8]]]
    ControllerMoves s Draw.quiet [] ∧ s.code = [.frame [[0xE3#8], [0x00#8]]] ∧ frameFailure s.par Draw.quiet 2 = none
    ∧ s.csn = true ∧ Ready s ∧ [[0xE3#8], [0x00#8]].flatten = [0xE3#8, 0x00#8] ∧ decodeCommand 0xE3#8 [0x00#8] = none :=
  ⟨.inl ⟨rfl, rfl, rfl⟩, rfl, by decide, rfl, by unfold Ready; decide, rfl, by decide⟩

/-- A frame of two exchange calls, whole and as its raw lines, one that is refused, and an `Exchange` with CSN high. -/
theorem witness_BusLevelAgreesWithCommands :
    launch.csn = true
    ∧ NoFailure launch.par Draw.quiet
    ∧ (nextOf (step { running [.frame [[0x00#8], [0xFF#8]]] with sched := [.run Draw.quiet] })).isSome = true
    ∧ (List.replicate 4 Draw.quiet).length = [[0x00#8], [0xFF#8]].length + 2
    ∧ refusalOf (step { running [.frame [[0x18#8], [0xFF#8]]] with sched := [.run Draw.quiet] }) = some (.undefinedRegister 0x18#5)
    ∧ (let s := { running [.exchange [0xFF#8]] with sched := [.run Draw.quiet] }
       s.sched = .run Draw.quiet :: [] ∧ s.code = .exchange [0xFF#8] :: [] ∧ s.csn = true) :=
  ⟨rfl, noFailure_quiet, by decide, rfl, by decide, rfl, rfl, rfl⟩

/-- Frames may open in `launch`: a hypothesis of every statement about a command's result, and the only one of
ReadPayloadReturnsAndRemovesHead, FlushesEmptyOneFifo, PayloadWidthReadsHeadLength and NopOnlyReturnsStatus. -/
theorem witness_ready : Ready launch := by unfold Ready; decide

/-- `launch`, on the register map of this hardware, answers a next state for each of the nine commands: the hypotheses of the frames (WireCommandsTouchOnlyTheDevice,
ReadsHaveOnlyTheStatedSideEffects, WireCommandsSetNoFlag, EachFifoHasItsOwnCommands, WireCommandsThatChangeTheMode). -/
theorem witness_every_command_answers : Structural launch.par ∧
    ([.rRegister 0x00#5 [0xFF#8], .wRegister 0x05#5 [0x4C#8], .activate [0x73#8], .rRxPlWid [0xFF#8], .rRxPayload [0xFF#8],
      .wTxPayload [0x46#8], .flushTx [], .flushRx [], .nop []].all fun i => (nextOf (exec i launch)).isSome) = true :=
  ⟨structural_hw, by decide⟩

theorem witness_WellFormedCommandsComplete : Ready launch ∧ Instr.wf hw (.wRegister 0x05#5 [0x4C#8]) = true
    ∧ Instr.wf hw (.wRegister 0x05#5 []) = true ∧ Instr.wf hw (.wRegister 0x03#5 [0x00#8]) = true :=
  ⟨witness_ready, by decide, by decide, by decide⟩

/-- One command for each clause; the two clauses of a register write differ in whether the address names a register. -/
theorem witness_IllFormedCommandsRefused : Ready launch ∧ Instr.wf hw (.rRegister 0x18#5 []) = false
    ∧ Instr.wf hw (.wRegister 0x1E#5 []) = false ∧ hw.regAt 0x1E#5 = none
    ∧ Instr.wf hw (.wRegister 0x1D#5 [0x00#8, 0x00#8]) = false ∧ hw.regAt 0x1D#5 ≠ none
    ∧ Instr.wf hw (.activate [0x73#8, 0x73#8]) = false ∧ Instr.wf hw (.wTxPayload (List.replicate 33 0xFF#8)) = false :=
  ⟨witness_ready, by decide, by decide, by decide, by decide, by decide, by decide, by decide⟩

theorem witness_ReadRegisterReturnsRegbyte : Structural launch.par ∧ Ready launch ∧ launch.par.regAt 0x00#5 = some .config
    ∧ launch.par.regAt 0x1D#5 = some .feature := ⟨structural_hw, witness_ready, by decide, by decide⟩

/-- The frame of a payload read and of a NOP answer a next state from a state that holds an entry. -/
theorem witness_ReadsHaveOnlyTheStatedSideEffects :
    (nextOf (exec (.rRxPayload [0xFF#8]) (holding [entry1] true))).isSome = true
    ∧ (nextOf (exec (.rRegister 0x07#5 [0xFF#8]) (holding [entry1] true))).isSome = true
    ∧ (nextOf (exec (.nop [0x12#8]) (holding [entry1] true))).isSome = true := by decide

/-- RX_PW_P5 at its largest legal value, and FEATURE while the features are active. -/
theorem witness_WriteByteRegisterStoresAndKeepsRest :
    (let s := launch
     Structural s.par ∧ Ready s ∧ s.par.regAt 0x16#5 = some .rxPwP5 ∧ widthOfRule .rxPwP5 = 1 ∧ accessOfRule .rxPwP5 = .rw
      ∧ (Reg.rxPwP5.isFeatureReg && featuresGated s.par s.dev) = false ∧ 0x20#8 &&& reservedOfRule .rxPwP5 = 0#8
      ∧ illegalOfRule .rxPwP5 0x20#8 = false)
    ∧ (let s := withDev { resetDev with featuresActive := true }
       Structural s.par ∧ Ready s ∧ s.par.regAt 0x1D#5 = some .feature ∧ widthOfRule .feature = 1 ∧ accessOfRule .feature = .rw
        ∧ (Reg.feature.isFeatureReg && featuresGated s.par s.dev) = false ∧ 0x07#8 &&& reservedOfRule .feature = 0#8
        ∧ illegalOfRule .feature 0x07#8 = false) :=
  ⟨⟨structural_hw, by unfold Ready; decide⟩, structural_hw, by unfold Ready; decide⟩

theorem witness_WriteAddressRegisterStoresAndKeepsRest : Structural launch.par ∧ Ready launch
    ∧ launch.par.regAt 0x10#5 = some .txAddr ∧ widthOfRule .txAddr = 5
    ∧ [0xE1#8, 0xF0#8, 0xF0#8, 0xF0#8, 0xF0#8].length = 5 :=
  ⟨structural_hw, witness_ready, by decide, by decide, by decide⟩

/-- A powered-up device in PTX mode, a transmission in progress. -/
def sending : State :=
  { withDev { resetDev with config := 0x0E#8, txq := [[0x46#8, 0x32#8]], txActive := true } with ce := true }

/-- A power-down, a change to PRX while transmitting, and a write that is neither. -/
theorem witness_ConfigWriteSideEffects : Structural sending.par ∧ Ready sending ∧ sending.dev.config.getLsbD 1 = true
    ∧ sending.dev.config.getLsbD 0 = false ∧ sending.dev.txActive = true
    ∧ (0x0C#8).getLsbD 7 = false ∧ (0x0C#8).getLsbD 1 = false
    ∧ (0x0F#8).getLsbD 7 = false ∧ (0x0F#8).getLsbD 0 = true
    ∧ (0x0E#8).getLsbD 7 = false ∧ (0x0E#8).getLsbD 1 = true ∧ (0x0E#8).getLsbD 0 = false :=
  ⟨structural_hw, by unfold Ready; decide⟩

theorem witness_StatusWriteOneToClear : Structural launch.par ∧ Ready launch ∧ (0x7F#8).getLsbD 7 = false
    ∧ ((nextOf (exec (.wRegister 0x07#5 [0x70#8]) launch)).bind fun t =>
        nextOf (exec (.wRegister 0x07#5 [0x70#8]) t)).isSome = true
    ∧ (nextOf (exec (.wRegister 0x07#5 [0x00#8]) (holding [] true))).isSome = true
    ∧ (nextOf (exec (.wRegister 0x07#5 [0x40#8]) (holding [] true))).isSome = true :=
  ⟨structural_hw, by unfold Ready; decide⟩

theorem witness_ReadOnlyRegisterWritesIgnored : Structural launch.par ∧ Ready launch
    ∧ (0x08#5 = 0x08#5 ∨ 0x08#5 = 0x09#5 ∨ 0x08#5 = 0x17#5) := ⟨structural_hw, by unfold Ready; decide⟩

theorem witness_GatedFeatureRegistersIgnoreWrites : Structural launch.par ∧ Ready launch ∧ (0x1C#5 = 0x1C#5 ∨ 0x1C#5 = 0x1D#5)
    ∧ launch.par.chipNeedsActivate = true ∧ launch.dev.featuresActive = false := ⟨structural_hw, by unfold Ready; decide⟩

/-- One write for each refusal, and for each the earlier conditions do not hold. -/
theorem witness_WriteRegisterRefusals : Structural launch.par ∧ Ready launch ∧ launch.par.regAt 0x1B#5 = none
    ∧ (0x80#8).getLsbD 7 = true
    ∧ (launch.par.regAt 0x00#5 = some .config ∧ [0x0C#8, 0x0C#8].length ≠ widthOfRule .config)
    ∧ ([0x8C#8].length = widthOfRule .config ∧ accessOfRule .config = .rw
        ∧ (Reg.config.isFeatureReg && featuresGated launch.par launch.dev) = false
        ∧ 0x8C#8 &&& reservedOfRule .config ≠ 0#8)
    ∧ (launch.par.regAt 0x11#5 = some .rxPwP0 ∧ [0x21#8].length = widthOfRule .rxPwP0 ∧ accessOfRule .rxPwP0 = .rw
        ∧ (Reg.rxPwP0.isFeatureReg && featuresGated launch.par launch.dev) = false
        ∧ 0x21#8 &&& reservedOfRule .rxPwP0 = 0#8 ∧ illegalOfRule .rxPwP0 0x21#8 = true) :=
  ⟨structural_hw, by unfold Ready; decide⟩

/-- Each clause: the two register commands need a register at their address, and every command-only frame stands at `launch`. -/
theorem witness_CommandOnlyFrames : Ready launch ∧ launch.par.regAt 0x00#5 = some .config
    ∧ (∃ a r, Instr.rRegister 0x00#5 [] = .rRegister a [] ∧ launch.par.regAt a = some r)
    ∧ (∃ a r, Instr.wRegister 0x00#5 [] = .wRegister a [] ∧ launch.par.regAt a = some r)
    ∧ (nextOf (exec (.flushTx []) sending)).map (fun t => (t.dev.txq, t.dev.txActive)) = some ([], false)
    ∧ (nextOf (exec (.flushRx []) (holding [entry1] true))).map (fun t => t.dev.rxq) = some []
    ∧ refusalOf (exec (.activate []) launch) = some (.badActivate []) :=
  ⟨witness_ready, by decide, ⟨0x00#5, .config, rfl, by decide⟩, ⟨0x00#5, .config, rfl, by decide⟩, by decide, by decide, by decide⟩

/-- Both sides of the length limit; a TX FIFO with room for one more, and a full one. -/
theorem witness_WriteTxPayloadQueuesOrDrops : Ready launch ∧ 1 ≤ (List.replicate 32 0x00#8).length
    ∧ (List.replicate 32 0x00#8).length ≤ 32 ∧ 32 < (List.replicate 33 0x00#8).length
    ∧ [[0x01#8], [0x01#8]].length < launch.par.txFifoDepth
    ∧ ¬ [[0x01#8], [0x01#8], [0x01#8]].length < launch.par.txFifoDepth := by
  unfold Ready; decide

theorem witness_ActivateTogglesFeatures : Ready launch ∧ [0x73#8] = [0x73#8] ∧ ([] : List Byte) ≠ [0x73#8]
    ∧ [0x74#8] ≠ [0x73#8] := by unfold Ready; decide

/-- A command that changes a flag, each FIFO and each hidden bit. -/
theorem witness_EachFifoHasItsOwnCommands :
    ((nextOf (exec (.wTxPayload [0x46#8]) launch)).map fun t => decide (t.dev.txq ≠ launch.dev.txq)) = some true
    ∧ ((nextOf (exec (.flushRx []) (holding [entry1] true))).map fun t => decide (t.dev.rxq ≠ [entry1])) = some true
    ∧ ((nextOf (exec (.flushTx []) sending)).map fun t => t.dev.txActive) = some false
    ∧ ((nextOf (exec (.activate [0x73#8]) launch)).map fun t => t.dev.featuresActive) = some true := by decide

/-- The pipes at the ends of the range. -/
theorem witness_PipesTwoToFiveShareHighBytes : Structural hw ∧ (2 ≤ 2 ∧ 2 ≤ 5) ∧ (2 ≤ 5 ∧ 5 ≤ 5) :=
  ⟨structural_hw, by decide⟩

theorem witness_RadioStepsNeedCsnHighAndPower :
    Structural readyToSend.par ∧ ({ readyToSend with csn := false, sched := [.txStart] }).csn = false
    ∧ Structural launch.par ∧ ({ launch with sched := [.rxDeliver 0#40 [0x01#8] 0] }).dev.config.getLsbD 1 = false :=
  ⟨structural_hw, rfl, structural_hw, by decide⟩

/-- A register that is on because the features are active, and one on a chip without the gate. -/
theorem witness_DynamicPayloadStepsRefused :
    (let s := { readyToSend with dev := { readyToSend.dev with featuresActive := true, feature := 0x04#8 } }
     Structural s.par ∧ s.csn = true ∧ s.dev.config.getLsbD 1 = true ∧ (s.dev.feature ≠ 0#8 ∨ s.dev.dynpd ≠ 0#8)
      ∧ (s.par.chipNeedsActivate = false ∨ s.dev.featuresActive = true))
    ∧ (let s := { readyToSend with
        par := { hw with chipNeedsActivate := false }, dev := { readyToSend.dev with dynpd := 0x01#8 } }
       Structural s.par ∧ s.csn = true ∧ s.dev.config.getLsbD 1 = true ∧ (s.dev.feature ≠ 0#8 ∨ s.dev.dynpd ≠ 0#8)
        ∧ (s.par.chipNeedsActivate = false ∨ s.dev.featuresActive = true)) :=
  ⟨⟨structural_hw, by decide⟩, ⟨rfl, rfl, rfl, rfl, rfl, rfl, rfl⟩, by decide⟩

/-- Both clauses: RC1, and RC2 with MAX_RT set. -/
theorem witness_TxStartOnlyWhenEnabled :
    Structural readyToSend.par
    ∧ (let s := readyToSend
       dynamicPayloadOn s.par s.dev = false ∧ s.csn = true ∧ s.dev.config.getLsbD 1 = true ∧ s.dev.config.getLsbD 0 = false
        ∧ s.ce = true ∧ 1 ≤ s.dev.txq.length ∧ s.dev.maxRT = false ∧ s.dev.txActive = false)
    ∧ (let s := { readyToSend with dev := { readyToSend.dev with maxRT := true } }
       dynamicPayloadOn s.par s.dev = false ∧ ¬ s.dev.maxRT = false) := ⟨structural_hw, by decide⟩

/-- Sent, Acked, MaxRt by the air's choice and by RC9's addresses; and a payload queued with no transmission in progress. -/
theorem witness_TxCompletionOutcomes :
    Structural sending.par
    ∧ sending.csn = true ∧ sending.dev.config.getLsbD 1 = true ∧ dynamicPayloadOn sending.par sending.dev = false
    ∧ sending.dev.txActive = true
    ∧ (({ sending.dev with enAA := 0x00#8 }).enAA.getLsbD 0 = false)
    ∧ (sending.dev.enAA.getLsbD 0 = true
      ∧ sending.dev.rxAddrP0.toNat % 2 ^ (8 * (sending.dev.setupAw.toNat % 4 + 2))
        = sending.dev.txAddr.toNat % 2 ^ (8 * (sending.dev.setupAw.toNat % 4 + 2)))
    ∧ (let d := { sending.dev with setupAw := 0x01#8, rxAddrP0 := 0x99887766E1#40, txAddr := 0xF0F0F0F0E1#40 }
       d.rxAddrP0.toNat % 2 ^ (8 * (d.setupAw.toNat % 4 + 2)) ≠ d.txAddr.toNat % 2 ^ (8 * (d.setupAw.toNat % 4 + 2)))
    ∧ (let s := readyToSend
       dynamicPayloadOn s.par s.dev = false ∧ s.dev.txActive = false ∧ s.csn = true ∧ s.dev.config.getLsbD 1 = true
        ∧ s.dev.txq ≠ []) := ⟨structural_hw, by decide⟩

/-- RC10's state has pipe 1 open for a packet of 2 bytes and room for it; a full RX FIFO has none; with CE 0, in PTX mode, and powered down it
does not listen, pipe 1 being open. -/
theorem witness_RxDeliveryFilesUnderAMatchingPipe :
    Structural listening.par
    ∧ (let s := listening
       s.csn = true ∧ (s.dev.config.getLsbD 1 = true ∧ s.dev.config.getLsbD 0 = true ∧ s.ce = true)
        ∧ dynamicPayloadOn s.par s.dev = false ∧ 1 ≤ [0x46#8, 0x32#8].length ∧ [0x46#8, 0x32#8].length ≤ s.par.maxPayload
        ∧ (1 < s.par.numPipes ∧ s.dev.enRxaddr.getLsbD 1 = true ∧ rxWidth s.dev 1 ≠ 0
          ∧ rxWidth s.dev 1 = [0x46#8, 0x32#8].length
          ∧ (effAddr s.dev 1).toNat % 2 ^ (8 * (s.dev.setupAw.toNat % 4 + 2))
            = (0xF0F0F0F0D2#40).toNat % 2 ^ (8 * (s.dev.setupAw.toNat % 4 + 2)))
        ∧ s.dev.rxq.length < s.par.rxFifoDepth)
    ∧ (let s := { listening with dev := { listening.dev with rxq := [entry1, entry1, entry2] } }
       s.csn = true ∧ (s.dev.config.getLsbD 1 = true ∧ s.dev.config.getLsbD 0 = true ∧ s.ce = true)
        ∧ dynamicPayloadOn s.par s.dev = false ∧ s.par.rxFifoDepth ≤ s.dev.rxq.length)
    ∧ ([{ listening with ce := false }, { listening with dev := { listening.dev with config := 0x0E#8 } },
        { listening with dev := { listening.dev with config := 0x0D#8 } }].all fun s =>
      decide (¬ (s.dev.config.getLsbD 1 = true ∧ s.dev.config.getLsbD 0 = true ∧ s.ce = true)
        ∧ dynamicPayloadOn s.par s.dev = false)) = true :=
  ⟨structural_hw, by decide⟩

theorem witness_RadioStepsTouchOnlyFlagsAndFifos :
    (nextOf (step { readyToSend with sched := [.txStart] })).isSome = true := by decide

/-- The two ways a wire command changes the transceiver state. -/
theorem witness_WireCommandsThatChangeTheMode :
    ((nextOf (exec (.flushTx []) sending)).map fun t => decide (xcvrState t ≠ xcvrState sending)) = some true
    ∧ ((nextOf (exec (.wRegister 0x00#5 [0x0F#8]) launch)).map fun t => decide (xcvrState t ≠ xcvrState launch))
      = some true := by decide

/-- Each clause: the value 0x0C, 0x0F with CE high and low, 0x0E from Transmitting and not. -/
theorem witness_ConfigWriteSelectsTheMode :
    Structural sending.par ∧ Structural launch.par
    ∧ Ready sending ∧ legalActivity hw sending.dev = true ∧ sending.ce = true ∧ xcvrState sending = .transmitting
    ∧ Ready launch ∧ legalActivity hw launch.dev = true ∧ launch.ce = false ∧ xcvrState launch ≠ .transmitting
    ∧ (0x0C#8).getLsbD 7 = false ∧ (0x0C#8).getLsbD 1 = false
    ∧ (0x0F#8).getLsbD 7 = false ∧ (0x0F#8).getLsbD 1 = true ∧ (0x0F#8).getLsbD 0 = true
    ∧ (0x0E#8).getLsbD 7 = false ∧ (0x0E#8).getLsbD 1 = true ∧ (0x0E#8).getLsbD 0 = false :=
  ⟨structural_hw, structural_hw, by unfold Ready; decide⟩

/-- The values just outside each range, and a request one byte over the payload size. -/
theorem witness_RejectedCallsHaveNoEffect :
    Structural launch.par ∧ 32 < 33 ∧ 32 < (List.replicate 33 0x00#8).length ∧ 2 ^ 40 ≤ 0x10000000000 ∧ 5 < 6
    ∧ (let s := configured .available
       s.payloadSize = some 2 ∧ 2 < [0x46#8, 0x32#8, 0x01#8].length ∧ 2 < 3 ∧ s.par.overlength = .reject) :=
  ⟨structural_hw, by decide⟩

/-- The payload size unset; and `initialize(0)` whatever it is, with the argument given and by default. -/
theorem witness_UnsetPayloadSizeRefused : Structural launch.par ∧ launch.payloadSize = none ∧ 0xFFFFFFFFFF < 2 ^ 40 ∧ 5 ≤ 5
    ∧ (some 0).getD launch.par.payloadSizeReq = 0 ∧ (configured .available).payloadSize ≠ none
    ∧ (none : Option Nat).getD ({ hw with payloadSizeReq := 0 }).payloadSizeReq = 0 :=
  ⟨structural_hw, rfl, by decide, by decide, rfl, by decide, rfl⟩

/-- A9's write of 0x47, R102's write of 5 bytes, A2's read of 0x27 (both above 0x1F), a read of 32 bytes, the largest length, and a write and
a read that are refused; the first under a schedule with a clock move and a slow controller. -/
theorem witness_ByteRegisterCallsMaskTheAddress :
    (let s := { calling (.writeRegister 0x47#8 0x70#8) with sched := [.clock 3, .run { Draw.quiet with idleMs := 7 }] }
     Calls s (.writeRegister 0x47#8 0x70#8) [] ∧ s.csn = true ∧ Ready s
      ∧ (nextOf (exec (.wRegister ((0x47#8).setWidth 5) [0x70#8]) s)).isSome = true
      ∧ refusalOf (exec (.wRegister ((0x18#8).setWidth 5) [0x70#8]) s) = some (.undefinedRegister 0x18#5))
    ∧ (let s := calling (.writeRegisterN 0x10#8 [0xE1#8, 0xF0#8, 0xF0#8, 0xF0#8, 0xF0#8])
       Calls s (.writeRegisterN 0x10#8 [0xE1#8, 0xF0#8, 0xF0#8, 0xF0#8, 0xF0#8]) [] ∧ s.csn = true ∧ Ready s
        ∧ (nextOf (exec (.wRegister ((0x10#8).setWidth 5) [0xE1#8, 0xF0#8, 0xF0#8, 0xF0#8, 0xF0#8]) s)).isSome = true
        ∧ refusalOf (exec (.wRegister ((0x11#8).setWidth 5) [0xE1#8, 0xF0#8]) s) = some (.wrongWriteLength 0x11#5 2))
    ∧ (let s := calling (.readRegister 0x27#8)
       Calls s (.readRegister 0x27#8) [] ∧ s.csn = true ∧ Ready s ∧ s.par.regAt ((0x27#8).setWidth 5) = some .status)
    ∧ (let s := calling (.readRegisterN 0x0A#8 32)
       Calls s (.readRegisterN 0x0A#8 32) [] ∧ s.csn = true ∧ Ready s ∧ s.par.regAt ((0x0A#8).setWidth 5) = some .rxAddrP0)
    ∧ (let s := calling (.readRegister 0x1E#8)
       Calls s (.readRegister 0x1E#8) [] ∧ s.par.regAt ((0x1E#8).setWidth 5) = none)
    ∧ (let s := onAir (calling (.writeRegister 0x05#8 0x4C#8))
       CallsOnAir s (.writeRegister 0x05#8 0x4C#8) []
        ∧ (nextOf (exec (.wRegister ((0x05#8).setWidth 5) [0x4C#8]) s)).map (fun e => dynamicPayloadOn e.par e.dev) = some false)
    ∧ (let s := onAir (calling (.writeRegisterN 0x10#8 [0xE1#8, 0xF0#8, 0xF0#8, 0xF0#8, 0xF0#8]))
       CallsOnAir s (.writeRegisterN 0x10#8 [0xE1#8, 0xF0#8, 0xF0#8, 0xF0#8, 0xF0#8]) []
        ∧ (nextOf (exec (.wRegister ((0x10#8).setWidth 5) [0xE1#8, 0xF0#8, 0xF0#8, 0xF0#8, 0xF0#8]) s)).map
          (fun e => dynamicPayloadOn e.par e.dev) = some false)
    ∧ (let s := onAir (calling (.readRegister 0x45#8))
       CallsOnAir s (.readRegister 0x45#8) [] ∧ s.par.regAt ((0x45#8).setWidth 5) = some .rfCh)
    ∧ (let s := onAir (calling (.readRegisterN 0x0A#8 32))
       CallsOnAir s (.readRegisterN 0x0A#8 32) [] ∧ s.par.regAt ((0x0A#8).setWidth 5) = some .rxAddrP0) := by
  refine ⟨⟨⟨structural_hw, rfl, rfl, ?_⟩, rfl, witness_ready, by decide, by decide⟩,
    ⟨callsUnder_of rfl rfl rfl rfl, rfl, witness_ready, by decide, by decide⟩,
    ⟨callsUnder_of rfl rfl rfl rfl, rfl, witness_ready, by decide⟩, ⟨callsUnder_of rfl rfl rfl rfl, rfl, witness_ready, by decide⟩,
    ⟨callsUnder_of rfl rfl rfl rfl, by decide⟩,
    ⟨callsOnAir_of rfl rfl rfl rfl rfl (by decide) (by decide), by decide⟩,
    ⟨callsOnAir_of rfl rfl rfl rfl rfl (by decide) (by decide), by decide⟩,
    ⟨callsOnAir_of rfl rfl rfl rfl rfl (by decide) (by decide), by decide⟩,
    callsOnAir_of rfl rfl rfl rfl rfl (by decide) (by decide), by decide⟩
  intro m hm
  simp only [List.mem_cons, List.not_mem_nil, or_false] at hm
  rcases hm with rfl | rfl
  · trivial
  · exact ⟨rfl, fun _ h => nomatch h⟩

/-- With a silent air, and while the radio core and the air move. -/
theorem witness_OpenWritingPipeSetsBothAddresses :
    (let s := configured (.openWritingPipe 0xFFFFFFFFFF)
     Calls s (.openWritingPipe 0xFFFFFFFFFF) [] ∧ 0xFFFFFFFFFF < 2 ^ 40 ∧ s.payloadSize = some 2 ∧ s.csn = true ∧ Ready s)
    ∧ (let s := onAir { configured (.openWritingPipe 0xFFFFFFFFFF) with dev := sending.dev }
       CallsOnAir s (.openWritingPipe 0xFFFFFFFFFF) [] ∧ s.payloadSize = some 2) :=
  ⟨⟨callsUnder_of rfl rfl rfl rfl, by decide, rfl, rfl, witness_ready⟩,
    callsOnAir_of rfl rfl rfl rfl rfl (by decide) (by decide), rfl⟩

/-- Pipes 0, 1, 2 and 5: the ends of the two forms of the address frame. -/
theorem witness_OpenReadingPipeProgramsThePipe :
    ∀ i, i ≤ 5 →
      (let s := configured (.openReadingPipe i 0xF0F0F0F0D2)
       Calls s (.openReadingPipe i 0xF0F0F0F0D2) [] ∧ 0xF0F0F0F0D2 < 2 ^ 40 ∧ s.payloadSize = some 2 ∧ s.csn = true
        ∧ Ready s ∧ s.dev.enRxaddr &&& 0xC0#8 = 0#8)
      ∧ (let s := onAir (configured (.openReadingPipe i 0xF0F0F0F0D2))
         CallsOnAir s (.openReadingPipe i 0xF0F0F0F0D2) [] ∧ s.payloadSize = some 2 ∧ s.dev.enRxaddr &&& 0xC0#8 = 0#8) :=
  fun _ _ => ⟨⟨callsUnder_of rfl rfl rfl rfl, by decide, rfl, rfl, witness_ready,
    (by decide : resetDev.enRxaddr &&& 0xC0#8 = 0#8)⟩,
    callsOnAir_of rfl rfl rfl rfl rfl (le_refl 5) (by decide : dynamicPayloadOn hw resetDev = false), rfl,
    (by decide : resetDev.enRxaddr &&& 0xC0#8 = 0#8)⟩

/-- With and without a cached pipe-0 address. -/
theorem witness_StartListeningRestoresPipeZero :
    (let s := { calling .startListening with pipe0Cache := some 0xA1A2A3A4A5#40 }
     Calls s .startListening [] ∧ s.csn = true ∧ Ready s ∧ s.dev.config.getLsbD 7 = false)
    ∧ (let s := calling .startListening
       Calls s .startListening [] ∧ s.csn = true ∧ Ready s ∧ s.dev.config.getLsbD 7 = false)
    ∧ (let s := onAir { calling .startListening with dev := sending.dev, pipe0Cache := some 0xA1A2A3A4A5#40 }
       CallsOnAir s .startListening [] ∧ s.dev.config.getLsbD 7 = false) :=
  ⟨⟨callsUnder_of rfl rfl rfl rfl, rfl, witness_ready, by decide⟩, ⟨callsUnder_of rfl rfl rfl rfl, rfl, witness_ready, by decide⟩,
    callsOnAir_of rfl rfl rfl rfl rfl (by decide) (by decide), by decide⟩

theorem witness_StopListeningLowersCeAndFlushes :
    let s := { listening with program := [.stopListening] }
    Calls s .stopListening [] ∧ s.csn = true ∧ Ready s ∧ s.dev.config.getLsbD 1 = true ∧ s.dev.config.getLsbD 0 = true
    ∧ CallsOnAir (onAir s) .stopListening [] :=
  ⟨callsUnder_of rfl rfl rfl rfl, rfl, by unfold Ready; decide, by decide, by decide,
    callsOnAir_of rfl rfl rfl rfl rfl (by decide) (by decide)⟩

theorem witness_AvailableClearsOnlyWhatItRead :
    let s := { holding [entry1] true with program := [.available] }
    Calls s .available [] ∧ s.csn = true ∧ Ready s ∧ CallsOnAir (onAir s) .available [] :=
  ⟨callsUnder_of rfl rfl rfl rfl, rfl, by unfold Ready; decide, callsOnAir_of rfl rfl rfl rfl rfl (by decide) (by decide)⟩

/-- A head that is shorter than the request, an empty RX FIFO, and a request above the payload size under Truncate. -/
theorem witness_ReadPayloadReturnsHeadAndFlushes :
    (let s := { holding [{ entry1 with payload := [0x46#8] }] true with program := [.readPayload 2], payloadSize := some 2 }
     Calls s (.readPayload 2) [] ∧ 1 ≤ 2 ∧ 2 ≤ 2 ∧ s.payloadSize = some 2 ∧ s.csn = true ∧ Ready s
      ∧ ∀ e ∈ s.dev.rxq, e.pipe ≠ 0b111#3)
    ∧ (let s := configured (.readPayload 1)
       Calls s (.readPayload 1) [] ∧ s.payloadSize = some 2 ∧ Ready s ∧ ∀ e ∈ s.dev.rxq, e.pipe ≠ 0b111#3)
    ∧ (let s := { configured (.readPayload 3) with par := { hw with overlength := .truncate } }
       Calls s (.readPayload 3) [] ∧ s.payloadSize = some 2 ∧ ¬ 3 ≤ 2 ∧ s.par.overlength = .truncate ∧ Ready s
        ∧ ∀ e ∈ s.dev.rxq, e.pipe ≠ 0b111#3)
    ∧ (let s := onAir { configured (.readPayload 1) with dev := { resetDev with rxq := [entry1, entry2], rxDR := true } }
       CallsOnAir s (.readPayload 1) [] ∧ 1 ≤ 2 ∧ s.payloadSize = some 2 ∧ s.dev.rxq = entry1 :: [entry2] ∧ entry1.pipe ≠ 0b111#3) :=
  ⟨⟨callsUnder_of rfl rfl rfl rfl, by decide, by decide, rfl, rfl, by unfold Ready; decide, by decide⟩,
    ⟨callsUnder_of rfl rfl rfl rfl, rfl, by unfold Ready; decide, by decide⟩,
    ⟨⟨structural_truncate, rfl, rfl, fun _ h => nomatch h⟩, rfl, by decide, rfl, by unfold Ready; decide, by decide⟩,
    callsOnAir_of rfl rfl rfl rfl rfl (by decide) (by decide), by decide, rfl, rfl, by decide⟩

/-- Clause (1): a poll that read TX_DS, one that read MAX_RT. Clauses (2) and (3): a payload shorter than the payload size, with an
acknowledgement that can arrive and without one awaited. -/
theorem witness_TransmitReportsTheFlagItSaw :
    (let s := fun b : Byte => { running [.pollFlags] with loc := { Locals.empty with ins := [[b], [b]] } }
     ∀ b, b = 0x2E#8 ∨ b = 0x1E#8 →
      Structural (s b).par ∧ (∀ m ∈ (s b).sched, QuietMove (s b).par m) ∧ (s b).code = [.pollFlags] ∧ (s b).csn = true
      ∧ Ready (s b) ∧ (s b).dev.config.getLsbD 7 = false
      ∧ ((insByte (s b).loc.ins 1 0).getLsbD 5 = true ∨ (insByte (s b).loc.ins 1 0).getLsbD 4 = true))
    ∧ Transmits FailureFreeMove (configured (.transmit [0x46#8])) [0x46#8] 2 []
    ∧ (let s := configured (.transmit [0x46#8])
       Transmits QuietMove s [0x46#8] 2 [] ∧ 1 ≤ s.par.txFifoDepth ∧ s.sched = []
        ∧ (true = true ∧ LowBytesAgree s.dev s.dev.rxAddrP0 s.dev.txAddr)
        ∧ ¬ (s.dev.enAA.getLsbD 0 = false ∨ (false = true ∧ LowBytesAgree s.dev s.dev.rxAddrP0 s.dev.txAddr))) := by
  refine ⟨?_, transmits_configured, transmits_configured, by decide, rfl, ⟨rfl, by unfold LowBytesAgree; decide⟩,
    by unfold LowBytesAgree; decide⟩
  intro s b h
  refine ⟨structural_hw, fun _ h => (nomatch h), rfl, rfl, witness_ready, (by decide : resetDev.config.getLsbD 7 = false), ?_⟩
  rcases h with rfl | rfl
  · exact .inl (by decide)
  · exact .inr (by decide)

/-- A payload shorter than the payload size under Reject, with a TX start in the schedule, and one longer under Truncate. -/
theorem witness_TransmitToASilentRadioTimesOut :
    Transmits FlaglessMove { configured (.transmit [0x46#8]) with sched := [.clock 40, .txStart] } [0x46#8] 2 []
    ∧ Transmits FlaglessMove { configured (.transmit [0x46#8, 0x32#8, 0x01#8]) with par := { hw with overlength := .truncate } }
      [0x46#8, 0x32#8, 0x01#8] 2 [] := by
  refine ⟨⟨⟨structural_hw, rfl, rfl, ?_⟩, by decide, rfl, by decide, .inl (by decide), rfl, by unfold Ready; decide, by decide, by decide⟩,
    ⟨structural_truncate, rfl, rfl, fun _ h => nomatch h⟩, by decide, rfl, by decide, .inr rfl, rfl, by unfold Ready; decide, by decide,
    by decide⟩
  intro m hm
  simp only [List.mem_cons, List.not_mem_nil, or_false] at hm
  rcases hm with rfl | rfl <;> trivial

/-- From the launch state itself, clock 0, with the smallest argument and with the default one; and with CSN 0 after a failed abort, a
NOP frame left open, powered up, with a radio-core move in the schedule. -/
theorem witness_InitializeEndState :
    (∀ req, req = some 1 ∨ req = none →
      let s := { State.reset with program := [.initializeRadio req] }
      CallsUnder FailureFreeMove s (.initializeRadio req) [] ∧ 1 ≤ req.getD s.par.payloadSizeReq ∧ InitValuesLegal s.par
      ∧ 1 ≤ s.par.txFifoDepth ∧ busClose s = .next s
      ∧ (s.dev.config.getLsbD 1 = true → dynamicPayloadOn s.par s.dev = false))
    ∧ (let s := { calling (.initializeRadio none) with
          csn := false, dev := { sending.dev with mosi := [0xFF#8], miso := [0x0E#8] }, sched := [.txComplete true] }
       CallsUnder FailureFreeMove s (.initializeRadio none) [] ∧ 1 ≤ (none : Option Nat).getD s.par.payloadSizeReq
        ∧ InitValuesLegal s.par ∧ 1 ≤ s.par.txFifoDepth
        ∧ ∃ e, busClose s = .next e ∧ (e.dev.config.getLsbD 1 = true → dynamicPayloadOn s.par e.dev = false)) := by
  refine ⟨?_, ⟨structural_hw, rfl, rfl, ?_⟩, by decide, by unfold InitValuesLegal; decide, by decide, _, rfl, fun _ => by decide⟩
  · rintro req (rfl | rfl) <;>
      exact ⟨callsUnder_of rfl rfl rfl rfl, by decide, by unfold InitValuesLegal; decide, by decide, rfl, by decide⟩
  · intro m hm
    rw [List.mem_singleton.1 hm]; trivial

theorem witness_DumpReadsTheRegistersAndChangesNothing :
    (Structural launch.par ∧ (nextOf (startOp .dumpRegisters launch)).isSome = true)
    ∧ (let s := calling .dumpRegisters
       Calls s .dumpRegisters [] ∧ s.csn = true ∧ Ready s)
    ∧ CallsOnAir (onAir { listening with program := [.dumpRegisters] }) .dumpRegisters [] :=
  ⟨⟨structural_hw, by decide⟩, ⟨callsUnder_of rfl rfl rfl rfl, rfl, by unfold Ready; decide⟩,
    callsOnAir_of rfl rfl rfl rfl rfl (by decide) (by decide)⟩

/-- `launch` with lines of a running call, none of them a payload size, and CSN high meets the invariant. -/
theorem running_inv (s : State) (hp : s.par = hw) (hd : s.dev = resetDev) (hc : s.csn = true) (hs : s.payloadSize = none)
    (hn : ∀ n, Action.setPayloadSize n ∉ s.code) : Inv s where
  structural := hp ▸ structural_hw
  legal := by rw [hp, hd]; decide
  bufferEmpty := fun _ => by rw [hd]; exact ⟨rfl, rfl⟩
  bufferPaired := by rw [hd]; rfl
  openAfterReset := fun h => by rw [hc] at h; cases h
  payloadSize := fun _ h => by rw [hs] at h; cases h
  pendingSize := fun n h => absurd h (hn n)

/-- A failing frame whose step answers a next state, with a legal drawn device, one whose completed calls are refused, a failed `SetCE`,
`SetCSN` and `Exchange`, and an abort that opens a frame too early. -/
theorem witness_TransportFailureEndsTheOperation :
    (let s := { running [.frame [[0x00#8], [0xFF#8]]] with sched := [.run (failing 2 false)] }
     FailsAt s.par (failing 2 false) (.frame [[0x00#8], [0xFF#8]]) 2 ∧ (nextOf (step s)).isSome = true
      ∧ (failing 2 false).device.legal s.par = true ∧ Inv s)
    ∧ (let s := { running [.frame [[0x18#8], [0xFF#8]]] with sched := [.run (failing 2 false)] }
       FailsAt s.par (failing 2 false) (.frame [[0x18#8], [0xFF#8]]) 2
        ∧ refusalOf (step s) = some (.undefinedRegister 0x18#5) ∧ Inv s)
    ∧ (∀ a, a = .setCE true ∨ a = .setCSN false ∨ a = .exchange [0xFF#8] →
        let s := { running [a] with sched := [.run (failing 0 true)] }
        FailsAt s.par (failing 0 true) a 0 ∧ (nextOf (step s)).isSome = true ∧ Inv s)
    ∧ (let s := { running [.setCE true] with sched := [.run (failing 0 true)], clock := 4 }
       FailsAt s.par (failing 0 true) (.setCE true) 0 ∧ refusalOf (step s) = some .frameBeforePowerOnReset ∧ Inv s) := by
  refine ⟨⟨.inl ⟨_, rfl, by decide⟩, by decide, by decide, running_inv _ rfl rfl rfl rfl (by simp [running])⟩,
    ⟨.inl ⟨_, rfl, by decide⟩, by decide, running_inv _ rfl rfl rfl rfl (by simp [running])⟩, ?_,
    .inr (.inl ⟨.inr ⟨true, rfl⟩, rfl, rfl⟩), by decide, running_inv _ rfl rfl rfl rfl (by simp [running])⟩
  rintro a (rfl | rfl | rfl)
  · exact ⟨.inr (.inl ⟨.inr ⟨true, rfl⟩, rfl, rfl⟩), by decide, running_inv _ rfl rfl rfl rfl (by simp [running])⟩
  · exact ⟨.inr (.inl ⟨.inl ⟨false, rfl⟩, rfl, rfl⟩), by decide, running_inv _ rfl rfl rfl rfl (by simp [running])⟩
  · exact ⟨.inr (.inr ⟨⟨_, rfl⟩, .inl rfl, rfl⟩), by decide, running_inv _ rfl rfl rfl rfl (by simp [running])⟩

/-- A wait that begins, under both schedules; one whose end the clock has reached, and one that the clock agent's move leaves in place. -/
theorem witness_WaitsEndOnlyWhenTheClockHasReachedThem :
    (let s := running [.waitMs 130]
     ControllerMoves s Draw.quiet [] ∧ ControllerMoves { s with sched := [.run Draw.quiet, .txStart] } Draw.quiet [.txStart]
      ∧ s.code = .waitMs 130 :: [])
    ∧ ((nextOf (step (running [.waitUntil 6 1]))).map fun t => (t.code, decide (6 ≤ t.clock))) = some ([], true)
    ∧ ((nextOf (step { running [.waitUntil 9 1] with sched := [.clock 1] })).map fun t => t.code)
      = some [.waitUntil 9 1] :=
  ⟨⟨.inl ⟨rfl, rfl, rfl⟩, .inr rfl, rfl⟩, by decide, by decide⟩

theorem witness_StepKeepsInvariant : Inv launch ∧ (nextOf (step launch)).isSome = true :=
  ⟨running_inv _ rfl rfl rfl rfl (by simp [launch, State.reset]), by decide⟩

/-- A step that runs a frame, and one that starts a call. -/
theorem witness_ClockTraceAndResultsOnlyGrow :
    (nextOf (step (running [readReg1 hw 0x07#8]))).isSome = true
    ∧ (nextOf (step (calling .available))).isSome = true := by decide

/-- The idle block, from the launch state on, is an infinite run. -/
theorem witness_EveryInfiniteRunMakesClockProgress : IsRun fun n => { State.reset with clock := n } := fun _ => rfl

theorem witness_OneHostOperationAtATime :
    ((nextOf (step (calling .available))).map fun t => t.program) = some [] := by decide

end Sys2Proof.Tests
end

section
/-! Proofs for 10_state.md R29: write-1-to-clear of the STATUS flags. -/

namespace Sys2Proof.Machine

open Sys2Proof.Safety

theorem regAt_status {c : Config} (h : Structural c) : c.regAt 0x07#5 = some .status := regAt_of h rfl

/-- The frame buffer takes no part in the clearing of the flags. -/
theorem clearFlags_emptyBuffer (c : Config) (v : Byte) (d : Device) :
    clearFlags c v { d with mosi := [], miso := [] } = { clearFlags c v d with mosi := [], miso := [] } := rfl

theorem clearFlags_zero (c : Config) (d : Device) : clearFlags c 0x00#8 d = d := by
  simp [clearFlags]

theorem clearFlags_rxDR_only {c : Config} (h : Structural c) (d : Device) :
    clearFlags c 0x40#8 d = { d with rxDR := false } := by
  simp [clearFlags_eq h]

/-- A legal write of STATUS completes and clears flags. -/
theorem exec_writeStatus {v : Byte} {s : State} (hs : Structural s.par) (hr : Ready s) (hv : v.getLsbD 7 = false) :
    exec (.wRegister 0x07#5 [v]) s = .next (frameResult s 1 (drawn s 1 1) (clearFlags s.par v s.dev)) :=
  exec_of_commit (i := .wRegister 0x07#5 [v]) hr (addressRefusal_of_some (regAt_status hs))
    (commandCommit_of_commitDev (commitDev_status hs hv))

/-- The one commit a write of STATUS can make: it clears flags. -/
theorem wRegisterCommit_status_next {v : Byte} {s u : State} (hs : Structural s.par)
    (h : wRegisterCommit 0x07#5 [v] s = .next u) : u = s.setDev (clearFlags s.par v s.dev) := by
  obtain ⟨hnil, -⟩ | ⟨w, rest, r, hd, hr, -, hw⟩ := wRegisterCommit_next h
  · cases hnil
  · cases hd
    obtain rfl : r = .status := Option.some.inj (hr.symm.trans (regAt_status hs))
    have hacc : s.par.access .status = .w1c := s.par.access_eq hs .status
    obtain ⟨-, -, hu⟩ | ⟨ha, -⟩ | ⟨ha, -⟩ | ⟨ha, -⟩ := writeReg_next hw
    · exact hu
    all_goals cases hacc.symm.trans ha

/-- What a write of STATUS that answers a next state did, whatever the byte and whatever CSN was. -/
theorem exec_writeStatus_next {v : Byte} {s t : State} (hs : Structural s.par)
    (h : exec (.wRegister 0x07#5 [v]) s = .next t) :
    t.par = s.par ∧ t.dev = { clearFlags s.par v s.dev with mosi := [], miso := [] } := by
  obtain ⟨-, -, u, hu, rfl⟩ := exec_next h
  rw [wRegisterCommit_status_next hs hu]
  exact ⟨rfl, rfl⟩

/-- Writing the same byte to STATUS again changes nothing more in the device. -/
theorem exec_writeStatus_twice {v : Byte} {s t u : State} (hs : Structural s.par)
    (ht : exec (.wRegister 0x07#5 [v]) s = .next t) (hu : exec (.wRegister 0x07#5 [v]) t = .next u) : u.dev = t.dev := by
  obtain ⟨hp, hd⟩ := exec_writeStatus_next hs ht
  obtain ⟨-, hd'⟩ := exec_writeStatus_next (hp ▸ hs) hu
  rw [hd', hp, hd, clearFlags_emptyBuffer, clearFlags_clearFlags]

end Sys2Proof.Machine

open Sys2Proof Sys2Proof.Machine Sys2Proof.Safety

/-- Settles O18: a write of STATUS commits `clearFlags`, which is idempotent and touches only the three flags. -/
theorem statusWriteOneToClear : Obligations.StatusWriteOneToClear := by
  refine ⟨fun v s hs hr hv => ?_, fun v s t u hs => exec_writeStatus_twice hs, fun s t hs h => ?_, fun s t hs h => ?_⟩
  · have hx := exec_writeStatus hs hr hv
    exact ⟨_, hx, exec_outside hx, rfl, by rw [(exec_writeStatus_next hs hx).2, clearFlags_eq hs]⟩
  · rw [(exec_writeStatus_next hs h).2, clearFlags_zero]
  · rw [(exec_writeStatus_next hs h).2, clearFlags_rxDR_only hs]

end

section
/-! Proofs for 10_state.md R32: the effective addresses of the pipes. -/

namespace Sys2Proof.Machine

/-! ## An address and its bytes -/

theorem addrOfBytes_cons_low (b : Byte) (bs : List Byte) : (addrOfBytes (b :: bs)).setWidth 8 = b := by
  apply BitVec.eq_of_getLsbD_eq
  intro i hi
  simp [addrOfBytes, hi]

/-- The bits above the low byte come from the other bytes alone. -/
theorem addrOfBytes_cons_high (b b' : Byte) (bs : List Byte) : addrOfBytes (b :: bs) >>> 8 = addrOfBytes (b' :: bs) >>> 8 := by
  have low_gone : ∀ x : Byte, x.setWidth 40 >>> 8 = 0#40 := by decide
  simp only [addrOfBytes, BitVec.ushiftRight_or_distrib, low_gone]

/-- Replacing the low byte of an address keeps the bits above it. -/
theorem addrOfBytes_replace_low_high (b : Byte) (a : Addr) : addrOfBytes (b :: (bytesOfAddr a).tail) >>> 8 = a >>> 8 :=
  calc addrOfBytes (b :: (bytesOfAddr a).tail) >>> 8
      = addrOfBytes (bytesOfAddr a) >>> 8 := addrOfBytes_cons_high b (a.setWidth 8) _
    _ = a >>> 8 := by rw [addrOfBytes_bytesOfAddr]

/-! ## Effective addresses -/

/-- From pipe 2 on, the bits above the low byte are those of RX_ADDR_P1. -/
theorem effAddr_high {p : Nat} (d : Device) (h : 2 ≤ p) : effAddr d p >>> 8 = d.rxAddrP1 >>> 8 := by
  match p, h with
  | 2, _ | 3, _ | 4, _ | _ + 5, _ => exact addrOfBytes_replace_low_high _ _

end Sys2Proof.Machine

open Sys2Proof Sys2Proof.Machine Sys2Proof.Safety

/-- Settles O31, from the register map and from what replacing the low byte of an address keeps. -/
theorem pipesTwoToFiveShareHighBytes : Obligations.PipesTwoToFiveShareHighBytes := by
  refine ⟨fun c hc => ⟨regAt_of hc rfl, regAt_of hc rfl, regAt_of hc rfl, regAt_of hc rfl, fun r hr => ?_⟩, fun d => ?_⟩
  · rw [c.width_eq hc]
    revert r
    decide
  · exact ⟨rfl, rfl, fun _ h2 _ => effAddr_high d h2,
      addrOfBytes_cons_low _ _, addrOfBytes_cons_low _ _, addrOfBytes_cons_low _ _, addrOfBytes_cons_low _ _,
      fun _ a h2 _ => effAddr_high { d with rxAddrP1 := a } h2⟩

end

section
/-! Proofs for 30_encoding.md R68 to R79: the decoder and the encoder of wire commands. -/

namespace Sys2Proof

/-! ## The command byte and the data phase together are the frame -/

theorem commandByte_rRegister_high (a : RegAddr) : (0x00#8 ||| a.setWidth 8) &&& 0xE0#8 = 0x00#8 := by revert a; decide
theorem commandByte_wRegister_high (a : RegAddr) : (0x20#8 ||| a.setWidth 8) &&& 0xE0#8 = 0x20#8 := by revert a; decide
theorem commandByte_rRegister_low (a : RegAddr) : (0x00#8 ||| a.setWidth 8).setWidth 5 = a := by revert a; decide
theorem commandByte_wRegister_low (a : RegAddr) : (0x20#8 ||| a.setWidth 8).setWidth 5 = a := by revert a; decide

/-- The decoder reads every command back from its own byte and data phase. -/
theorem decodeCommand_commandByte (i : Instr) : decodeCommand i.commandByte i.data = some i := by
  cases i with
  | rRegister a d =>
    simp only [decodeCommand, Instr.commandByte, Instr.data, commandByte_rRegister_high, if_true, commandByte_rRegister_low]
  | wRegister a d =>
    have hne : (0x20#8 : Byte) ≠ 0x00#8 := by decide
    simp only [decodeCommand, Instr.commandByte, Instr.data, commandByte_wRegister_high, if_true, if_neg hne,
      commandByte_wRegister_low]
  | activate d => simp [decodeCommand, Instr.commandByte, Instr.data]
  | rRxPlWid d => simp [decodeCommand, Instr.commandByte, Instr.data]
  | rRxPayload d => simp [decodeCommand, Instr.commandByte, Instr.data]
  | wTxPayload d => simp [decodeCommand, Instr.commandByte, Instr.data]
  | flushTx d => simp [decodeCommand, Instr.commandByte, Instr.data]
  | flushRx d => simp [decodeCommand, Instr.commandByte, Instr.data]
  | nop d => simp [decodeCommand, Instr.commandByte, Instr.data]

/-- A command byte is the 3 high bits of its row and the 5 address bits. -/
theorem byte_of_rRegister {c : Byte} (h : c &&& 0xE0#8 = 0x00#8) : 0x00#8 ||| (c.setWidth 5 : RegAddr).setWidth 8 = c := by
  revert c; decide
theorem byte_of_wRegister {c : Byte} (h : c &&& 0xE0#8 = 0x20#8) : 0x20#8 ||| (c.setWidth 5 : RegAddr).setWidth 8 = c := by
  revert c; decide

/-- The command that a byte and a data phase decode to has that byte and that data phase: in each row of the decoder. -/
theorem commandByte_of_decodeCommand {c : Byte} {d : List Byte} {i : Instr} (h : decodeCommand c d = some i) :
    i.commandByte = c ∧ i.data = d := by
  unfold decodeCommand at h
  split at h
  · rename_i hc; cases h; exact ⟨byte_of_rRegister hc, rfl⟩
  split at h
  · rename_i hc; cases h; exact ⟨byte_of_wRegister hc, rfl⟩
  iterate 7
    split at h
    · rename_i hc; cases h; exact ⟨hc.symm, rfl⟩
  cases h

end Sys2Proof

open Sys2Proof Sys2Proof.Machine Sys2Proof.Safety

/-- Settles O1: the decoder inverts the encoder in every row, and the encoder the decoder. -/
theorem decodeEncodeRoundTrip : Obligations.DecodeEncodeRoundTrip := by
  refine ⟨decodeCommand_commandByte, fun bs i h => ?_⟩
  cases bs with
  | nil => cases h
  | cons c d =>
    obtain ⟨hc, hd⟩ := commandByte_of_decodeCommand h
    rw [encode_eq, hc, hd]

/-- Settles O2: whether a frame decodes depends on its command byte alone, and of the 256 bytes those of the five ranges do not. -/
theorem unlistedCommandBytesDoNotDecode : Obligations.UnlistedCommandBytesDoNotDecode := by
  refine ⟨fun c d => ?_, by decide +kernel⟩
  rw [decodeCommand_data]
  revert c
  decide

/-- Settles O3: each of the six words is decoded by its row. -/
theorem specWordsDecode : Obligations.SpecWordsDecode := by
  refine ⟨?_, ?_, ?_, ?_, ?_, ?_⟩ <;> rfl

end

section
/-! Proofs about the bus: what the exchange calls of a frame, a failed frame and an aborted one can do, each said once
(41_register_access.md R97, R98). -/

namespace Sys2Proof.Machine

open Sys2Proof.Safety

/-! ## What the bus lines touch -/

/-- All that lines on the bus touch: the device and its line, the clock, the trace, the step index, the locals and the model's own
record of bytes and draws. -/
def BusOnly (s t : State) : Prop :=
  t = { s with
    dev := t.dev, csn := t.csn, clock := t.clock, stepIndex := t.stepIndex, loc := t.loc, trace := t.trace, resp := t.resp
    draws := t.draws }

theorem BusOnly.par {s t : State} (h : BusOnly s t) : t.par = s.par := by rw [h]
theorem BusOnly.ce {s t : State} (h : BusOnly s t) : t.ce = s.ce := by rw [h]
theorem BusOnly.payloadSize {s t : State} (h : BusOnly s t) : t.payloadSize = s.payloadSize := by rw [h]
theorem BusOnly.pipe0Cache {s t : State} (h : BusOnly s t) : t.pipe0Cache = s.pipe0Cache := by rw [h]
theorem BusOnly.program {s t : State} (h : BusOnly s t) : t.program = s.program := by rw [h]
theorem BusOnly.code {s t : State} (h : BusOnly s t) : t.code = s.code := by rw [h]
theorem BusOnly.results {s t : State} (h : BusOnly s t) : t.results = s.results := by rw [h]

theorem BusOnly.refl (s : State) : BusOnly s s := rfl

theorem BusOnly.trans {s t u : State} (h : BusOnly s t) (k : BusOnly t u) : BusOnly s u := by
  unfold BusOnly; rw [k, h]

theorem BusOnly.of_outside {s t : State} (h : SameOutsideDevice s t) : BusOnly s t := by
  obtain ⟨h1, h2, h3, h4, h5, h6, h7, h8, h9, h10, h11, h12, h13⟩ := h
  cases s; cases t
  simp_all [BusOnly]

/-- The exchange calls before a failure put their bytes and the answers into the frame buffer, and each leaves an event. -/
theorem exchangeCalls_next {outs : List (List Byte)} : ∀ {s t : State}, exchangeCalls outs s = .next t →
    ∃ l, l.length = outs.flatten.length
      ∧ t.dev = { s.dev with mosi := s.dev.mosi ++ outs.flatten, miso := s.dev.miso ++ l }
      ∧ t.csn = s.csn ∧ t.clock = s.clock ∧ BusOnly s t := by
  induction outs with
  | nil => intro s t h; cases h; exact ⟨[], rfl, by simp, rfl, rfl, BusOnly.refl _⟩
  | cons o outs ih =>
    intro s t h
    rw [exchangeCalls, andThen_eq_next_iff] at h
    obtain ⟨u, h1, h2⟩ := h
    obtain ⟨l, hl, rfl⟩ := busBytes_next h1
    obtain ⟨l', hl', hd, hc, hk, hb⟩ := ih h2
    exact ⟨l ++ l', by simp [hl, hl'], by rw [hd]; simp, hc, hk, BusOnly.trans (by rfl) hb⟩

/-! ## The device's part of the invariant -/

/-- The part of the invariant that the bus and the radio core reach. -/
structure DeviceInv (s : State) : Prop where
  structural : Structural s.par
  legal : s.dev.legal s.par = true
  bufferEmpty : s.csn = true → s.dev.mosi = [] ∧ s.dev.miso = []
  bufferPaired : s.dev.mosi.length = s.dev.miso.length
  openAfterReset : s.csn = false → s.par.porMs ≤ s.clock

theorem DeviceInv.of_inv {s : State} (h : Inv s) : DeviceInv s :=
  ⟨h.structural, h.legal, h.bufferEmpty, h.bufferPaired, h.openAfterReset⟩

/-- What leaves the device and its line alone, and lets time pass. -/
theorem DeviceInv.of_eq {s t : State} (h : DeviceInv s) (hp : t.par = s.par) (hd : t.dev = s.dev) (hc : t.csn = s.csn)
    (hk : s.clock ≤ t.clock) : DeviceInv t where
  structural := hp ▸ h.structural
  legal := by rw [hp, hd]; exact h.legal
  bufferEmpty hb := by rw [hd]; exact h.bufferEmpty (hc ▸ hb)
  bufferPaired := by rw [hd]; exact h.bufferPaired
  openAfterReset hb := by rw [hp]; exact (h.openAfterReset (hc ▸ hb)).trans hk

/-- A closed frame leaves the buffer empty and CSN high, whatever it was before. -/
theorem deviceInv_closeFrame {s : State} (resp : List Byte) (n : Nat) (hs : Structural s.par) (hl : s.dev.legal s.par = true) :
    DeviceInv (closeFrame resp n s) :=
  ⟨hs, hl, fun _ => ⟨rfl, rfl⟩, rfl, nofun⟩

theorem deviceInv_exec {i : Instr} {s t : State} (h : exec i s = .next t) (hs : DeviceInv s) : DeviceInv t := by
  obtain ⟨-, -, u, hu, rfl⟩ := exec_next h
  have hp : u.par = s.par := by rw [commandCommit_next hu]; rfl
  exact deviceInv_closeFrame _ _ (hp ▸ hs.structural) (legal_commit hu hs.legal)

theorem deviceInv_execBytes {bs : List Byte} {s t : State} (h : execBytes bs s = .next t) (hs : DeviceInv s) : DeviceInv t := by
  unfold execBytes at h
  split at h
  · exact deviceInv_exec h hs
  split at h
  · cases h
  split at h <;> cases h
  exact deviceInv_closeFrame _ _ hs.structural hs.legal

/-- After CSN has fallen a frame is open; it was already, or its opening came after the power-on reset. -/
theorem deviceInv_busOpen {s t : State} (h : busOpen s = .next t) (hs : DeviceInv s) : DeviceInv t ∧ t.csn = false := by
  unfold busOpen at h
  split at h
  · cases h
  rename_i ho
  split at h <;> cases h <;> rename_i hc
  · refine ⟨⟨hs.structural, hs.legal, nofun, rfl, fun _ => ?_⟩, rfl⟩
    simpa [opensTooEarly, hc] using ho
  · exact ⟨hs, by simpa using hc⟩

/-- A longer frame buffer, while CSN is low. -/
theorem DeviceInv.of_buffer {s t : State} {ms l : List Byte} (h : DeviceInv s) (hcsn : s.csn = false) (hl : l.length = ms.length)
    (hp : t.par = s.par) (hd : t.dev = { s.dev with mosi := s.dev.mosi ++ ms, miso := s.dev.miso ++ l }) (hc : t.csn = s.csn)
    (hk : s.clock ≤ t.clock) : DeviceInv t where
  structural := hp ▸ h.structural
  legal := by rw [hp, hd]; exact h.legal
  bufferEmpty hb := by rw [hc, hcsn] at hb; cases hb
  bufferPaired := by rw [hd]; simp [h.bufferPaired, hl]
  openAfterReset hb := by rw [hp]; exact (h.openAfterReset (hc ▸ hb)).trans hk

theorem deviceInv_busBytes {ms : List Byte} {s t : State} (h : busBytes ms s = .next t) (hs : DeviceInv s) (hc : s.csn = false) :
    DeviceInv t := by
  obtain ⟨l, hl, rfl⟩ := busBytes_next h
  exact hs.of_buffer hc hl rfl rfl rfl le_rfl

theorem deviceInv_busClose {s t : State} (h : busClose s = .next t) (hs : DeviceInv s) : DeviceInv t := by
  unfold busClose at h
  split at h
  · cases h; exact hs
  split at h
  · cases h; exact deviceInv_closeFrame _ _ hs.structural hs.legal
  split at h
  · cases h
  rw [andThen_eq_next_iff] at h
  obtain ⟨u, hu, h2⟩ := h
  cases h2
  have hp : u.par = s.par := by rw [commandCommit_next hu]; rfl
  exact deviceInv_closeFrame _ _ (hp ▸ hs.structural) (legal_commit hu hs.legal)

/-! ## The abort -/

/-- The device a failure leaves is legal: the drawn one if it is, and the old one otherwise. -/
theorem legal_loseDevice (dr : Draw) (b : Bool) {s : State} (h : s.dev.legal s.par = true) :
    (loseDevice dr b s).dev.legal s.par = true := by
  show Device.legal s.par (if dr.device.legal s.par then dr.device else s.dev) = true
  split
  · assumption
  · exact h

theorem deviceInv_loseDevice (dr : Draw) (b : Bool) {s : State} (hs : DeviceInv s) (ho : b = false → s.par.porMs ≤ s.clock) :
    DeviceInv (loseDevice dr b s) where
  structural := hs.structural
  legal := legal_loseDevice dr b hs.legal
  bufferEmpty h := by
    obtain rfl : b = true := h
    exact ⟨rfl, rfl⟩
  bufferPaired := by
    cases b
    · exact hs.bufferPaired
    · rfl
  openAfterReset := ho

theorem deviceInv_abortFrame {dr : Draw} {s t : State} (h : abortFrame dr s = .next t) (hs : DeviceInv s) : DeviceInv t := by
  obtain ⟨-, ho, rfl⟩ | ⟨-, rfl⟩ := abortFrame_next h
  · refine (deviceInv_loseDevice dr dr.csn hs fun hb => ?_).of_eq rfl rfl rfl le_rfl
    cases hc : s.csn with
    | false => exact hs.openAfterReset hc
    | true => simpa [opensTooEarly, hc, hb] using ho
  · have hn : DeviceInv (s.note (.csn true)) := hs.of_eq rfl rfl rfl le_rfl
    exact (deviceInv_loseDevice dr true hn nofun).of_eq rfl rfl rfl le_rfl

/-- A failed frame ends in the abort, from a state that differs from the one before only on the bus. -/
theorem frameFails_next {outs : List (List Byte)} {k : Nat} {dr : Draw} {s t : State} (h : frameFails outs k dr s = .next t) :
    ∃ u, abortFrame dr u = .next t ∧ BusOnly s u ∧ (DeviceInv s → DeviceInv u) := by
  unfold frameFails at h
  split at h
  · exact ⟨s, h, BusOnly.refl s, id⟩
  rename_i j
  obtain ⟨v, h1, h2⟩ := (andThen_eq_next_iff ..).1 h
  obtain ⟨w, h3, h4⟩ := (andThen_eq_next_iff ..).1 h2
  obtain ⟨l, hl, hd, hc, hk, hb⟩ := exchangeCalls_next h3
  refine ⟨_, h4, ?_, fun hs => ?_⟩
  · refine (BusOnly.of_outside (busOpen_outside h1)).trans (BusOnly.trans (t := w) ?_ ?_)
    · exact BusOnly.trans (t := v.emit (.csn false)) rfl hb
    · cases outs[j]? <;> rfl
  · obtain ⟨hv, hcsn⟩ := deviceInv_busOpen h1 hs
    have hw : DeviceInv w := (hv.of_eq (t := v.emit (.csn false)) rfl rfl rfl le_rfl).of_buffer hcsn hl hb.par hd hc hk.ge
    cases outs[j]? <;> exact hw.of_eq rfl rfl rfl (Nat.le_add_right _ _)

end Sys2Proof.Machine

end

section
/-! Proofs for the invariant (10_state.md, 41_register_access.md R98, 70_reset_and_hazards.md R166 and R170): the radio core, each line
of the controller, and the host's call keep it. -/

namespace Sys2Proof.Machine

open Sys2Proof.Safety

/-! ## The radio core keeps the device legal -/

/-- A state that differs only in what the radio core writes, with a legal device. -/
theorem inv_of_sameButRadio {s t : State} (h : Inv s) (hr : SameButRadio s t) (hl : t.dev.legal s.par = true) : Inv t := by
  have hp : t.par = s.par := by rw [hr]
  have hmo : t.dev.mosi = s.dev.mosi := by rw [hr]
  have hmi : t.dev.miso = s.dev.miso := by rw [hr]
  have hc : t.csn = s.csn := by rw [hr]
  have hk : t.clock = s.clock := by rw [hr]
  have hz : t.payloadSize = s.payloadSize := by rw [hr]
  have hcode : t.code = s.code := by rw [hr]
  constructor
  case structural => exact hp ▸ h.structural
  case legal => exact hp ▸ hl
  case bufferEmpty => rw [hc, hmo, hmi]; exact h.bufferEmpty
  case bufferPaired => rw [hmo, hmi]; exact h.bufferPaired
  case openAfterReset => rw [hc, hp, hk]; exact h.openAfterReset
  case payloadSize => rw [hz]; exact h.payloadSize
  case pendingSize => rw [hcode]; exact h.pendingSize

theorem legal_txStart {s : State} (h : s.dev.legal s.par = true) : (txStart s).dev.legal s.par = true := by
  obtain ⟨h1, h2, -⟩ := (legal_iff ..).1 h
  unfold txStart
  split
  · rename_i he
    simp only [txStartEnabled, Bool.and_eq_true, Bool.not_eq_true'] at he
    obtain ⟨⟨⟨⟨⟨hpwr, hrx⟩, -⟩, hq⟩, -⟩, -⟩ := he
    have hact : legalActivity s.par { s.dev with txActive := true } = true := by
      show (false || (!s.dev.txq.isEmpty && s.dev.pwrUp s.par && !s.dev.primRx s.par)) = true
      rw [hq, hpwr, hrx]; rfl
    exact (legal_iff ..).2 ⟨h1, h2, hact⟩
  · exact h

theorem legal_txComplete (acked : Bool) {s : State} (h : s.dev.legal s.par = true) :
    (txComplete acked s).dev.legal s.par = true := by
  obtain ⟨h1, h2, -⟩ := (legal_iff ..).1 h
  unfold txComplete
  split
  · split
    · refine (legal_iff ..).2 ⟨h1, ?_, rfl⟩
      obtain ⟨hlen, hpay, hrx⟩ := (legalFifos_iff ..).1 h2
      exact (legalFifos_iff ..).2 ⟨by simp; omega, fun p hp => hpay p (List.mem_of_mem_tail hp), hrx⟩
    · exact (legal_iff ..).2 ⟨h1, h2, rfl⟩
  · exact h

/-- Filing a packet of a legal length under a pipe that exists keeps the RX FIFO legal. -/
theorem legal_rxFile {p : Nat} {payload : List Byte} {s : State} (h : s.dev.legal s.par = true) (hp : p < s.par.numPipes)
    (hlen : 1 ≤ payload.length ∧ payload.length ≤ s.par.maxPayload) : (rxFile p payload s).dev.legal s.par = true := by
  obtain ⟨h1, h2, h3⟩ := (legal_iff ..).1 h
  unfold rxFile
  split
  · exact h
  · rename_i hroom
    refine (legal_iff ..).2 ⟨h1, ?_, h3⟩
    obtain ⟨htx, htxp, -, hrxp⟩ := (legalFifos_iff ..).1 h2
    refine (legalFifos_iff ..).2 ⟨htx, htxp, by simp; omega, fun e he => ?_⟩
    rcases List.mem_append.1 he with he | he
    · exact hrxp e he
    · rw [List.mem_singleton.1 he]
      have hle : (BitVec.ofNat 3 p).toNat ≤ p := by simpa using Nat.mod_le p 8
      exact ⟨hle.trans_lt hp, hlen⟩

/-- The air picks one of the candidates. -/
theorem pick_mem {α : Type} (p : α) (ps : List α) (pick : Nat) : (p :: ps).getD (pick % (p :: ps).length) p ∈ p :: ps := by
  have hlt : pick % (p :: ps).length < (p :: ps).length := Nat.mod_lt _ (by simp)
  rw [List.getD_eq_getElem _ _ hlt]
  exact List.getElem_mem hlt

theorem candidatePipes_lt {c : Config} {d : Device} {x : Addr} {payload : List Byte} {p : Nat}
    (h : p ∈ candidatePipes c d x payload) : p < c.numPipes :=
  List.mem_range.1 (List.mem_of_mem_filter h)

theorem legal_rxDeliver (x : Addr) (payload : List Byte) (pick : Nat) {s : State} (h : s.dev.legal s.par = true) :
    (rxDeliver x payload pick s).dev.legal s.par = true := by
  unfold rxDeliver
  split
  · rename_i hc
    split
    · exact h
    · rename_i p ps hps
      have hmem : (p :: ps).getD (pick % (p :: ps).length) p ∈ candidatePipes s.par s.dev x payload := hps ▸ pick_mem p ps pick
      exact legal_rxFile h (candidatePipes_lt hmem) hc.2
  · exact h

/-! ## The payload size of the call in progress -/

/-- The lines that will set the payload size set at least 1. -/
def SizesPositive (as : List Action) : Prop := ∀ n, Action.setPayloadSize n ∈ as → 1 ≤ n

theorem sizesPositive_nil : SizesPositive [] := nofun

theorem sizesPositive_append {as bs : List Action} : SizesPositive (as ++ bs) ↔ SizesPositive as ∧ SizesPositive bs := by
  simp only [SizesPositive, List.mem_append]
  exact ⟨fun h => ⟨fun n hn => h n (.inl hn), fun n hn => h n (.inr hn)⟩, fun h n hn => hn.elim (h.1 n) (h.2 n)⟩

/-- Lines none of which sets the payload size. -/
theorem sizesPositive_of_not_mem {as : List Action} (h : ∀ n, Action.setPayloadSize n ∉ as) : SizesPositive as :=
  fun n hn => absurd hn (h n)

/-- The rest of the invariant: what `cfg.payload_size` holds and what the lines will set it to. -/
structure SizeInv (s : State) : Prop where
  payloadSize : ∀ n, s.payloadSize = some n → 1 ≤ n ∧ n ≤ 32
  pendingSize : SizesPositive s.code

theorem inv_iff (s : State) : Inv s ↔ DeviceInv s ∧ SizeInv s :=
  ⟨fun h => ⟨DeviceInv.of_inv h, h.payloadSize, h.pendingSize⟩,
   fun ⟨h, k⟩ => ⟨h.structural, h.legal, h.bufferEmpty, h.bufferPaired, h.openAfterReset, k.payloadSize, k.pendingSize⟩⟩

theorem SizeInv.of_eq {s t : State} (h : SizeInv s) (hz : t.payloadSize = s.payloadSize) (hc : t.code = s.code) : SizeInv t :=
  ⟨hz ▸ h.payloadSize, hc ▸ h.pendingSize⟩

theorem SizeInv.of_bus {s t : State} (h : SizeInv s) (hb : BusOnly s t) : SizeInv t := h.of_eq hb.payloadSize hb.code

/-- No line is left. -/
theorem SizeInv.done {s t : State} (h : SizeInv s) (hz : t.payloadSize = s.payloadSize) (hc : t.code = []) : SizeInv t :=
  ⟨hz ▸ h.payloadSize, hc ▸ sizesPositive_nil⟩

theorem SizeInv.abort {dr : Draw} {s t : State} (hs : SizeInv s) (h : abortFrame dr s = .next t) : SizeInv t := by
  obtain ⟨-, -, rfl⟩ | ⟨-, rfl⟩ := abortFrame_next h <;> exact hs.done rfl rfl

/-- Lines put in front, none of which sets the payload size. -/
theorem SizeInv.push {s t : State} {as : List Action} (h : SizeInv s) (hz : t.payloadSize = s.payloadSize)
    (hc : t.code = as ++ s.code) (has : ∀ n, Action.setPayloadSize n ∉ as) : SizeInv t :=
  ⟨hz ▸ h.payloadSize, hc ▸ sizesPositive_append.2 ⟨sizesPositive_of_not_mem has, h.pendingSize⟩⟩

/-! ## A line of the controller -/

/-- A line that leaves the device alone. -/
theorem inv_of_line {s t : State} (h : Inv s) (hp : t.par = s.par) (hd : t.dev = s.dev) (hc : t.csn = s.csn)
    (hk : s.clock ≤ t.clock) (hz : SizeInv s → SizeInv t) : Inv t :=
  (inv_iff t).2 ⟨(DeviceInv.of_inv h).of_eq hp hd hc hk, hz ((inv_iff s).1 h).2⟩

theorem inv_abortFrame {dr : Draw} {s t : State} (h : abortFrame dr s = .next t) (hs : Inv s) : Inv t :=
  (inv_iff t).2 ⟨deviceInv_abortFrame h (DeviceInv.of_inv hs), ((inv_iff s).1 hs).2.abort h⟩

/-- What the bus alone did. -/
theorem inv_of_bus {s t : State} (h : Inv s) (hd : DeviceInv s → DeviceInv t) (hb : BusOnly s t) : Inv t :=
  (inv_iff t).2 ⟨hd (DeviceInv.of_inv h), ((inv_iff s).1 h).2.of_bus hb⟩

theorem inv_frameStep {outs : List (List Byte)} {dr : Draw} {s t : State} (h : frameStep outs dr s = .next t) (hs : Inv s) : Inv t := by
  unfold frameStep at h
  split at h
  · obtain ⟨u, ha, hb, hd⟩ := frameFails_next h
    exact inv_abortFrame ha (inv_of_bus hs hd hb)
  · obtain ⟨u, h1, h2⟩ := (andThen_eq_next_iff ..).1 h
    cases h2
    refine inv_of_bus hs (fun hs => ?_) (BusOnly.trans (BusOnly.of_outside (execBytes_outside h1)) rfl)
    exact (deviceInv_execBytes h1 hs).of_eq rfl rfl rfl (Nat.le_add_right _ _)

theorem inv_csnStep {v : Bool} {dr : Draw} {s t : State} (h : csnStep v dr s = .next t) (hs : Inv s) : Inv t := by
  unfold csnStep at h
  split at h
  · exact inv_abortFrame h hs
  split at h <;> obtain ⟨u, h1, h2⟩ := (andThen_eq_next_iff ..).1 h <;> cases h2
  · refine inv_of_bus hs (fun hs => ?_) (BusOnly.trans (BusOnly.of_outside (busClose_outside h1)) rfl)
    exact (deviceInv_busClose h1 hs).of_eq rfl rfl rfl le_rfl
  · refine inv_of_bus hs (fun hs => ?_) (BusOnly.trans (BusOnly.of_outside (busOpen_outside h1)) rfl)
    exact (deviceInv_busOpen h1 hs).1.of_eq rfl rfl rfl le_rfl

theorem inv_exchangeStep {out : List Byte} {dr : Draw} {s t : State} (h : exchangeStep out dr s = .next t) (hs : Inv s) : Inv t := by
  unfold exchangeStep at h
  split at h
  · exact inv_abortFrame h (inv_of_line hs rfl rfl rfl le_rfl fun hz => hz.of_eq rfl rfl)
  split at h
  · cases h
    exact inv_of_line hs rfl rfl rfl (Nat.le_add_right _ _) fun hz => hz.of_eq rfl rfl
  · rename_i hcsn
    obtain ⟨u, h1, h2⟩ := (andThen_eq_next_iff ..).1 h
    cases h2
    refine inv_of_bus hs (fun hs => ?_) (BusOnly.trans (BusOnly.of_outside (busBytes_outside h1)) rfl)
    exact (deviceInv_busBytes h1 hs (by simpa using hcsn)).of_eq rfl rfl rfl (Nat.le_add_right _ _)

theorem inv_ceStep {v : Bool} {dr : Draw} {s t : State} (h : ceStep v dr s = .next t) (hs : Inv s) : Inv t := by
  unfold ceStep at h
  split at h
  · exact inv_abortFrame h (inv_of_line hs rfl rfl rfl le_rfl fun hz => hz.of_eq rfl rfl)
  · cases h
    exact inv_of_line hs rfl rfl rfl le_rfl fun hz => hz.of_eq rfl rfl

theorem not_mem_finishTransmit (c : Config) (n : Nat) : Action.setPayloadSize n ∉ finishTransmit c := by
  simp [finishTransmit, clearStatusAll, cmdOnly, powerDownCode, writeReg1, readReg1, readRegN]

/-- A line that touches no bus: it puts lines in front, none of which sets the payload size, and may set a local. -/
def Pushes (s t : State) : Prop :=
  ∃ l as, t = { s with loc := l, code := as ++ s.code } ∧ ∀ n, Action.setPayloadSize n ∉ as

theorem inv_of_pushes {s t : State} (h : Inv s) (ht : Pushes s t) : Inv t := by
  obtain ⟨l, as, rfl, has⟩ := ht
  exact inv_of_line h rfl rfl rfl le_rfl fun hz => hz.push rfl rfl has

theorem pushes_pollFlagsStep (s : State) : Pushes s (pollFlagsStep s) := by
  simp only [pollFlagsStep]
  split
  · exact ⟨_, _, rfl, not_mem_finishTransmit _⟩
  · exact ⟨_, _, rfl, by simp⟩

theorem pushes_pollDeadlineStep (s : State) : Pushes s (pollDeadlineStep s) := by
  unfold pollDeadlineStep
  split
  · exact ⟨_, _, rfl, not_mem_finishTransmit _⟩
  · exact ⟨_, _, rfl, by simp⟩

theorem pushes_clearSeenStep (s : State) : Pushes s (clearSeenStep s) := by
  simp only [clearSeenStep]
  split
  · exact ⟨_, _, rfl, by split <;> simp [writeReg1]⟩
  · exact ⟨_, [], rfl, by simp⟩

theorem pushes_restorePipe0Step (s : State) : Pushes s (restorePipe0Step s) := by
  unfold restorePipe0Step
  split
  · exact ⟨_, [], rfl, by simp⟩
  · exact ⟨_, _, rfl, by simp [writeRegN]⟩

/-- The line that sets the payload size cuts it to `MAX_PAYLOAD`, 32 bytes. -/
theorem sizeInv_setPayloadSizeStep {n : Nat} {s : State} (h : SizeInv s) (hs : Structural s.par) (hn : 1 ≤ n) :
    SizeInv (setPayloadSizeStep n s) where
  payloadSize m hm := by
    simp only [setPayloadSizeStep, hs.maxPayload, Option.some.injEq] at hm
    omega
  pendingSize := h.pendingSize

/-- Every line keeps the invariant; `s` holds the lines after it. -/
theorem inv_runAction {a : Action} {dr : Draw} {s t : State} (h : runAction a dr s = .next t) (hs : Inv s)
    (ha : SizesPositive [a]) : Inv t := by
  cases a with
  | frame outs => exact inv_frameStep h hs
  | setCSN v => exact inv_csnStep h hs
  | exchange out => exact inv_exchangeStep h hs
  | setCE v => exact inv_ceStep h hs
  | waitMs d => cases h; exact inv_of_pushes hs ⟨_, _, rfl, by simp⟩
  | waitUntil u d => cases h; exact inv_of_line hs rfl rfl rfl (le_max_left _ _) fun hz => hz.of_eq rfl rfl
  | now => cases h; exact inv_of_line hs rfl rfl rfl le_rfl fun hz => hz.of_eq rfl rfl
  | rmw a st cl => cases h; exact inv_of_pushes hs ⟨_, _, rfl, by simp [writeReg1]⟩
  | startDeadline => cases h; exact inv_of_pushes hs ⟨_, [], rfl, by simp⟩
  | poll => cases h; exact inv_of_pushes hs ⟨_, _, rfl, by simp [readReg1, readRegN]⟩
  | pollFlags => cases h; exact inv_of_pushes hs (pushes_pollFlagsStep s)
  | pollDeadline => cases h; exact inv_of_pushes hs (pushes_pollDeadlineStep s)
  | clearSeen => cases h; exact inv_of_pushes hs (pushes_clearSeenStep s)
  | keep => cases h; exact inv_of_pushes hs ⟨_, [], rfl, by simp⟩
  | setPayloadSize n =>
    cases h
    exact inv_of_line hs rfl rfl rfl le_rfl fun hz => sizeInv_setPayloadSizeStep hz hs.structural (ha n (by simp))
  | cachePipe0 a => cases h; exact inv_of_line hs rfl rfl rfl le_rfl fun hz => hz.of_eq rfl rfl
  | restorePipe0 => cases h; exact inv_of_pushes hs (pushes_restorePipe0Step s)
  | ret r => cases h; exact inv_of_line hs rfl rfl rfl le_rfl fun hz => hz.done rfl rfl

/-! ## The host's call -/

theorem sizesPositive_runLines {as : List Action} {s t : State} (h : runLines as s = .next t) (has : SizesPositive as) :
    SizesPositive t.code := by
  cases h; exact has

theorem sizesPositive_rejectCall {s t : State} (h : rejectCall s = .next t) : SizesPositive t.code := by
  cases h; exact sizesPositive_nil

/-- A call that needs the payload size goes on with one, or is refused. -/
theorem withPayloadSize_next {s t : State} {k : Nat → Out} (h : withPayloadSize s k = .next t) : ∃ n, k n = .next t := by
  unfold withPayloadSize at h
  split at h
  · cases h
  · exact ⟨_, h⟩

/-- `initializeRadio` sets the size it asks for and is refused when that is 0. -/
theorem sizesPositive_initialize (c : Config) {n : Nat} (h : n ≠ 0) : SizesPositive (initProgram c ++ initFinish c n) := by
  refine sizesPositive_append.2 ⟨sizesPositive_of_not_mem ?_, fun m hm => ?_⟩
  · simp [initProgram, writeReg1, writeRegN, activateCmd]
  · obtain rfl : m = n := by
      simpa [initFinish, writeReg1, clearStatusAll, flushBoth, cmdOnly, powerDownCode, readReg1, readRegN] using hm
    omega

/-- Only `initializeRadio` has a line that sets the payload size. -/
theorem sizesPositive_startOp {op : HostOp} {s t : State} (h : startOp op s = .next t) : SizesPositive t.code := by
  have lines : ∀ {as}, runLines as s = .next t → (∀ n, Action.setPayloadSize n ∉ as) → SizesPositive t.code :=
    fun h has => sizesPositive_runLines h (sizesPositive_of_not_mem has)
  cases op with
  | readRegister a => exact lines h (by simp [readReg1, readRegN])
  | readRegisterN a n =>
    simp only [startOp, opReadRegisterN] at h
    split at h
    · exact lines h (by simp [readRegN])
    · exact sizesPositive_rejectCall h
  | writeRegister a v => exact lines h (by simp [writeReg1])
  | writeRegisterN a bs =>
    simp only [startOp, opWriteRegisterN] at h
    split at h
    · exact lines h (by simp [writeRegN])
    · exact sizesPositive_rejectCall h
  | initializeRadio req =>
    simp only [startOp, opInitialize] at h
    split at h
    · cases h
    · rename_i hn
      exact sizesPositive_runLines h (sizesPositive_initialize _ hn)
  | openWritingPipe a =>
    simp only [startOp, opOpenWritingPipe] at h
    split at h
    · exact sizesPositive_rejectCall h
    · obtain ⟨n, h⟩ := withPayloadSize_next h
      exact lines h (by simp [writeRegN, writeReg1])
  | openReadingPipe i a =>
    simp only [startOp, opOpenReadingPipe] at h
    split at h
    · exact sizesPositive_rejectCall h
    split at h
    · exact sizesPositive_rejectCall h
    · obtain ⟨n, h⟩ := withPayloadSize_next h
      refine lines h fun m => ?_
      unfold openReadingLines pipeAddressFrame
      split <;> split <;> simp [writeRegN, writeReg1, readReg1, readRegN]
  | transmit p =>
    have enter : ∀ q m, Action.setPayloadSize m ∉ enterTransmit s.par q := by
      intro q m
      unfold enterTransmit powerUpWait
      split <;> simp [clearStatusAll, setModePtx, writeReg1, readReg1, readRegN, cmdData, cePulse]
    simp only [startOp, opTransmit] at h
    split at h
    · exact sizesPositive_rejectCall h
    obtain ⟨n, h⟩ := withPayloadSize_next h
    split at h
    · exact lines h (enter _)
    split at h
    · exact sizesPositive_rejectCall h
    · exact lines h (enter _)
  | startListening =>
    refine lines h fun m => ?_
    unfold powerUpWait
    split <;> simp [setModePrx, readReg1, readRegN, flushBoth, cmdOnly]
  | available => exact lines h (by simp [readReg1, readRegN])
  | readPayload len =>
    simp only [startOp, opReadPayload] at h
    split at h
    · exact sizesPositive_rejectCall h
    obtain ⟨n, h⟩ := withPayloadSize_next h
    split at h
    · exact lines h (by simp [readPayloadLines, cmdRead, cmdOnly])
    split at h
    · exact sizesPositive_rejectCall h
    · exact lines h (by simp [readPayloadLines, cmdRead, cmdOnly])
  | stopListening => exact lines h (by simp [flushBoth, cmdOnly])
  | dumpRegisters => exact lines h (by simp [readRegN])

theorem inv_startOp {op : HostOp} {s t : State} (h : startOp op s = .next t) (hs : Inv s) : Inv t := by
  have hz := sizesPositive_startOp h
  obtain ⟨as, rfl⟩ | rfl := startOp_next h
  · exact inv_of_line hs rfl rfl rfl le_rfl fun h => ⟨h.payloadSize, hz⟩
  · exact inv_of_line hs rfl rfl rfl le_rfl fun h => h.done rfl rfl

/-! ## A step -/

theorem inv_controllerStep {dr : Draw} {s t : State} (h : controllerStep dr s = .next t) (hs : Inv s) : Inv t := by
  obtain ⟨u, rfl, hu⟩ := controllerStep_next h
  have later : Inv u → Inv (u.passTime dr.idleMs) := fun h =>
    inv_of_line h rfl rfl rfl (Nat.le_add_right _ _) fun hz => hz.of_eq rfl rfl
  refine later ?_
  obtain ⟨hc, hp, rfl⟩ | ⟨hc, op, rest, hp, hu⟩ | ⟨a, rest, hc, hu⟩ := hu
  · exact inv_of_line hs rfl rfl rfl le_rfl fun hz => hz.of_eq rfl rfl
  · exact inv_startOp hu (inv_of_line hs rfl rfl rfl le_rfl fun hz => hz.of_eq rfl rfl)
  · have hsize : SizesPositive ([a] ++ rest) := fun n hn => hs.pendingSize n (hc ▸ hn)
    obtain ⟨ha, hrest⟩ := sizesPositive_append.1 hsize
    exact inv_runAction hu (inv_of_line hs rfl rfl rfl le_rfl fun hz => ⟨hz.payloadSize, hrest⟩) ha

end Sys2Proof.Machine

open Sys2Proof Sys2Proof.Machine Sys2Proof.Safety

/-- Settles O55: each kind of move keeps the invariant, by what `step_next` says a step can be. -/
theorem stepKeepsInvariant : Obligations.StepKeepsInvariant := by
  intro s t hs h
  have taken : ∀ rest, Inv { s with sched := rest } := fun rest =>
    inv_of_line hs rfl rfl rfl le_rfl fun hz => hz.of_eq rfl rfl
  obtain ⟨rest, d, -, rfl⟩ | ⟨m, rest, -, ht⟩ | ⟨dr, rest, -, ht⟩ := step_next h
  · exact inv_of_line hs rfl rfl rfl (Nat.le_add_right _ _) fun hz => hz.of_eq rfl rfl
  · obtain rfl | rfl | ⟨b, rfl⟩ | ⟨x, p, k, rfl⟩ := ht
    · exact taken rest
    · exact inv_of_sameButRadio (taken rest) (txStart_sameButRadio _) (legal_txStart hs.legal)
    · exact inv_of_sameButRadio (taken rest) (txComplete_sameButRadio b _) (legal_txComplete b hs.legal)
    · exact inv_of_sameButRadio (taken rest) (rxDeliver_sameButRadio x p k _) (legal_rxDeliver x p k hs.legal)
  · exact inv_controllerStep ht (taken rest)

/-- Settles O56: the reset values are legal ones, and CSN is high with an empty frame buffer. -/
theorem resetMeetsInvariant : Obligations.ResetMeetsInvariant where
  structural := Tests.structural_hw
  legal := by decide
  bufferEmpty _ := ⟨rfl, rfl⟩
  bufferPaired := rfl
  openAfterReset := nofun
  payloadSize := nofun
  pendingSize := nofun

/-- Settles O57: the launch state is a constant, and each clause is its value there. -/
theorem resetIsTheLaunchState : Obligations.ResetIsTheLaunchState := by
  refine ⟨rfl, ?_⟩
  decide

end

section
/-! Proofs about a step that sends one frame, and the bus level beside it (40_spi_commands.md R84, 41_register_access.md R97). -/

namespace Sys2Proof.Machine

open Sys2Proof.Safety

/-! ## One step that sends a frame -/

/-- `s` with `code` and `sched` still to come. -/
def State.atLine (s : State) (code : List Action) (sched : List Move) : State := { s with code := code, sched := sched }

/-- The controller's move at a line `a`. -/
theorem step_of_line {s : State} {dr : Draw} {rest : List Move} {a : Action} {code : List Action} (hm : ControllerMoves s dr rest)
    (hc : s.code = a :: code) : step s =
      andThen (runAction a dr (s.atLine code rest)) fun t => .next (t.passTime dr.idleMs) := by
  rw [step_of_controllerMoves hm]
  simp only [controllerStep, hc]
  rfl

/-- The controller's move at a frame none of whose primitives fails. -/
theorem step_of_frame {s : State} {dr : Draw} {rest : List Move} {outs : List (List Byte)} {code : List Action}
    (hm : ControllerMoves s dr rest) (hc : s.code = .frame outs :: code) (hf : frameFailure s.par dr outs.length = none) :
    step s = andThen (execBytes (fetchFrame outs s) (s.atLine code rest)) fun t =>
      .next ((frameReturns outs (if s.csn then 0 else s.dev.mosi.length) dr t).passTime dr.idleMs) := by
  have hf' : frameFailure (s.atLine code rest).par dr outs.length = none := hf
  rw [step_of_line hm hc]
  simp only [runAction, frameStep, hf', andThen_assoc]
  rfl

theorem execBytes_of_decode {bs : List Byte} {i : Instr} (h : decode bs = some i) (s : State) : execBytes bs s = exec i s := by
  simp only [execBytes, h]

/-- A frame whose command byte names no wire command. -/
theorem execBytes_unlisted {c : Byte} {d : List Byte} {s : State} (h : decodeCommand c d = none) (ho : opensTooEarly s = false) :
    execBytes (c :: d) s = .refused (.undefinedCommand c) := by
  simp only [execBytes, decode, h, ho]
  rfl

/-- A frame with no byte has no effect. -/
theorem execBytes_nil {s : State} (ho : opensTooEarly s = false) : execBytes [] s = .next (closeFrame [] 0 s) := by
  simp only [execBytes, decode, ho]
  rfl

theorem execBytes_tooEarly {bs : List Byte} {s : State} (ho : opensTooEarly s = true) :
    execBytes bs s = .refused .frameBeforePowerOnReset := by
  unfold execBytes
  split
  · rw [exec_eq_runCommand]; exact if_pos ho
  · rw [if_pos ho]

theorem opensTooEarly_of_lt {s : State} (hc : s.csn = true) (hk : s.clock < s.par.porMs) : opensTooEarly s = true := by
  simp [opensTooEarly, hc, hk]

/-! ## The three phases of a frame on the bus -/

theorem busOpen_of_high {s : State} (hc : s.csn = true) (ho : opensTooEarly s = false) : busOpen s = .next (inFrame s [] []) := by
  simp only [busOpen, ho, hc]
  rfl

/-- The command byte, as the first of an open frame. -/
theorem busByte_first {c : Byte} {i : Instr} {s : State} (hd : decodeCommand c [] = some i) (hr : commandRefusal s.par i = none) :
    busByte c (inFrame s [] []) = .next (inFrame s [c] [statusByte s.par s.dev]) := by
  have hr' : commandRefusal (inFrame s [] []).par i = none := hr
  simp only [busByte, hd, hr']
  rfl

/-- The MISO bytes of a frame with `n` data bytes, as the bus counts them. -/
theorem frameResponse_eq_cons (s : State) (i : Instr) (n : Nat) :
    statusByte s.par s.dev :: (List.range n).map (fun j => commandMiso i s (0 + 1 + j)) = frameResponse s n (commandMiso i s) := by
  simp only [frameResponse, Nat.zero_add, Nat.add_comm 1]

/-- The bytes of a whole frame after its command byte, and its close, are the commit of the command. -/
theorem busFrame_rest {c : Byte} {i : Instr} (d : List Byte) (s : State) (hd : decodeCommand c [] = some i) :
    andThen (busBytes d (inFrame s [c] [statusByte s.par s.dev])) busClose =
      andThen (commandCommit (setData i d) s) fun t =>
        .next (closeFrame (frameResponse s d.length (commandMiso i s)) (d.length + 1) t) := by
  rw [busBytes_inFrame c i hd, andThen_next, List.singleton_append, List.singleton_append]
  rw [busClose_inFrame c i hd, commit_inFrame]
  simp only [List.length_nil, frameResponse_eq_cons, List.length_cons]

/-- The bus level does what the command does, whether the frame may open, decodes, and is refused at its command byte, or not. -/
theorem busFrame_eq_execBytes (bytes : List Byte) {s : State} (hc : s.csn = true) : busFrame bytes s = execBytes bytes s := by
  cases ho : opensTooEarly s with
  | true => rw [execBytes_tooEarly ho, busFrame, busOpen, if_pos ho]; rfl
  | false =>
    rw [busFrame, busOpen_of_high hc ho, andThen_next]
    cases bytes with
    | nil => rw [execBytes_nil ho]; rfl
    | cons c d =>
      rw [busBytes, andThen_assoc]
      cases hd : decodeCommand c [] with
      | none =>
        rw [execBytes_unlisted (decodeCommand_data.2 hd) ho]
        have hb : busByte c (inFrame s [] []) = .refused (.undefinedCommand c) := by simp only [busByte, inFrame, hd]
        rw [hb]; rfl
      | some i =>
        have hi : decode (c :: d) = some (setData i d) := by rw [decode, decodeCommand_setData, hd]; rfl
        rw [execBytes_of_decode hi, exec_eq_runCommand, runCommand.eq_def, ho, commandRefusal_setData, commandMiso_setData, data_setData]
        cases hr : commandRefusal s.par i with
        | some r =>
          have hb : busByte c (inFrame s [] []) = .refused r := by
            have hr' : commandRefusal (inFrame s [] []).par i = some r := hr
            simp only [busByte, hd, hr']
            rfl
          rw [hb]; rfl
        | none => rw [busByte_first hd hr, andThen_next, busFrame_rest d s hd]; rfl

/-! ## The raw lines of a frame -/

theorem exchangeFails_eq_false {c : Config} {dr : Draw} (h : NoFailure c dr) (k place : Nat) : exchangeFails c dr k place = false := by
  have hx : dr.xferMs.getD k 0 ≤ c.xferTimeoutMs := by
    by_cases hk : k < dr.xferMs.length
    · rw [List.getD_eq_getElem _ _ hk]; exact h.2 _ (List.getElem_mem hk)
    · rw [List.getD_eq_default _ _ (by omega)]; exact Nat.zero_le _
  simp only [exchangeFails, h.1, Bool.or_eq_false_iff, decide_eq_false_iff_not, not_lt]
  exact ⟨rfl, hx⟩

/-- `Exchange` while no frame is open: the bytes returned are draws. -/
theorem exchangeStep_of_high {out : List Byte} {dr : Draw} {s : State} (hn : NoFailure s.par dr) (hc : s.csn = true) :
    exchangeStep out dr s = .next { s.emit (.xfer out (drawn s 0 out.length)) with
      draws := s.draws + out.length
      loc := { s.loc with ins := s.loc.ins ++ [drawn s 0 out.length] }
      clock := s.clock + xferTime dr 1 } := by
  simp only [exchangeStep, exchangeFails_eq_false hn, hc, drawn, drawByte, Nat.zero_add]
  rfl

/-- `Exchange` while a frame is open. -/
theorem exchangeStep_of_low {out : List Byte} {dr : Draw} {s : State} (hn : NoFailure s.par dr) (hc : s.csn = false) :
    exchangeStep out dr s = andThen (busBytes out s) fun t =>
      .next { t.emit (.xfer out (t.dev.miso.drop s.dev.miso.length)) with
        loc := { t.loc with ins := t.loc.ins ++ [t.dev.miso.drop s.dev.miso.length] }
        clock := t.clock + xferTime dr 1 } := by
  simp only [exchangeStep, exchangeFails_eq_false hn, hc]
  rfl

/-- `s` after the exchange calls `outs` of an open frame: the frame buffer is that of `d`, its new MISO bytes are cut into what the calls
returned, and `code` and `sched` are left at `clock`. -/
def exchanged (outs : List (List Byte)) (s : State) (d : Device) (code : List Action) (sched : List Move) (clock : Nat) : State :=
  let ins := splitMiso outs (d.miso.drop s.dev.miso.length)
  { s with
    dev := d
    loc := { s.loc with ins := s.loc.ins ++ ins }
    trace := s.trace ++ List.zipWith BusEvent.xfer outs ins
    stepIndex := s.stepIndex + outs.length
    code := code, sched := sched, clock := clock }

/-- Exchange calls after exchange calls: the bytes of the first ones are cut off first. -/
theorem exchanged_cons {o : List Byte} {outs : List (List Byte)} {s : State} {d e : Device} {l m : List Byte} (hl : l.length = o.length)
    (hd : d.miso = s.dev.miso ++ l) (he : e.miso = d.miso ++ m) (code code' : List Action) (sched sched' : List Move) (k k' : Nat) :
    exchanged outs (exchanged [o] s d code' sched' k') e code sched k = exchanged (o :: outs) s e code sched k := by
  have hin : splitMiso (o :: outs) (e.miso.drop s.dev.miso.length) = l :: splitMiso outs m := by
    rw [he, hd]; simp [splitMiso, ← hl]
  have h1 : splitMiso [o] (d.miso.drop s.dev.miso.length) = [l] := by
    rw [hd]; simp [splitMiso, ← hl]
  have h2 : e.miso.drop d.miso.length = m := by rw [he]; simp
  simp only [exchanged, hin, h1, h2]
  simp [Nat.add_assoc, Nat.add_comm 1]

/-- `d` with the bytes `ms` and their answers `l` in its frame buffer. -/
def buffered (d : Device) (ms l : List Byte) : Device := { d with mosi := d.mosi ++ ms, miso := d.miso ++ l }

theorem busBytes_buffered {ms : List Byte} {s t : State} (h : busBytes ms s = .next t) :
    ∃ l, l.length = ms.length ∧ t = s.setDev (buffered s.dev ms l) := busBytes_next h

/-- One `Exchange` line of an open frame. -/
theorem step_exchange {o : List Byte} {dr : Draw} {s : State} {code : List Action} {sched : List Move} (hn : NoFailure s.par dr)
    (hc : s.csn = false) (hcode : s.code = .exchange o :: code) (hs : s.sched = .run dr :: sched) :
    ∃ k, step s = andThen (busBytes o s) fun t => .next (exchanged [o] s t.dev code sched k) := by
  refine ⟨s.clock + xferTime dr 1 + dr.idleMs, ?_⟩
  rw [step_of_line (.inr hs) hcode, runAction.eq_3, exchangeStep_of_low (by exact hn) (by exact hc),
    busBytes_eq (s := s) (u := s.atLine code sched) rfl rfl rfl]
  cases hb : busBytes o s with
  | fault f => exact nomatch f
  | refused r => rfl
  | next t =>
    obtain ⟨l, hl, rfl⟩ := busBytes_buffered hb
    simp [exchanged, splitMiso, buffered, ← hl, State.atLine, State.passTime, State.emit, State.setDev]

/-- The `Exchange` lines of an open frame one by one are its bytes in order. -/
theorem run_exchanges (code : List Action) (sched : List Move) (outs : List (List Byte)) : ∀ (drs : List Draw) (s : State),
    drs.length = outs.length → (∀ x ∈ drs, NoFailure s.par x) → s.csn = false → s.code = outs.map .exchange ++ code →
    s.sched = drs.map .run ++ sched →
    ∃ k, run outs.length s = andThen (busBytes outs.flatten s) fun t => .next (exchanged outs s t.dev code sched k) := by
  induction outs with
  | nil =>
    intro drs s hl _ _ hcode hs
    obtain rfl : drs = [] := List.length_eq_zero_iff.1 hl
    obtain rfl : s.code = code := hcode
    obtain rfl : s.sched = sched := hs
    exact ⟨s.clock, by simp [exchanged, splitMiso, busBytes, run_zero]⟩
  | cons o outs ih =>
    intro drs s hl hn hcsn hcode hs
    cases drs with
    | nil => cases hl
    | cons dr drs =>
      have hcode : s.code = .exchange o :: (outs.map .exchange ++ code) := hcode
      obtain ⟨k', hstep⟩ := step_exchange (hn dr List.mem_cons_self) hcsn hcode hs
      rw [List.length_cons, run_succ, hstep, List.flatten_cons, busBytes_append, andThen_assoc]
      cases hb : busBytes o s with
      | fault f => exact nomatch f
      | refused r => exact ⟨0, rfl⟩
      | next t =>
        obtain ⟨l, hl1, rfl⟩ := busBytes_buffered hb
        let u := exchanged [o] s (buffered s.dev o l) (outs.map .exchange ++ code) (drs.map .run ++ sched) k'
        obtain ⟨k, hk⟩ := ih drs u (by simpa using hl) (fun x hx => hn x (List.mem_cons_of_mem _ hx)) hcsn rfl rfl
        refine ⟨k, ?_⟩
        simp only [andThen_next]
        refine hk.trans ?_
        rw [busBytes_eq (s := s.setDev (buffered s.dev o l)) (u := u) rfl rfl rfl, andThen_assoc]
        cases hb2 : busBytes outs.flatten (s.setDev (buffered s.dev o l)) with
        | fault f => exact nomatch f
        | refused r => rfl
        | next t =>
          obtain ⟨m, -, rfl⟩ := busBytes_buffered hb2
          exact congrArg Host.Outcome.next (exchanged_cons (d := buffered s.dev o l)
            (e := buffered (buffered s.dev o l) outs.flatten m) hl1 rfl rfl ..)

/-- The close of an open frame whose bytes all have their answers: those are what the frame returned. -/
theorem busClose_open_next {s t : State} (hc : s.csn = false) (hb : s.dev.mosi.length = s.dev.miso.length)
    (h : busClose s = .next t) : t = { s with csn := true, dev := t.dev, resp := s.dev.miso, draws := t.draws } := by
  unfold busClose at h
  rw [if_neg (by simp [hc])] at h
  split at h
  · rename_i hm
    obtain hmiso : s.dev.miso = [] := List.length_eq_zero_iff.1 (by rw [← hb, hm]; rfl)
    cases h
    simp only [closeFrame, hmiso]
  · split at h
    · cases h
    obtain ⟨u, hu, h2⟩ := (andThen_eq_next_iff ..).1 h
    cases h2
    rw [commandCommit_next hu]
    rfl

/-- `SetCSN(1)`. -/
theorem csnStep_rises {dr : Draw} {s : State} (hn : NoFailure s.par dr) :
    csnStep true dr s = andThen (busClose s) fun t => .next (t.emit (.csn true)) := by
  simp only [csnStep, hn.1]
  rfl

/-- `s` with CSN fallen, by the raw line `SetCSN(0)`. -/
def fallen (s : State) : State := { (inFrame s [] []).emit (.csn false) with loc := { s.loc with ins := [] } }

/-- `SetCSN(0)` with CSN high. -/
theorem csnStep_falls {dr : Draw} {s : State} (hn : NoFailure s.par dr) (hc : s.csn = true) (ho : opensTooEarly s = false) :
    csnStep false dr s = .next (fallen s) := by
  simp only [csnStep, hn.1, busOpen_of_high hc ho]
  rfl

theorem csnStep_tooEarly {dr : Draw} {s : State} (hn : NoFailure s.par dr) (ho : opensTooEarly s = true) :
    csnStep false dr s = .refused .frameBeforePowerOnReset := by
  simp only [csnStep, hn.1, busOpen, ho]
  rfl

/-- The last raw line, after the exchange calls of the frame: CSN rises, and the frame has returned what `Frame` returns. -/
theorem step_rawClose {s : State} {outs : List (List Byte)} {l : List Byte} {dr : Draw} (dr' : Draw) (code : List Action) (k : Nat)
    (hn : NoFailure s.par dr) (hl : l.length = outs.flatten.length) :
    ∃ q, step (exchanged outs (fallen s) (buffered (fallen s).dev outs.flatten l) (.setCSN true :: code) [.run dr] k) =
      andThen (busClose ((inFrame (s.atLine code []) [] []).setDev (buffered (fallen s).dev outs.flatten l)))
        fun t => .next { frameReturns outs 0 dr' t with clock := q } := by
  refine ⟨k + dr.idleMs, ?_⟩
  let v := (inFrame (s.atLine code []) [] []).setDev (buffered (fallen s).dev outs.flatten l)
  let x := exchanged outs (fallen s) (buffered (fallen s).dev outs.flatten l) (.setCSN true :: code) [.run dr] k
  have hv : v.dev.mosi.length = v.dev.miso.length := by simp [v, buffered, fallen, inFrame, hl]
  rw [step_of_line (rest := []) (code := code) (.inr rfl) rfl, runAction.eq_2, csnStep_rises (by exact hn),
    busClose_eq (s := v) (u := x.atLine code []) rfl rfl rfl rfl rfl]
  cases ht : busClose v with
  | fault f => exact nomatch f
  | refused r => rfl
  | next t =>
    have hm : v.dev.miso = l := rfl
    rw [busClose_open_next rfl hv ht, hm]
    simp [x, v, State.atLine, exchanged, fallen, buffered, inFrame, frameReturns, frameEvents, State.passTime, State.emit,
      State.setDev, Nat.add_assoc, Nat.add_comm 1]

/-- The raw lines of a frame give what the frame gives, but for the clock. -/
theorem run_rawLines {s : State} {outs : List (List Byte)} (code : List Action) {drs : List Draw} (dr : Draw) (hc : s.csn = true)
    (hn : ∀ x ∈ drs, NoFailure s.par x) (hl : drs.length = outs.length + 2) :
    ∃ q, run (outs.length + 2) (s.atLine (rawLines outs ++ code) (drs.map .run)) =
      andThen (busFrame outs.flatten (s.atLine code [])) fun t => .next { frameReturns outs 0 dr t with clock := q } := by
  obtain ⟨d0, drs, rfl⟩ : ∃ d ds, drs = d :: ds := List.exists_cons_of_length_pos (by omega)
  obtain ⟨dm, dl, rfl⟩ := (List.eq_nil_or_concat drs).resolve_left (by rintro rfl; simp at hl)
  let u := s.atLine (outs.map .exchange ++ (.setCSN true :: code)) (dm.map .run ++ [.run dl])
  have hfirst : step (s.atLine (rawLines outs ++ code) ((d0 :: dm.concat dl).map .run)) =
      andThen (csnStep false d0 u) fun t => .next (t.passTime d0.idleMs) := by
    rw [step_of_line (.inr rfl) rfl]
    simp [u, State.atLine, runAction]
  have hn0 : NoFailure u.par d0 := hn d0 (by simp)
  rw [run_succ, hfirst]
  cases ho : opensTooEarly s with
  | true => exact ⟨0, by rw [csnStep_tooEarly hn0 ho, busFrame_eq_execBytes _ (by exact hc), execBytes_tooEarly (by exact ho)]; rfl⟩
  | false =>
    have hb : busBytes outs.flatten ((fallen u).passTime d0.idleMs) = andThen (busBytes outs.flatten (inFrame (s.atLine code []) [] []))
      fun t => .next (((fallen u).passTime d0.idleMs).setDev t.dev) := busBytes_eq rfl rfl rfl
    obtain ⟨k, hk⟩ := run_exchanges (.setCSN true :: code) [.run dl] outs dm ((fallen u).passTime d0.idleMs) (by simpa using hl)
      (fun x hx => hn x (by simp [hx])) rfl rfl rfl
    rw [csnStep_falls hn0 hc ho, andThen_next, andThen_next, run_add, hk, hb, busFrame, busOpen_of_high (by exact hc) (by exact ho),
      andThen_next, andThen_assoc, andThen_assoc]
    cases hbb : busBytes outs.flatten (inFrame (s.atLine code []) [] []) with
    | fault f => exact nomatch f
    | refused r => exact ⟨0, rfl⟩
    | next t =>
      obtain ⟨l, hl1, rfl⟩ := busBytes_buffered hbb
      obtain ⟨q, hq⟩ := step_rawClose dr code k (hn dl (by simp)) hl1
      exact ⟨q, (run_one _).trans hq⟩

/-- `Frame` of the lists none of which fails, and its raw lines: both end in the same state but for the clock, or both are refused. -/
theorem step_frame_eq_busFrame {s : State} {outs : List (List Byte)} {code : List Action} {dr : Draw} (hc : s.csn = true)
    (hn : NoFailure s.par dr) : step (s.atLine (.frame outs :: code) [.run dr]) =
      andThen (busFrame outs.flatten (s.atLine code [])) fun t => .next ((frameReturns outs 0 dr t).passTime dr.idleMs) := by
  have hfetch : fetchFrame outs (s.atLine (.frame outs :: code) [.run dr]) = outs.flatten := by
    simp [fetchFrame, State.atLine, hc]
  have hcsn : (s.atLine (.frame outs :: code) [.run dr]).csn = true := hc
  rw [step_of_frame (s := s.atLine (.frame outs :: code) [.run dr]) (.inr rfl) rfl (frameFailure_eq_none hn _), hfetch, hcsn, busFrame_eq_execBytes _ (by exact hc)]
  rfl

end Sys2Proof.Machine

open Sys2Proof Sys2Proof.Machine Sys2Proof.Safety

/-- Settles O4: the step is `step_of_frame`, and what the bytes decode to is what is executed. -/
theorem stepRunsDecodedCommand : Obligations.StepRunsDecodedCommand := by
  intro s dr rest outs code i hm hc hf hd _
  rw [step_of_frame hm hc hf, execBytes_of_decode hd]
  rfl

/-- Settles O5: the placed word is the bytes of the one exchange call of a frame with CSN high. -/
theorem placedWordRunsNext : Obligations.PlacedWordRunsNext := by
  intro s nbits w i hd
  have hfetch : fetchFrame [wordBytes nbits w] (s.withFetchWord nbits w) = wordBytes nbits w := by
    simp [fetchFrame, State.withFetchWord]
  rw [step_of_frame (dr := Draw.quiet) (rest := []) (.inl ⟨rfl, rfl, rfl⟩) rfl (frameFailure_eq_none (noFailure_quiet _) _), hfetch,
    execBytes_of_decode hd]
  rfl

/-- Settles O6: every command is one frame, and the power-on check comes first in it. -/
theorem frameBeforePowerOnResetRefused : Obligations.FrameBeforePowerOnResetRefused := by
  intro i s hc hk
  rw [exec_eq_runCommand]
  exact if_pos (opensTooEarly_of_lt hc hk)

/-- Settles O7: the bytes of the frame do not decode, and the frame may open. -/
theorem unlistedCommandFrameRefused : Obligations.UnlistedCommandFrameRefused := by
  intro s dr rest outs code c d hm hc hf hcsn hready hbytes hd
  have hfetch : fetchFrame outs s = c :: d := by simp only [fetchFrame, hcsn, if_true, List.nil_append, hbytes]
  have hopen : opensTooEarly (s.atLine code rest) = false := opensTooEarly_eq_false_of_le hready
  rw [step_of_frame hm hc hf, hfetch, execBytes_unlisted hd hopen]
  rfl

/-- Settles O8: `busFrame` is `execBytes`; `Frame` and its raw lines are each `busFrame` with the frame's return; and an `Exchange` with CSN
high returns draws. -/
theorem busLevelAgreesWithCommands : Obligations.BusLevelAgreesWithCommands := by
  refine ⟨fun bytes s hc => busFrame_eq_execBytes bytes hc, fun s outs code dr drs hc hn hns hl => ?_,
    fun s dr rest out code hs hn hcode hc => ?_⟩
  · have hframe := step_frame_eq_busFrame (outs := outs) (code := code) hc hn
    obtain ⟨q, hraw⟩ := run_rawLines code dr hc hns hl
    cases hb : busFrame outs.flatten (s.atLine code []) with
    | fault f => exact nomatch f
    | refused r =>
      rw [hb] at hframe hraw
      refine ⟨fun t ht => ?_, fun r' hr => ?_⟩
      · cases hframe.symm.trans ht
      · cases hframe.symm.trans hr
        exact hraw
    | next t =>
      rw [hb] at hframe hraw
      refine ⟨fun u hu => ?_, fun r' hr => ?_⟩
      · cases hframe.symm.trans hu
        exact ⟨_, hraw, rfl⟩
      · cases hframe.symm.trans hr
  · rw [step_of_line (.inr hs) hcode, runAction.eq_3, exchangeStep_of_high (by exact hn) (by exact hc)]
    exact ⟨_, rfl, rfl, hc, rfl, rfl⟩

end

section
/-! Proofs about single wire commands: what each commits to, what it returns, and what it leaves unchanged (40_spi_commands.md). -/

namespace Sys2Proof.Machine

open Sys2Proof.Safety

/-! ## From a commit to a command -/

theorem exec_refused_early {i : Instr} {s : State} {r : Refusal} (h : Ready s) (hr : commandRefusal s.par i = some r) :
    exec i s = .refused r := by
  rw [exec_of_ready h, hr]

theorem exec_refused_of_commit {i : Instr} {s : State} {r : Refusal} (h : Ready s) (hr : commandRefusal s.par i = none)
    (hc : commandCommit i s = .refused r) : exec i s = .refused r := by
  rw [exec_of_ready h, hr, hc]; rfl

/-- A command whose device completes, with what it returned. -/
theorem exec_of_commitDev {i : Instr} {s : State} {d : Device} (h : Ready s) (hr : commandRefusal s.par i = none)
    (hc : commitDev s.par s.dev i = some d) :
    exec i s =
      .next (frameResult s i.data.length ((List.range i.data.length).map fun j => commandMiso i s (j + 1)) d) :=
  exec_of_commit h hr (commandCommit_of_commitDev hc)

/-- A command that returns draws after the status byte. -/
theorem exec_of_commitDev_drawn {i : Instr} {s : State} {d : Device} (h : Ready s) (hr : commandRefusal s.par i = none)
    (hc : commitDev s.par s.dev i = some d) (hm : ∀ j, commandMiso i s j = drawByte s j) :
    exec i s = .next (frameResult s i.data.length (drawn s 1 i.data.length) d) := by
  rw [exec_of_commitDev h hr hc, ← map_drawByte]
  simp only [hm]

theorem exec_completes {i : Instr} {s u : State} (h : Ready s) (hr : commandRefusal s.par i = none) (hc : commandCommit i s = .next u) :
    ∃ t, exec i s = .next t := by
  rw [exec_of_ready h, hr, hc]
  exact ⟨_, rfl⟩

/-! ## What a command does to the device -/

/-- The effect of command `i` on the device `d`, as a device `e` (40_spi_commands.md R87 to R96); a command without one is left out. -/
def Effect (c : Config) (d : Device) (i : Instr) (e : Device) : Prop :=
  match i with
  | .wRegister a bs => ∃ r v, c.regAt a = some r ∧ bs.head? = some v ∧
      ((c.access r = .w1c ∧ e = clearFlags c v d) ∨ (c.access r = .rw ∧ e = writeSideEffects c r d (regStore d r bs)))
  | .activate _ => e = { d with featuresActive := !d.featuresActive }
  | .rRxPayload _ => e = { d with rxq := d.rxq.tail }
  | .wTxPayload bs => e = { d with txq := d.txq ++ [bs] }
  | .flushTx _ => e = { d with txq := [], txActive := false }
  | .flushRx _ => e = { d with rxq := [] }
  | .rRegister _ _ => False
  | .rRxPlWid _ => False
  | .nop _ => False

/-- A commit leaves the device as it was or has the command's effect on it. -/
theorem commandCommit_effect {i : Instr} {s u : State} (h : commandCommit i s = .next u) :
    u.dev = s.dev ∨ Effect s.par s.dev i u.dev := by
  cases i with
  | rRegister a d => cases h; exact .inl rfl
  | rRxPlWid d => cases h; exact .inl rfl
  | nop d => cases h; exact .inl rfl
  | flushTx d => cases h; exact .inr rfl
  | flushRx d => cases h; exact .inr rfl
  | wRegister a d =>
    obtain ⟨-, rfl⟩ | ⟨v, rest, r, rfl, hr, -, hw⟩ := wRegisterCommit_next h
    · exact .inl rfl
    obtain ⟨ha, -, rfl⟩ | ⟨-, rfl⟩ | ⟨-, -, rfl⟩ | ⟨ha, -, -, -, rfl⟩ := writeReg_next hw
    · exact .inr ⟨r, v, hr, rfl, .inl ⟨ha, rfl⟩⟩
    · exact .inl rfl
    · exact .inl rfl
    · exact .inr ⟨r, v, hr, rfl, .inr ⟨ha, rfl⟩⟩
  | activate d =>
    simp only [commandCommit, activateCommit] at h
    split at h
    · cases h
    split at h <;> cases h
    · exact .inr rfl
    · exact .inl rfl
  | rRxPayload d =>
    cases d <;> cases h
    · exact .inl rfl
    · exact .inr rfl
  | wTxPayload d =>
    cases d with
    | nil => cases h; exact .inl rfl
    | cons v d =>
      simp only [commandCommit, wTxPayloadCommit] at h
      split at h
      · cases h
      split at h <;> cases h
      · exact .inr rfl
      · exact .inl rfl

/-- A command leaves the device as it was or has its effect on it, but for the frame buffer, which it empties. -/
theorem exec_effect {i : Instr} {s t : State} (h : exec i s = .next t) :
    ∃ e, t.dev = { e with mosi := [], miso := [] } ∧ (e = s.dev ∨ Effect s.par s.dev i e) := by
  obtain ⟨-, -, u, hu, rfl⟩ := exec_next h
  exact ⟨u.dev, rfl, commandCommit_effect hu⟩

/-- On the register map of this hardware the one register that is cleared by writing 1 is STATUS. -/
theorem eq_status_of_w1c {c : Config} {r : Reg} (hs : Structural c) (h : c.access r = .w1c) : r = .status := by
  rw [c.access_eq hs] at h
  cases r <;> first | rfl | cases h

@[simp] theorem writeSideEffects_flags (c : Config) (r : Reg) (o n : Device) :
    (writeSideEffects c r o n).rxDR = n.rxDR ∧ (writeSideEffects c r o n).txDS = n.txDS
      ∧ (writeSideEffects c r o n).maxRT = n.maxRT := by
  rcases writeSideEffects_cases c r o n with h | ⟨-, h⟩ <;> rw [h] <;> exact ⟨rfl, rfl, rfl⟩

@[simp] theorem writeSideEffects_fifos (c : Config) (r : Reg) (o n : Device) :
    (writeSideEffects c r o n).txq = n.txq ∧ (writeSideEffects c r o n).rxq = n.rxq
      ∧ (writeSideEffects c r o n).featuresActive = n.featuresActive := by
  rcases writeSideEffects_cases c r o n with h | ⟨-, h⟩ <;> rw [h] <;> exact ⟨rfl, rfl, rfl⟩

/-! ## Frames of every command -/

theorem exec_resp {i : Instr} {s t : State} (h : exec i s = .next t) :
    t.resp = frameResponse s i.data.length (commandMiso i s) := by
  obtain ⟨-, -, u, -, rfl⟩ := exec_next h
  rfl

theorem exec_closed {i : Instr} {s t : State} (h : exec i s = .next t) : t.csn = true ∧ t.dev.mosi = [] ∧ t.dev.miso = [] := by
  obtain ⟨-, -, u, -, rfl⟩ := exec_next h
  exact ⟨rfl, rfl, rfl⟩

/-! ## Register writes -/

/-- A register write that may be made is stored, or refused for its value. -/
theorem writeReg_outcome (a : RegAddr) (r : Reg) (v : Byte) (d : List Byte) (s : State) :
    (∃ u, writeReg a r v d s = .next u) ∨ writeReg a r v d s = .refused (.reservedBit a)
      ∨ writeReg a r v d s = .refused (.illegalValue a) := by
  unfold writeReg
  cases s.par.access r with
  | w1c =>
    by_cases h : v &&& s.par.reservedMask r ≠ 0#8
    · exact .inr (.inl (if_pos h))
    · exact .inl ⟨_, if_neg h⟩
  | ro => exact .inl ⟨s, rfl⟩
  | rw =>
    by_cases hg : (r.isFeatureReg && featuresGated s.par s.dev) = true
    · exact .inl ⟨_, if_pos hg⟩
    by_cases hm : v &&& s.par.reservedMask r ≠ 0#8
    · exact .inr (.inl ((if_neg hg).trans (if_pos hm)))
    by_cases hi : s.par.illegal r v = true
    · exact .inr (.inr ((if_neg hg).trans ((if_neg hm).trans (if_pos hi))))
    · exact .inl ⟨_, (if_neg hg).trans ((if_neg hm).trans (if_neg hi))⟩

/-- A write of a register's width is the write of the register. -/
theorem wRegisterCommit_of_width {a : RegAddr} {r : Reg} {v : Byte} {d : List Byte} {s : State} (hr : s.par.regAt a = some r)
    (hl : (v :: d).length = s.par.width r) : wRegisterCommit a (v :: d) s = writeReg a r v (v :: d) s := by
  simp only [wRegisterCommit, hr, hl, ne_eq, not_true_eq_false, if_false]

theorem wRegisterCommit_wrongLength {a : RegAddr} {r : Reg} {v : Byte} {d : List Byte} {s : State} (hr : s.par.regAt a = some r)
    (hl : (v :: d).length ≠ s.par.width r) :
    wRegisterCommit a (v :: d) s = .refused (.wrongWriteLength a (v :: d).length) := by
  simp only [wRegisterCommit, hr, hl, ne_eq, not_false_eq_true, if_true]

/-- A legal write of a register that is not gated off, with the rules' own tables. -/
theorem writeReg_rw {a : RegAddr} {r : Reg} {v : Byte} {d : List Byte} {s : State} (hs : Structural s.par) (ha : accessOfRule r = .rw)
    (hg : (r.isFeatureReg && featuresGated s.par s.dev) = false) :
    writeReg a r v d s =
      if v &&& reservedOfRule r ≠ 0#8 then .refused (.reservedBit a)
      else if illegalOfRule r v then .refused (.illegalValue a)
      else .next (s.setDev (writeSideEffects s.par r s.dev (regStore s.dev r d))) := by
  simp only [writeReg, s.par.access_eq hs, ha, hg, s.par.reservedMask_eq hs, s.par.illegal_eq hs, Bool.false_eq_true, if_false]

end Sys2Proof.Machine

open Sys2Proof Sys2Proof.Machine Sys2Proof.Safety

/-- Settles O9: a commit changes only the device, and the close of the frame the rest. -/
theorem wireCommandsTouchOnlyTheDevice : Obligations.WireCommandsTouchOnlyTheDevice := by
  intro i s t h
  obtain ⟨hcsn, hmo, hmi⟩ := exec_closed h
  refine ⟨exec_outside h, hcsn, hmo, hmi, ?_, ?_⟩ <;> rw [exec_resp h]
  · rw [frameResponse_length, encode_length]
  · rfl

/-- Settles O10: a well-formed command has no refusal at its command byte, and its commit none but a register write's value check. -/
theorem wellFormedCommandsComplete : Obligations.WellFormedCommandsComplete := by
  intro i s hwf hready
  cases i with
  | rRegister a d =>
    obtain ⟨r, hr⟩ := Option.isSome_iff_exists.1 hwf
    exact .inl (exec_completes hready (addressRefusal_of_some hr) rfl)
  | wRegister a d =>
    cases hr : s.par.regAt a with
    | none => simp [Instr.wf, hr] at hwf
    | some r =>
      have he := addressRefusal_of_some hr
      cases d with
      | nil => exact .inl (exec_completes hready he rfl)
      | cons v d =>
        have hl : (v :: d).length = s.par.width r := by simpa [Instr.wf, hr] using hwf
        have hc : commandCommit (.wRegister a (v :: d)) s = _ := wRegisterCommit_of_width hr hl
        obtain ⟨u, hu⟩ | hu | hu := writeReg_outcome a r v (v :: d) s
        · exact .inl (exec_completes hready he (hc.trans hu))
        · exact .inr ⟨a, _, rfl, .inl (exec_refused_of_commit hready he (hc.trans hu))⟩
        · exact .inr ⟨a, _, rfl, .inr (exec_refused_of_commit hready he (hc.trans hu))⟩
  | activate d =>
    obtain rfl : d = [0x73#8] := by simpa [Instr.wf] using hwf
    exact .inl ⟨_, exec_of_commitDev hready rfl (commitDev_activate _ _)⟩
  | wTxPayload d =>
    cases d with
    | nil => exact .inl (exec_completes hready rfl rfl)
    | cons v d =>
      have hl : ¬ s.par.maxPayload < (v :: d).length := by simpa [Instr.wf] using hwf
      by_cases hq : s.dev.txq.length < s.par.txFifoDepth
      · exact .inl (exec_completes hready rfl ((if_neg hl).trans (if_pos hq)))
      · exact .inl (exec_completes hready rfl ((if_neg hl).trans (if_neg hq)))
  | rRxPayload d => cases d <;> exact .inl (exec_completes hready rfl rfl)
  | rRxPlWid d => exact .inl (exec_completes hready rfl rfl)
  | flushTx d => exact .inl (exec_completes hready rfl rfl)
  | flushRx d => exact .inl (exec_completes hready rfl rfl)
  | nop d => exact .inl (exec_completes hready rfl rfl)

/-- Settles O11: what is not well-formed fails the one check of its own rule. -/
theorem illFormedCommandsRefused : Obligations.IllFormedCommandsRefused := by
  intro i s hwf hready
  cases i with
  | rRegister a d => exact exec_refused_early hready (addressRefusal_of_none (by simpa [Instr.wf] using hwf))
  | wRegister a d =>
    cases hr : s.par.regAt a with
    | none => exact .inl ⟨hr, exec_refused_early hready (addressRefusal_of_none hr)⟩
    | some r =>
      cases d with
      | nil => simp [Instr.wf, hr] at hwf
      | cons v d =>
        have hl : (v :: d).length ≠ s.par.width r := by simpa [Instr.wf, hr] using hwf
        refine .inr ⟨by simp [hr], exec_refused_of_commit hready (addressRefusal_of_some hr) ?_⟩
        exact wRegisterCommit_wrongLength hr hl
  | activate d => exact exec_refused_of_commit hready rfl (if_pos (by simpa [Instr.wf] using hwf))
  | wTxPayload d =>
    have hl : s.par.maxPayload < d.length := by simpa [Instr.wf] using hwf
    cases d with
    | nil => simp at hl
    | cons v d => exact exec_refused_of_commit hready rfl (if_pos hl)
  | rRxPlWid d => cases hwf
  | rRxPayload d => cases hwf
  | flushTx d => cases hwf
  | flushRx d => cases hwf
  | nop d => cases hwf

/-- Settles O12: the bytes of the read are `regbyte`, and its commit is empty. -/
theorem readRegisterReturnsRegbyte : Obligations.ReadRegisterReturnsRegbyte := by
  intro a d r s hs hr hready
  have hm : ∀ j, commandMiso (.rRegister a d) s (j + 1) = regbyteOfRule s r j := fun j => by
    simp only [commandMiso, rRegisterMiso, hr, Nat.add_sub_cancel]
    exact regByte_eq_regbyteOfRule hs
  rw [exec_of_commit (i := .rRegister a d) (d := s.dev) hready (addressRefusal_of_some hr) rfl]
  simp only [hm]
  rfl

/-- Settles O13: the reads' effects, and the first byte of every frame. -/
theorem readsHaveOnlyTheStatedSideEffects : Obligations.ReadsHaveOnlyTheStatedSideEffects := by
  refine ⟨fun a d s t h => ⟨?_, exec_outside h⟩, fun b d s t h => ⟨?_, exec_outside h⟩, fun i s t h => ?_, fun d s t h => ?_⟩
  · obtain ⟨-, -, u, hu, rfl⟩ := exec_next h
    cases hu; rfl
  · obtain ⟨-, -, u, hu, rfl⟩ := exec_next h
    cases hu; rfl
  · rw [exec_resp h]; rfl
  · obtain ⟨-, -, u, hu, rfl⟩ := exec_next h
    cases hu; rfl

/-- Settles O14: the fields of STATUS stand where the register map has them. -/
theorem statusByteFields : Obligations.StatusByteFields := by
  intro c d hs
  obtain ⟨h6, h5, h4⟩ := statusByte_flags hs d
  have hends : ∀ (x : PipeNo) (b6 b5 b4 b0 : Bool),
      let w := flagBit 6 b6 ||| flagBit 5 b5 ||| flagBit 4 b4 ||| (x.setWidth 8 <<< 1) ||| flagBit 0 b0
      w.getLsbD 7 = false ∧ w.getLsbD 0 = b0 := by decide
  have h := hends (rxPipeNo d) d.rxDR d.txDS d.maxRT (txFull c d)
  rw [← statusByte_eq hs] at h
  refine ⟨h.1, h6, h5, h4, ?_, ?_⟩
  · refine (pipeOfStatus_statusByte hs d).trans ?_
    unfold rxPipeNo
    cases d.rxq <;> rfl
  · rw [h.2, txFull, beq_eq_decide]

end

section
/-! Proofs about register writes (40_spi_commands.md R88, R89): what a write stores, keeps and refuses. -/

namespace Sys2Proof.Machine

open Sys2Proof.Safety

/-! ## What a store changes in the registers -/

/-- No register is read from the frame buffer or from `tx_active`. -/
@[simp] theorem regReadable_closed (c : Config) (d : Device) (r : Reg) :
    regReadable c { d with mosi := [], miso := [] } r = regReadable c d r := by cases r <;> rfl

theorem regReadable_txActive (c : Config) (d : Device) (r : Reg) (b : Bool) :
    regReadable c { d with txActive := b } r = regReadable c d r := by cases r <;> rfl

@[simp] theorem regReadable_writeSideEffects (c : Config) (r q : Reg) (o n : Device) :
    regReadable c (writeSideEffects c r o n) q = regReadable c n q := by
  rcases writeSideEffects_cases c r o n with h | ⟨-, h⟩ <;> rw [h]
  exact regReadable_txActive ..

/-- Another register reads as before: each field of the device is one register's. -/
theorem regReadable_regStore_ne (c : Config) (d : Device) (v : List Byte) {r q : Reg} (h : q ≠ r) :
    regReadable c (regStore d r v) q = regReadable c d q := by
  cases r <;> cases q <;> first | rfl | exact absurd rfl h

/-- A 1-byte register that is not gated off reads the byte stored. -/
theorem regReadable_regStore_byte {c : Config} {d : Device} {r : Reg} {v : Byte} (hw : widthOfRule r = 1) (ha : accessOfRule r = .rw)
    (hg : (r.isFeatureReg && featuresGated c d) = false) : regReadable c (regStore d r [v]) r = [v] := by
  have hg' : (r.isFeatureReg && featuresGated c (regStore d r [v])) = false := by
    simpa only [featuresGated, regStore_featuresActive] using hg
  simp only [regReadable, hg', Bool.false_eq_true, if_false]
  cases r <;> first | rfl | exact absurd ha (by decide) | exact absurd hw (by decide)

/-- A 5-byte register reads the bytes stored, the first the least significant. -/
theorem regReadable_regStore_addr {c : Config} {d : Device} {r : Reg} {bs : List Byte} (hw : widthOfRule r = 5) (hl : bs.length = 5) :
    regReadable c (regStore d r bs) r = bs := by
  match bs, hl with
  | [b0, b1, b2, b3, b4], _ => cases r <;> first | exact bytesOfAddr_addrOfBytes b0 b1 b2 b3 b4 | exact absurd hw (by decide)

/-- A store with its side effects keeps the other registers, the flags and the FIFOs. -/
theorem sameRegistersBut_write (c : Config) (d : Device) (r : Reg) (v : List Byte) :
    SameRegistersBut [r] c d { writeSideEffects c r d (regStore d r v) with mosi := [], miso := [] } := by
  intro q hq
  rw [regReadable_closed, regReadable_writeSideEffects, regReadable_regStore_ne]
  simpa using hq

theorem sameFlagsAndFifos_write (c : Config) (d : Device) (r : Reg) (v : List Byte) :
    SameFlagsAndFifos d { writeSideEffects c r d (regStore d r v) with mosi := [], miso := [] } := by
  simp [SameFlagsAndFifos]

theorem writeSideEffects_of_ne {c : Config} {r : Reg} {o n : Device} (h : r ≠ .config) : writeSideEffects c r o n = n :=
  (writeSideEffects_cases c r o n).resolve_right fun k => h k.1

/-- A legal write of a register that is not gated off completes and stores. -/
theorem exec_write {a : RegAddr} {r : Reg} {v : Byte} {d : List Byte} {s : State} (hs : Structural s.par) (hready : Ready s)
    (hr : s.par.regAt a = some r) (hl : (v :: d).length = widthOfRule r) (ha : accessOfRule r = .rw)
    (hg : (r.isFeatureReg && featuresGated s.par s.dev) = false) (hm : v &&& reservedOfRule r = 0#8) (hi : illegalOfRule r v = false) :
    exec (.wRegister a (v :: d)) s = .next (frameResult s (v :: d).length (drawn s 1 (v :: d).length)
      (writeSideEffects s.par r s.dev (regStore s.dev r (v :: d)))) := by
  have hc : commandCommit (.wRegister a (v :: d)) s = .next (s.setDev (writeSideEffects s.par r s.dev (regStore s.dev r (v :: d)))) := by
    refine (wRegisterCommit_of_width hr (by rw [hl, s.par.width_eq hs])).trans ?_
    rw [writeReg_rw hs ha hg, if_neg (not_not.2 hm), if_neg (by simp [hi])]
  rw [exec_of_commit (i := .wRegister a (v :: d)) hready (addressRefusal_of_some hr) hc, ← map_drawByte]
  rfl

theorem accessOfRule_of_width5 {r : Reg} (h : widthOfRule r = 5) : accessOfRule r = .rw := by
  cases r <;> first | rfl | cases h

theorem reservedOfRule_of_width5 {r : Reg} (h : widthOfRule r = 5) : reservedOfRule r = 0#8 := by
  cases r <;> first | rfl | cases h

theorem illegalOfRule_of_width5 {r : Reg} (h : widthOfRule r = 5) (v : Byte) : illegalOfRule r v = false := by
  cases r <;> first | rfl | cases h

theorem isFeatureReg_of_width5 {r : Reg} (h : widthOfRule r = 5) : r.isFeatureReg = false := by
  cases r <;> first | rfl | cases h

theorem ne_config_of_width5 {r : Reg} (h : widthOfRule r = 5) : r ≠ .config := by
  rintro rfl; cases h

/-! ## CONFIG -/

/-- A legal CONFIG write (R88, R89). -/
theorem exec_writeConfig {v : Byte} {s : State} (hs : Structural s.par) (hready : Ready s) (hv : v.getLsbD 7 = false) :
    exec (.wRegister 0x00#5 [v]) s = .next (frameResult s 1 (drawn s 1 1)
      (writeSideEffects s.par .config s.dev { s.dev with config := v })) :=
  exec_write (d := []) hs hready (regAt_of (r := .config) hs rfl) rfl rfl rfl (and_reserved_config hv) rfl

/-- The write powers the device down, or turns PRIM_RX on during a transmission (R89). -/
def AbandonsTransmission (d : Device) (v : Byte) : Prop :=
  (d.config.getLsbD 1 = true ∧ v.getLsbD 1 = false)
    ∨ (d.config.getLsbD 0 = false ∧ v.getLsbD 0 = true ∧ d.txActive = true)

/-- The condition of R89, in the bits of this hardware's CONFIG. -/
theorem abandons_iff {c : Config} (hs : Structural c) (d : Device) (v : Byte) :
    ((d.pwrUp c && !Device.pwrUp c { d with config := v }
      || !d.primRx c && Device.primRx c { d with config := v } && d.txActive) = true) ↔ AbandonsTransmission d v := by
  simp only [pwrUp_eq hs, primRx_eq hs, AbandonsTransmission, Bool.or_eq_true, Bool.and_eq_true, Bool.not_eq_true', and_assoc]

theorem writeConfig_abandons {c : Config} (hs : Structural c) {d : Device} {v : Byte} (h : AbandonsTransmission d v) :
    writeSideEffects c .config d { d with config := v } = { d with config := v, txActive := false } :=
  if_pos ((abandons_iff hs d v).2 h)

theorem writeConfig_keeps {c : Config} (hs : Structural c) {d : Device} {v : Byte} (h : ¬ AbandonsTransmission d v) :
    writeSideEffects c .config d { d with config := v } = { d with config := v } :=
  if_neg fun k => h ((abandons_iff hs d v).1 k)

/-- A register write whose device ignores it. -/
theorem exec_writeIgnored {a : RegAddr} {r : Reg} {v : Byte} {s : State} (hready : Ready s) (hr : s.par.regAt a = some r)
    (hc : commitDev s.par s.dev (.wRegister a [v]) = some s.dev) :
    exec (.wRegister a [v]) s = .next (frameResult s 1 (drawn s 1 1) s.dev) :=
  exec_of_commitDev_drawn hready (addressRefusal_of_some hr) hc fun _ => rfl

/-- A gated register ignores a write of any value. -/
theorem commitDev_gated {c : Config} {d : Device} {a : RegAddr} {r : Reg} {v : Byte} (hs : Structural c) (hr : c.regAt a = some r)
    (hf : r.isFeatureReg = true) (hg : featuresGated c d = true) : commitDev c d (.wRegister a [v]) = some d := by
  have hw : c.width r = 1 := by rw [c.width_eq hs]; cases r <;> first | rfl | cases hf
  have ha : c.access r = .rw := by rw [c.access_eq hs]; cases r <;> first | rfl | cases hf
  simp [commitDev, commandCommit, wRegisterCommit, writeReg, hr, hw, ha, hf, hg]

end Sys2Proof.Machine

open Sys2Proof Sys2Proof.Machine Sys2Proof.Safety

/-- Settles O15: the write is stored with R89's side effects, which reach `tx_active` only, and only for CONFIG. -/
theorem writeByteRegisterStoresAndKeepsRest : Obligations.WriteByteRegisterStoresAndKeepsRest := by
  intro a r v s hs hr hw ha hready hg hm hi
  have hx := exec_write (d := []) hs hready hr hw.symm ha hg hm hi
  refine ⟨_, hx, ?_, sameRegistersBut_write _ _ _ _, sameFlagsAndFifos_write _ _ _ _, fun hne => ?_, exec_outside hx, rfl⟩
  · exact (regReadable_closed ..).trans ((regReadable_writeSideEffects ..).trans (regReadable_regStore_byte hw ha hg))
  · simp only [frameResult, writeSideEffects_of_ne hne, regStore_txActive]

/-- Settles O16: an address register has no reserved bit, no illegal value and no side effect, and reads back what was stored. -/
theorem writeAddressRegisterStoresAndKeepsRest : Obligations.WriteAddressRegisterStoresAndKeepsRest := by
  intro a r d s hs hr hw hl hready
  cases d with
  | nil => cases hl
  | cons v d =>
    have hx := exec_write hs hready hr (hl.trans hw.symm) (accessOfRule_of_width5 hw) (by rw [isFeatureReg_of_width5 hw]; rfl)
      (by rw [reservedOfRule_of_width5 hw]; exact BitVec.and_zero) (illegalOfRule_of_width5 hw v)
    refine ⟨_, hx, ?_, sameRegistersBut_write _ _ _ _, sameFlagsAndFifos_write _ _ _ _, ?_, exec_outside hx, rfl⟩
    · exact (regReadable_closed ..).trans ((regReadable_writeSideEffects ..).trans (regReadable_regStore_addr hw hl))
    · simp only [frameResult, writeSideEffects_of_ne (ne_config_of_width5 hw), regStore_txActive]

/-- Settles O17: both cases of R89's condition. -/
theorem configWriteSideEffects : Obligations.ConfigWriteSideEffects := by
  intro v s hs hready hv
  have hx := exec_writeConfig hs hready hv
  by_cases h : AbandonsTransmission s.dev v
  · rw [writeConfig_abandons hs h] at hx
    exact ⟨_, hx, rfl, ⟨rfl, rfl, rfl, rfl, rfl, rfl⟩, fun _ => rfl, fun hn => absurd h hn⟩
  · rw [writeConfig_keeps hs h] at hx
    exact ⟨_, hx, rfl, ⟨rfl, rfl, rfl, rfl, rfl, rfl⟩, fun hp => absurd hp h, fun _ => rfl⟩

/-- Settles O19: each of the three addresses names a read-only register. -/
theorem readOnlyRegisterWritesIgnored : Obligations.ReadOnlyRegisterWritesIgnored := by
  intro a v s hs ha hready
  obtain ⟨r, hr, hro⟩ : ∃ r, s.par.regAt a = some r ∧ accessOfRule r = .ro := by
    obtain rfl | rfl | rfl := ha
    · exact ⟨.observeTx, regAt_of hs rfl, rfl⟩
    · exact ⟨.cd, regAt_of hs rfl, rfl⟩
    · exact ⟨.fifoStatus, regAt_of hs rfl, rfl⟩
  exact exec_writeIgnored hready hr (commitDev_ro hs hr hro)

/-- Settles O20: both addresses name a feature register, which the gate takes off the write and the read. -/
theorem gatedFeatureRegistersIgnoreWrites : Obligations.GatedFeatureRegistersIgnoreWrites := by
  intro a v b s hs ha hready hchip hact
  have hg : featuresGated s.par s.dev = true := by simp [featuresGated, hchip, hact]
  obtain ⟨r, hr, hf⟩ : ∃ r, s.par.regAt a = some r ∧ r.isFeatureReg = true := by
    obtain rfl | rfl := ha
    · exact ⟨.dynpd, regAt_of hs rfl, rfl⟩
    · exact ⟨.feature, regAt_of hs rfl, rfl⟩
  refine ⟨exec_writeIgnored hready hr (commitDev_gated hs hr hf hg), ?_⟩
  have hm : commandMiso (.rRegister a [b]) s 1 = 0x00#8 := by
    simp [commandMiso, rRegisterMiso, hr, regByte, regReadable, hf, hg]
  rw [exec_of_commit (i := .rRegister a [b]) (d := s.dev) hready (addressRefusal_of_some hr) rfl]
  simp [Instr.data, List.range_succ, hm]

/-- Settles O21: the checks of the write, in their order. -/
theorem writeRegisterRefusals : Obligations.WriteRegisterRefusals := by
  intro a v d s hs hready
  refine ⟨fun hr => exec_refused_early hready (addressRefusal_of_none hr), ?_, fun r hr => ⟨fun hl => ?_, fun hl ha hg => ?_⟩⟩
  · rintro rfl rfl hv
    have hr : s.par.regAt 0x07#5 = some .status := regAt_of hs rfl
    have hbit : ∀ w : Byte, w.getLsbD 7 = true → w &&& 0x80#8 ≠ 0#8 := by decide
    refine exec_refused_of_commit hready (addressRefusal_of_some hr)
      ((wRegisterCommit_of_width hr (by rw [s.par.width_eq hs]; rfl)).trans ?_)
    have hm : v &&& s.par.reservedMask .status ≠ 0#8 := by rw [s.par.reservedMask_eq hs]; exact hbit v hv
    have ha : s.par.access .status = .w1c := s.par.access_eq hs .status
    simp only [writeReg, ha, hm, ne_eq, not_false_eq_true, if_true]
  · exact exec_refused_of_commit hready (addressRefusal_of_some hr)
      (wRegisterCommit_wrongLength hr (by rw [s.par.width_eq hs]; exact hl))
  · have hc : commandCommit (.wRegister a (v :: d)) s = _ :=
      (wRegisterCommit_of_width hr (by rw [s.par.width_eq hs]; exact hl)).trans (writeReg_rw hs ha hg)
    refine ⟨fun hm => ?_, fun hm hi => ?_⟩
    · exact exec_refused_of_commit hready (addressRefusal_of_some hr) (hc.trans (if_pos hm))
    · exact exec_refused_of_commit hready (addressRefusal_of_some hr)
        (hc.trans ((if_neg (not_not.2 hm)).trans (if_pos hi)))

end

section
/-! Proofs about the payload and control commands (40_spi_commands.md R90 to R96), and about which command reaches a flag, a FIFO, a hidden
bit and the transceiver state. -/

namespace Sys2Proof.Machine

open Sys2Proof.Safety

theorem drawn_one (s : State) (n : Nat) : drawn s 1 (n + 1) = drawByte s 1 :: drawn s 2 n := by
  rw [drawn, List.range_succ_eq_map, List.map_cons, List.map_map]
  congr 1
  exact List.map_congr_left fun j _ => congrArg (fun k => Config.freeByte (s.draws + k)) (by simp; omega)

/-- The MISO bytes of R_RX_PAYLOAD with a payload at the head: its bytes, and draws past its end (R90). -/
theorem map_rRxPayloadMiso {s : State} {e : RxEntry} {es : List RxEntry} (h : s.dev.rxq = e :: es) (n : Nat) :
    ((List.range n).map fun j => rRxPayloadMiso s (j + 1)) =
      e.payload.take n ++ drawn s (e.payload.length + 1) (n - e.payload.length) := by
  simp only [rRxPayloadMiso, h, Nat.add_sub_cancel]
  rw [map_getD_range _ n fun j => drawByte s (j + 1)]
  congr 1
  exact List.map_congr_left fun j _ => congrArg (fun k => Config.freeByte (s.draws + k)) (by omega)

theorem map_rRxPayloadMiso_nil {s : State} (h : s.dev.rxq = []) (n : Nat) :
    ((List.range n).map fun j => rRxPayloadMiso s (j + 1)) = drawn s 1 n := by
  simp only [rRxPayloadMiso, h, map_drawByte]

theorem rRxPlWidMiso_of_ne {s : State} {i : Nat} (h : i ≠ 1) : rRxPlWidMiso s i = drawByte s i := by
  unfold rRxPlWidMiso
  split
  · rfl
  · exact if_neg fun k => h k.1

/-- After its first data byte R_RX_PL_WID returns draws. -/
theorem map_rRxPlWidMiso_succ (s : State) (n : Nat) :
    ((List.range (n + 1)).map fun j => rRxPlWidMiso s (j + 1)) = rRxPlWidMiso s 1 :: drawn s 2 n := by
  rw [List.range_succ_eq_map, List.map_cons, List.map_map]
  congr 1
  refine List.map_congr_left fun j _ => ?_
  rw [Function.comp, rRxPlWidMiso_of_ne (by omega)]
  exact congrArg (fun k => Config.freeByte (s.draws + k)) (by omega)

/-- The first data byte of R_RX_PL_WID is defined when there is a payload and the features are not gated (R95). -/
theorem rRxPlWidMiso_one {s : State} {e : RxEntry} {es : List RxEntry} (h : s.dev.rxq = e :: es) :
    rRxPlWidMiso s 1 =
      if s.dev.featuresActive || !s.par.chipNeedsActivate then BitVec.ofNat 8 e.payload.length else drawByte s 1 := by
  simp only [rRxPlWidMiso, h, featuresGated, true_and]
  cases s.dev.featuresActive <;> cases s.par.chipNeedsActivate <;> rfl

theorem rRxPlWidMiso_one_nil {s : State} (h : s.dev.rxq = []) : rRxPlWidMiso s 1 = drawByte s 1 := by
  simp only [rRxPlWidMiso, h]

/-- W_TX_PAYLOAD of 1 to `MAX_PAYLOAD` bytes. -/
theorem commitDev_wTxPayload {c : Config} {d : Device} {bs : List Byte} (h : 1 ≤ bs.length) (hl : bs.length ≤ c.maxPayload) :
    commitDev c d (.wTxPayload bs) = some (if d.txq.length < c.txFifoDepth then { d with txq := d.txq ++ [bs] } else d) := by
  cases bs with
  | nil => exact absurd h (by simp)
  | cons b bs =>
    simp only [commitDev, commandCommit, wTxPayloadCommit, if_neg (Nat.not_lt.2 hl)]
    by_cases hq : d.txq.length < c.txFifoDepth
    · simp only [if_pos hq]; rfl
    · simp only [if_neg hq]

/-- A frame that carries only the command byte of a command without an effect on it. -/
theorem exec_commandOnly {i : Instr} {s : State} (hready : Ready s) (hr : commandRefusal s.par i = none) (hd : i.data = [])
    {d : Device} (hc : commitDev s.par s.dev i = some d) : exec i s = .next (frameResult s 0 [] d) := by
  rw [exec_of_commitDev hready hr hc, hd]; rfl

/-! ## The transceiver state -/

/-- The transceiver state from PWR_UP, PRIM_RX, CE and `tx_active` (R40). -/
def modeOf (pwrUp primRx ce txActive : Bool) : XcvrState :=
  if pwrUp = false then .powerDown
  else if primRx && ce then .listening
  else if !primRx && txActive then .transmitting
  else .standbyConfiguring

theorem xcvrState_eq_modeOf (s : State) : xcvrState s = modeOf (s.dev.pwrUp s.par) (s.dev.primRx s.par) s.ce s.dev.txActive := rfl

/-- With the register map of this hardware the two bits are bits 1 and 0 of CONFIG. -/
theorem xcvrState_eq {s : State} (hs : Structural s.par) :
    xcvrState s = modeOf (s.dev.config.getLsbD 1) (s.dev.config.getLsbD 0) s.ce s.dev.txActive := by
  rw [xcvrState_eq_modeOf, pwrUp_eq hs, primRx_eq hs]

theorem xcvrState_congr {s t : State} (hp : t.par = s.par) (hce : t.ce = s.ce) (hcfg : t.dev.config = s.dev.config) :
    xcvrState t = modeOf (s.dev.pwrUp s.par) (s.dev.primRx s.par) s.ce t.dev.txActive := by
  rw [xcvrState_eq_modeOf]
  simp only [Device.pwrUp, Device.primRx, hp, hce, hcfg]

/-- Only Transmitting ends when a transmission is abandoned. -/
theorem modeOf_abandoned : ∀ p r ce a : Bool, modeOf p r ce false ≠ modeOf p r ce a →
    modeOf p r ce a = .transmitting ∧ modeOf p r ce false = .standbyConfiguring := by decide

theorem legalActivity_iff {c : Config} (hs : Structural c) (d : Device) : legalActivity c d = true ↔
    (d.txActive = true → d.txq ≠ [] ∧ d.config.getLsbD 1 = true ∧ d.config.getLsbD 0 = false) := by
  simp only [legalActivity, pwrUp_eq hs, primRx_eq hs]
  cases d.txActive <;> simp [and_assoc]

/-- The `tx_active` a CONFIG write leaves (R89), from the two bits before and after. -/
def keptActive (p r a p' r' : Bool) : Bool := a && !((p && !p') || (!r && r' && a))

/-- The modes R130 gives a CONFIG write, from the bits of CONFIG before (p, r) and after (p', r'), CE and `tx_active`. -/
theorem modeOf_selected : ∀ p r ce a p' r' : Bool, (a = true → p = true ∧ r = false) →
    (p' = false → modeOf p' r' ce (keptActive p r a p' r') = .powerDown)
    ∧ (p' = true → r' = true → ce = true → modeOf p' r' ce (keptActive p r a p' r') = .listening)
    ∧ (p' = true → r' = true → ce = false → modeOf p' r' ce (keptActive p r a p' r') = .standbyConfiguring)
    ∧ (p' = true → r' = false → modeOf p r ce a = .transmitting → modeOf p' r' ce (keptActive p r a p' r') = .transmitting)
    ∧ (p' = true → r' = false → modeOf p r ce a ≠ .transmitting →
      modeOf p' r' ce (keptActive p r a p' r') = .standbyConfiguring) := by decide

theorem writeConfig_keptActive {c : Config} (hs : Structural c) (d : Device) (v : Byte) :
    (writeSideEffects c .config d { d with config := v }).config = v
    ∧ (writeSideEffects c .config d { d with config := v }).txActive =
      keptActive (d.config.getLsbD 1) (d.config.getLsbD 0) d.txActive (v.getLsbD 1) (v.getLsbD 0) := by
  have hb : ∀ p r a p' r' : Bool, keptActive p r a p' r' =
      if (p = true ∧ p' = false) ∨ (r = false ∧ r' = true ∧ a = true) then false else a := by decide
  rw [hb]
  by_cases h : AbandonsTransmission d v
  · rw [writeConfig_abandons hs h]; exact ⟨rfl, (if_pos h).symm⟩
  · rw [writeConfig_keeps hs h]; exact ⟨rfl, (if_neg h).symm⟩

/-- A store in a register other than CONFIG leaves CONFIG alone. -/
theorem regStore_config {d : Device} {r : Reg} (h : r ≠ .config) (v : List Byte) : (regStore d r v).config = d.config := by
  cases r <;> first | rfl | exact absurd rfl h

/-- An effect of a command other than FLUSH_TX and a CONFIG write keeps what the transceiver state is read from. -/
theorem effect_keeps_mode {c : Config} {d e : Device} {i : Instr} (h : Effect c d i e) (hf : ∀ bs, i ≠ .flushTx bs)
    (hw : ∀ a bs, i = .wRegister a bs → c.regAt a ≠ some .config) : e.config = d.config ∧ e.txActive = d.txActive := by
  cases i with
  | rRegister a bs => exact h.elim
  | rRxPlWid bs => exact h.elim
  | nop bs => exact h.elim
  | flushTx bs => exact absurd rfl (hf bs)
  | activate bs => obtain rfl : e = _ := h; exact ⟨rfl, rfl⟩
  | rRxPayload bs => obtain rfl : e = _ := h; exact ⟨rfl, rfl⟩
  | wTxPayload bs => obtain rfl : e = _ := h; exact ⟨rfl, rfl⟩
  | flushRx bs => obtain rfl : e = _ := h; exact ⟨rfl, rfl⟩
  | wRegister a bs =>
    obtain ⟨r, v, hr, -, ⟨-, rfl⟩ | ⟨-, rfl⟩⟩ := h
    · exact ⟨rfl, rfl⟩
    · have hne : r ≠ .config := fun k => hw a bs rfl (k ▸ hr)
      rw [writeSideEffects_of_ne hne]
      exact ⟨regStore_config hne _, regStore_txActive ..⟩

/-! ## The flags -/

theorem clearFlags_flags_le (c : Config) (v : Byte) (d : Device) :
    ((clearFlags c v d).rxDR = true → d.rxDR = true) ∧ ((clearFlags c v d).txDS = true → d.txDS = true)
      ∧ ((clearFlags c v d).maxRT = true → d.maxRT = true) := by
  simp only [clearFlags, Bool.and_eq_true]
  exact ⟨And.left, And.left, And.left⟩

/-- An effect keeps the flags, or is that of a STATUS write and clears some. -/
theorem effect_flags {c : Config} {d e : Device} {i : Instr} (hs : Structural c) (h : Effect c d i e) :
    (e.rxDR = d.rxDR ∧ e.txDS = d.txDS ∧ e.maxRT = d.maxRT) ∨
      ((∃ a bs, i = .wRegister a bs ∧ c.regAt a = some .status) ∧ ∃ v, e = clearFlags c v d) := by
  cases i with
  | rRegister a bs => exact h.elim
  | rRxPlWid bs => exact h.elim
  | nop bs => exact h.elim
  | activate bs => obtain rfl : e = _ := h; exact .inl ⟨rfl, rfl, rfl⟩
  | rRxPayload bs => obtain rfl : e = _ := h; exact .inl ⟨rfl, rfl, rfl⟩
  | wTxPayload bs => obtain rfl : e = _ := h; exact .inl ⟨rfl, rfl, rfl⟩
  | flushTx bs => obtain rfl : e = _ := h; exact .inl ⟨rfl, rfl, rfl⟩
  | flushRx bs => obtain rfl : e = _ := h; exact .inl ⟨rfl, rfl, rfl⟩
  | wRegister a bs =>
    obtain ⟨r, v, hr, -, ⟨ha, rfl⟩ | ⟨-, rfl⟩⟩ := h
    · obtain rfl := eq_status_of_w1c hs ha
      exact .inr ⟨⟨a, bs, rfl, hr⟩, v, rfl⟩
    · left; simp

/-- What an effect on a FIFO or a hidden bit says of the command. -/
theorem effect_fifos {c : Config} {d e : Device} {i : Instr} (h : Effect c d i e) :
    (e.txq ≠ d.txq → (∃ bs, i = .wTxPayload bs) ∨ ∃ bs, i = .flushTx bs)
    ∧ (e.rxq ≠ d.rxq → (∃ bs, i = .rRxPayload bs) ∨ ∃ bs, i = .flushRx bs)
    ∧ (e.txActive ≠ d.txActive → e.txActive = false
      ∧ ((∃ bs, i = .flushTx bs) ∨ ∃ a bs, i = .wRegister a bs ∧ c.regAt a = some .config))
    ∧ (e.featuresActive ≠ d.featuresActive → ∃ bs, i = .activate bs) := by
  cases i with
  | rRegister a bs => exact h.elim
  | rRxPlWid bs => exact h.elim
  | nop bs => exact h.elim
  | activate bs => obtain rfl : e = _ := h; exact ⟨fun k => absurd rfl k, fun k => absurd rfl k, fun k => absurd rfl k, fun _ => ⟨bs, rfl⟩⟩
  | rRxPayload bs =>
    obtain rfl : e = _ := h
    exact ⟨fun k => absurd rfl k, fun _ => .inl ⟨bs, rfl⟩, fun k => absurd rfl k, fun k => absurd rfl k⟩
  | wTxPayload bs =>
    obtain rfl : e = _ := h
    exact ⟨fun _ => .inl ⟨bs, rfl⟩, fun k => absurd rfl k, fun k => absurd rfl k, fun k => absurd rfl k⟩
  | flushTx bs =>
    obtain rfl : e = _ := h
    exact ⟨fun _ => .inr ⟨bs, rfl⟩, fun k => absurd rfl k, fun _ => ⟨rfl, .inl ⟨bs, rfl⟩⟩, fun k => absurd rfl k⟩
  | flushRx bs =>
    obtain rfl : e = _ := h
    exact ⟨fun k => absurd rfl k, fun _ => .inr ⟨bs, rfl⟩, fun k => absurd rfl k, fun k => absurd rfl k⟩
  | wRegister a bs =>
    obtain ⟨r, v, hr, -, ⟨-, rfl⟩ | ⟨-, rfl⟩⟩ := h
    · exact ⟨fun k => absurd rfl k, fun k => absurd rfl k, fun k => absurd rfl k, fun k => absurd rfl k⟩
    · refine ⟨fun k => absurd (by simp) k, fun k => absurd (by simp) k, fun k => ?_, fun k => absurd (by simp) k⟩
      rcases writeSideEffects_cases c r d (regStore d r bs) with hn | ⟨rfl, hn⟩
      · exact absurd (by rw [hn, regStore_txActive]) k
      · exact ⟨by rw [hn], .inr ⟨a, bs, rfl, hr⟩⟩

end Sys2Proof.Machine

open Sys2Proof Sys2Proof.Machine Sys2Proof.Safety

/-- Settles O22: an empty data phase has no MISO byte after the status byte, and each command's commit on it. -/
theorem commandOnlyFrames : Obligations.CommandOnlyFrames := by
  intro i s hready
  refine ⟨?_, ?_, ?_, ?_⟩
  · rintro (⟨a, r, rfl, hr⟩ | ⟨a, r, rfl, hr⟩ | rfl | rfl | rfl | rfl)
    · exact exec_commandOnly (i := .rRegister a []) hready (addressRefusal_of_some hr) rfl rfl
    · exact exec_commandOnly (i := .wRegister a []) hready (addressRefusal_of_some hr) rfl rfl
    · exact exec_commandOnly hready rfl rfl rfl
    · exact exec_commandOnly hready rfl rfl rfl
    · exact exec_commandOnly hready rfl rfl rfl
    · exact exec_commandOnly hready rfl rfl rfl
  · rintro rfl; exact exec_commandOnly hready rfl rfl rfl
  · rintro rfl; exact exec_commandOnly hready rfl rfl rfl
  · rintro rfl; exact exec_refused_of_commit hready rfl rfl

/-- Settles O23: the bytes are the head's and then draws, and the commit drops the head when there is a data byte. -/
theorem readPayloadReturnsAndRemovesHead : Obligations.ReadPayloadReturnsAndRemovesHead := by
  intro d s hready
  have hc : commitDev s.par s.dev (.rRxPayload d) = some (if d = [] then s.dev else { s.dev with rxq := s.dev.rxq.tail }) := by
    cases d <;> rfl
  rw [exec_of_commitDev hready rfl hc]
  refine congrArg Host.Outcome.next (congrArg (frameResult s d.length · _) ?_)
  show ((List.range d.length).map fun j => rRxPayloadMiso s (j + 1)) = _
  cases hq : s.dev.rxq with
  | nil => exact map_rRxPayloadMiso_nil hq _
  | cons e es => exact map_rRxPayloadMiso hq _

/-- Settles O24: both sides of `MAX_PAYLOAD`. -/
theorem writeTxPayloadQueuesOrDrops : Obligations.WriteTxPayloadQueuesOrDrops := by
  intro d s hready hd
  refine ⟨fun hl => exec_of_commitDev_drawn hready rfl (commitDev_wTxPayload hd hl) fun _ => rfl, fun hl => ?_⟩
  cases d with
  | nil => exact absurd hd (by simp)
  | cons b bs => exact exec_refused_of_commit hready rfl (if_pos hl)

/-- Settles O25: the two commits, whatever the data bytes. -/
theorem flushesEmptyOneFifo : Obligations.FlushesEmptyOneFifo := fun _ _ hready =>
  ⟨exec_of_commitDev_drawn hready rfl rfl fun _ => rfl, exec_of_commitDev_drawn hready rfl rfl fun _ => rfl⟩

/-- Settles O26: the one data phase ACTIVATE takes, and the others. -/
theorem activateTogglesFeatures : Obligations.ActivateTogglesFeatures := by
  intro d s hready
  refine ⟨?_, fun hd => exec_refused_of_commit hready rfl (if_pos hd)⟩
  rintro rfl
  exact exec_of_commitDev_drawn hready rfl (commitDev_activate _ _) fun _ => rfl

/-- Settles O27: the first data byte is the length of the head when it is defined, and every other byte is a draw. -/
theorem payloadWidthReadsHeadLength : Obligations.PayloadWidthReadsHeadLength := by
  intro d s hready
  rw [exec_of_commitDev (i := .rRxPlWid d) hready rfl rfl]
  refine congrArg Host.Outcome.next (congrArg (frameResult s d.length · _) ?_)
  show ((List.range d.length).map fun j => rRxPlWidMiso s (j + 1)) = _
  cases d with
  | nil => cases s.dev.rxq <;> rfl
  | cons b bs =>
    rw [List.length_cons, map_rRxPlWidMiso_succ, drawn_one]
    cases hq : s.dev.rxq with
    | nil => rw [rRxPlWidMiso_one_nil hq]
    | cons e es =>
      rw [rRxPlWidMiso_one hq]
      split <;> simp_all

/-- Settles O28: 0xFF is NOP's row, and NOP commits nothing. -/
theorem nopOnlyReturnsStatus : Obligations.NopOnlyReturnsStatus := fun d =>
  ⟨decodeCommand_commandByte (.nop d), fun _ hready => exec_of_commitDev_drawn hready rfl rfl fun _ => rfl⟩

/-- Settles O29: no effect sets a flag, and only that of a STATUS write touches one. -/
theorem wireCommandsSetNoFlag : Obligations.WireCommandsSetNoFlag := by
  intro i s t hs h
  obtain ⟨e, he, hcase⟩ := exec_effect h
  rw [he]
  show (e.rxDR = true → _) ∧ (e.txDS = true → _) ∧ (e.maxRT = true → _) ∧ (_ → e.rxDR = _ ∧ e.txDS = _ ∧ e.maxRT = _)
  have hkeep : e.rxDR = s.dev.rxDR ∧ e.txDS = s.dev.txDS ∧ e.maxRT = s.dev.maxRT ∨
      ((∃ a bs, i = .wRegister a bs ∧ s.par.regAt a = some .status) ∧ ∃ v, e = clearFlags s.par v s.dev) := by
    obtain rfl | he := hcase
    · exact .inl ⟨rfl, rfl, rfl⟩
    · exact effect_flags hs he
  obtain ⟨h1, h2, h3⟩ | ⟨⟨a, bs, rfl, ha⟩, v, rfl⟩ := hkeep
  · rw [h1, h2, h3]
    exact ⟨id, id, id, fun _ => ⟨rfl, rfl, rfl⟩⟩
  · obtain ⟨h1, h2, h3⟩ := clearFlags_flags_le s.par v s.dev
    exact ⟨h1, h2, h3, fun hn => absurd ha (hn a bs rfl)⟩

/-- Settles O30: the effect that changed it names the command. -/
theorem eachFifoHasItsOwnCommands : Obligations.EachFifoHasItsOwnCommands := by
  intro i s t h
  obtain ⟨e, he, rfl | heff⟩ := exec_effect h
  · rw [he]
    exact ⟨fun k => absurd rfl k, fun k => absurd rfl k, fun k => absurd rfl k, fun k => absurd rfl k⟩
  · have hsame : t.dev.txq = e.txq ∧ t.dev.rxq = e.rxq ∧ t.dev.txActive = e.txActive ∧ t.dev.featuresActive = e.featuresActive := by
      rw [he]; exact ⟨rfl, rfl, rfl, rfl⟩
    obtain ⟨h1, h2, h3, h4⟩ := hsame
    rw [h1, h2, h3, h4]
    exact effect_fifos heff

/-- Settles O38: what the state is read from changes only by a CONFIG write and by FLUSH_TX, which clears `tx_active`. -/
theorem wireCommandsThatChangeTheMode : Obligations.WireCommandsThatChangeTheMode := by
  intro i s t h hne
  obtain ⟨hp, hce, -⟩ := exec_outside h
  obtain ⟨e, he, hcase⟩ := exec_effect h
  have hmode : e.config = s.dev.config → xcvrState t = modeOf (s.dev.pwrUp s.par) (s.dev.primRx s.par) s.ce e.txActive := fun k => by
    rw [xcvrState_congr hp hce (by rw [he]; exact k), he]
  have same : e.config = s.dev.config ∧ e.txActive = s.dev.txActive → False := fun k =>
    hne (by rw [hmode k.1, k.2, xcvrState_eq_modeOf])
  obtain rfl | heff := hcase
  · exact (same ⟨rfl, rfl⟩).elim
  by_cases hw : ∃ a d, i = .wRegister a d ∧ s.par.regAt a = some .config
  · exact .inl hw
  by_cases hf : ∃ d, i = .flushTx d
  · obtain ⟨d, rfl⟩ := hf
    obtain rfl : e = _ := heff
    have ht := hmode rfl
    rw [ht, xcvrState_eq_modeOf s] at hne
    rw [ht, xcvrState_eq_modeOf s]
    exact .inr ⟨⟨d, rfl⟩, modeOf_abandoned _ _ _ _ hne⟩
  · exact (same (effect_keeps_mode heff (fun d hd => hf ⟨d, hd⟩) fun a d hd k => hw ⟨a, d, hd, k⟩)).elim

/-- Settles O39: the state is read from the CONFIG written, CE, and the `tx_active` that R89 leaves. -/
theorem configWriteSelectsTheMode : Obligations.ConfigWriteSelectsTheMode := by
  intro v s hs hready hv hact
  refine ⟨_, exec_writeConfig hs hready hv, ?_⟩
  obtain ⟨hcfg, hta⟩ := writeConfig_keptActive hs s.dev v
  have hlegal : s.dev.txActive = true → s.dev.config.getLsbD 1 = true ∧ s.dev.config.getLsbD 0 = false :=
    fun h => ((legalActivity_iff hs s.dev).1 hact h).2
  have hnew : xcvrState (frameResult s 1 (drawn s 1 1) (writeSideEffects s.par .config s.dev { s.dev with config := v })) =
      modeOf (v.getLsbD 1) (v.getLsbD 0) s.ce
        (keptActive (s.dev.config.getLsbD 1) (s.dev.config.getLsbD 0) s.dev.txActive (v.getLsbD 1) (v.getLsbD 0)) := by
    rw [← hta, ← congrArg (·.getLsbD 1) hcfg, ← congrArg (·.getLsbD 0) hcfg]
    exact xcvrState_eq (s := frameResult s 1 _ _) hs
  rw [hnew, xcvrState_eq hs]
  exact modeOf_selected _ _ _ _ _ _ hlegal

end

section
/-! Proofs: the radio core and air (45_radio_core.md). -/

namespace Sys2Proof.Machine

open Sys2Proof Sys2Proof.Safety

/-! ## One radio-core step -/

/-- A move of the radio core is a radio-core step of its action. -/
theorem step_radioMove {s : State} {m : Move} {rest : List Move} (hs : s.sched = m :: rest)
    (hm : m = .txStart ∨ (∃ b, m = .txComplete b) ∨ ∃ x p k, m = .rxDeliver x p k) :
    ∃ act, (act = txStart ∨ (∃ b, act = txComplete b) ∨ ∃ x p k, act = rxDeliver x p k)
      ∧ step s = radioStep act { s with sched := rest } := by
  obtain rfl | ⟨b, rfl⟩ | ⟨x, p, k, rfl⟩ := hm
  · exact ⟨_, .inl rfl, by rw [step, hs]⟩
  · exact ⟨_, .inr (.inl ⟨b, rfl⟩), by rw [step, hs]⟩
  · exact ⟨_, .inr (.inr ⟨x, p, k, rfl⟩), by rw [step, hs]⟩

/-- No radio-core step runs while CSN is 0 or the device is powered down (R131, R136). -/
theorem radioStep_still {act : State → State} {s : State} (h : s.csn = false ∨ s.dev.pwrUp s.par = false) :
    radioStep act s = .next s := by
  unfold radioStep
  split
  · rfl
  · rename_i hc
    exact if_pos (h.resolve_left hc)

/-- With CSN 1 and the device powered up a radio-core step is its action, dynamic payload being off. -/
theorem radioStep_runs {act : State → State} {s : State} (hc : s.csn = true) (hp : s.dev.pwrUp s.par = true)
    (hd : dynamicPayloadOn s.par s.dev = false) : radioStep act s = .next (act s) := by
  simp [radioStep, hc, hp, hd]

/-- With CSN 1, the device powered up and dynamic payload on, a radio-core step is refused (R141). -/
theorem radioStep_refused {act : State → State} {s : State} (hc : s.csn = true) (hp : s.dev.pwrUp s.par = true)
    (hd : dynamicPayloadOn s.par s.dev = true) : radioStep act s = .refused .dynamicPayload := by
  simp [radioStep, hc, hp, hd]

/-- A radio-core step whose action changes nothing changes nothing. -/
theorem radioStep_idle {act : State → State} {s : State} (hd : dynamicPayloadOn s.par s.dev = false) (ha : act s = s) :
    radioStep act s = .next s := by
  unfold radioStep
  split
  · rfl
  split
  · rfl
  · rw [hd, ha]; rfl

/-! ## What enables an action -/

/-- Dynamic payload is on when a feature register holds a value and the features are not gated off (R141). -/
theorem dynamicPayloadOn_iff (c : Config) (d : Device) : dynamicPayloadOn c d = true ↔
    (c.chipNeedsActivate = false ∨ d.featuresActive = true) ∧ (d.feature ≠ 0#8 ∨ d.dynpd ≠ 0#8) := by
  simp only [dynamicPayloadOn, featuresGated, Bool.and_eq_true, Bool.not_eq_true', Bool.and_eq_false_iff, beq_eq_false_iff_ne,
    Bool.not_eq_false', ne_eq]

theorem txStartEnabled_iff {s : State} (hs : Structural s.par) : txStartEnabled s = true ↔
    s.dev.config.getLsbD 1 = true ∧ s.dev.config.getLsbD 0 = false ∧ s.ce = true ∧ 1 ≤ s.dev.txq.length ∧ s.dev.maxRT = false
      ∧ s.dev.txActive = false := by
  have hq : s.dev.txq.isEmpty = false ↔ 1 ≤ s.dev.txq.length := by cases s.dev.txq <;> simp
  simp only [txStartEnabled, pwrUp_eq hs, primRx_eq hs, Bool.and_eq_true, Bool.not_eq_true', hq, and_assoc]

/-- The transmission is sent without an acknowledgement, or with one that can arrive (R134). -/
theorem txSent_iff {c : Config} (hs : Structural c) (acked : Bool) (d : Device) : txSent c acked d = true ↔
    d.enAA.getLsbD 0 = false ∨ (acked = true ∧
      d.rxAddrP0.toNat % 2 ^ (8 * (d.setupAw.toNat % 4 + 2)) = d.txAddr.toNat % 2 ^ (8 * (d.setupAw.toNat % 4 + 2))) := by
  simp only [txSent, ackReachable, lowBytes, ackAwaited_eq hs, addrWidth_eq hs, Bool.or_eq_true, Bool.not_eq_true', Bool.and_eq_true,
    beq_iff_eq]

theorem xcvrState_listening_iff {s : State} (hs : Structural s.par) : xcvrState s = .listening ↔
    s.dev.config.getLsbD 1 = true ∧ s.dev.config.getLsbD 0 = true ∧ s.ce = true := by
  have h : ∀ p r ce a : Bool, modeOf p r ce a = .listening ↔ p = true ∧ r = true ∧ ce = true := by decide
  rw [xcvrState_eq hs, h]

/-- A pipe is open for a packet (R137, R138). -/
def OpenFor (c : Config) (d : Device) (x : Addr) (payload : List Byte) (p : Nat) : Prop :=
  p < c.numPipes ∧ d.enRxaddr.getLsbD p = true ∧ rxWidth d p ≠ 0 ∧ rxWidth d p = payload.length
    ∧ (effAddr d p).toNat % 2 ^ (8 * (d.setupAw.toNat % 4 + 2)) = x.toNat % 2 ^ (8 * (d.setupAw.toNat % 4 + 2))

/-- The candidates of a packet are the pipes open for it. -/
theorem mem_candidatePipes {c : Config} (hs : Structural c) {d : Device} {x : Addr} {payload : List Byte} {p : Nat} :
    p ∈ candidatePipes c d x payload ↔ OpenFor c d x payload p := by
  simp only [candidatePipes, OpenFor, pipeMatches, lowBytes, pipeEnabled_eq hs, addrWidth_eq hs, List.mem_filter, List.mem_range,
    Bool.and_eq_true, bne_iff_ne, beq_iff_eq, and_assoc, ne_eq]

/-! ## RX delivery -/

/-- The state after a packet is filed under pipe `p`. -/
def filedUnder (s : State) (payload : List Byte) (p : Nat) : State :=
  { s with dev := { s.dev with rxq := s.dev.rxq ++ [{ pipe := BitVec.ofNat 3 p, payload := payload }], rxDR := true } }

theorem rxFile_full {p : Nat} {payload : List Byte} {s : State} (h : s.par.rxFifoDepth ≤ s.dev.rxq.length) :
    rxFile p payload s = s := if_pos h

theorem rxFile_room {p : Nat} {payload : List Byte} {s : State} (h : s.dev.rxq.length < s.par.rxFifoDepth) :
    rxFile p payload s = filedUnder s payload p := if_neg (Nat.not_le.2 h)

/-- Outside Listening a packet is lost. -/
theorem rxDeliver_deaf {x : Addr} {payload : List Byte} {pick : Nat} {s : State} (h : xcvrState s ≠ .listening) :
    rxDeliver x payload pick s = s := if_neg fun k => h k.1

section
variable {x : Addr} {payload : List Byte} {s : State} (hl : xcvrState s = .listening) (h1 : 1 ≤ payload.length)
  (h2 : payload.length ≤ s.par.maxPayload)
include hl h1 h2

theorem rxDeliver_unmatched (hc : candidatePipes s.par s.dev x payload = []) (pick : Nat) :
    rxDeliver x payload pick s = s := by
  rw [rxDeliver, if_pos ⟨hl, h1, h2⟩, hc]

/-- While Listening a packet with a candidate is filed under one of them. -/
theorem rxDeliver_matched (hc : candidatePipes s.par s.dev x payload ≠ []) (pick : Nat) :
    ∃ p ∈ candidatePipes s.par s.dev x payload, rxDeliver x payload pick s = rxFile p payload s := by
  rw [rxDeliver, if_pos ⟨hl, h1, h2⟩]
  cases hq : candidatePipes s.par s.dev x payload with
  | nil => exact absurd hq hc
  | cons p ps => exact ⟨_, pick_mem p ps pick, rfl⟩

/-- Each candidate is the one filed under for some choice of the air. -/
theorem rxDeliver_chooses {p : Nat} (hp : p ∈ candidatePipes s.par s.dev x payload) :
    ∃ pick, rxDeliver x payload pick s = rxFile p payload s := by
  obtain ⟨k, hk, hget⟩ := List.getElem_of_mem hp
  refine ⟨k, ?_⟩
  rw [rxDeliver, if_pos ⟨hl, h1, h2⟩]
  cases hq : candidatePipes s.par s.dev x payload with
  | nil => simp [hq] at hp
  | cons q qs =>
    simp only [hq] at hk hget
    show rxFile _ payload s = _
    rw [Nat.mod_eq_of_lt hk, List.getD_eq_getElem _ _ hk, hget]

end

end Sys2Proof.Machine

open Sys2Proof Sys2Proof.Machine Sys2Proof.Safety

/-- Settles O32: the two first tests of a radio-core step. -/
theorem radioStepsNeedCsnHighAndPower : Obligations.RadioStepsNeedCsnHighAndPower := by
  intro s m rest hs hsched hm hoff
  obtain ⟨act, -, he⟩ := step_radioMove hsched hm
  rw [he]
  exact radioStep_still (hoff.imp_right fun h => (pwrUp_eq hs _).trans h)

/-- Settles O33: the third test. -/
theorem dynamicPayloadStepsRefused : Obligations.DynamicPayloadStepsRefused := by
  intro s m rest hs hsched hm hcsn hp hreg hact
  obtain ⟨act, -, he⟩ := step_radioMove hsched hm
  rw [he]
  exact radioStep_refused (s := { s with sched := rest }) hcsn ((pwrUp_eq hs _).trans hp) ((dynamicPayloadOn_iff _ _).2 ⟨hact, hreg⟩)

/-- Settles O34: the move runs when enabled; else CSN is 0 and no step runs, or TX start is not enabled. -/
theorem txStartOnlyWhenEnabled : Obligations.TxStartOnlyWhenEnabled := by
  intro s rest hs hsched hd
  have he : step s = radioStep txStart { s with sched := rest } := by rw [step, hsched]
  have hen := txStartEnabled_iff (s := { s with sched := rest }) hs
  rw [he]
  constructor
  · rintro ⟨hcsn, hp, hrest⟩
    rw [radioStep_runs (s := { s with sched := rest }) hcsn ((pwrUp_eq hs _).trans hp) hd]
    exact congrArg _ (if_pos (hen.2 ⟨hp, hrest⟩))
  · intro hn
    by_cases hcsn : s.csn = true
    · exact radioStep_idle hd (if_neg fun k => hn ⟨hcsn, hen.1 k⟩)
    · exact radioStep_still (.inl (by simpa using hcsn))

/-- Settles O35: the branches of `tx_complete`. -/
theorem txCompletionOutcomes : Obligations.TxCompletionOutcomes := by
  intro s acked rest hs hsched hd aw sent
  have he : step s = radioStep (txComplete acked) { s with sched := rest } := by rw [step, hsched]
  have hsent : txSent s.par acked s.dev = true ↔ sent := txSent_iff hs acked s.dev
  rw [he]
  refine ⟨fun hcsn hp hact => ?_, fun hact => ?_⟩
  · rw [radioStep_runs (s := { s with sched := rest }) hcsn ((pwrUp_eq hs _).trans hp) hd, txComplete, if_pos hact]
    exact ⟨fun h => congrArg _ (if_pos (hsent.2 h)), fun h => congrArg _ (if_neg (h ∘ hsent.1))⟩
  · exact radioStep_idle (s := { s with sched := rest }) hd (if_neg (by simp [hact]))

/-- Settles O36: the candidates are the open pipes, and the air's choice picks one of them. -/
theorem rxDeliveryFilesUnderAMatchingPipe : Obligations.RxDeliveryFilesUnderAMatchingPipe := by
  intro s x payload rest hs hd h1 h2 aw listening open_ filed
  have hlist : xcvrState { s with sched := rest } = .listening ↔ listening := xcvrState_listening_iff (s := { s with sched := rest }) hs
  have hmem : ∀ p, p ∈ candidatePipes s.par s.dev x payload ↔ open_ p := fun p => mem_candidatePipes hs
  have he : ∀ pick, step { s with sched := .rxDeliver x payload pick :: rest } =
      radioStep (rxDeliver x payload pick) { s with sched := rest } := fun _ => rfl
  refine ⟨fun hcsn hl => ?_, fun pick hl => ?_⟩
  · have hrun : ∀ pick, step { s with sched := .rxDeliver x payload pick :: rest } =
        .next (rxDeliver x payload pick { s with sched := rest }) := fun pick =>
      (he pick).trans (radioStep_runs (s := { s with sched := rest }) hcsn ((pwrUp_eq hs _).trans hl.1) hd)
    have hl' := hlist.2 hl
    refine ⟨fun pick hex hroom => ?_, fun pick hno => ?_, fun p hp hroom => ?_⟩
    · obtain ⟨q, hq⟩ := hex
      obtain ⟨p, hp, hf⟩ := rxDeliver_matched hl' h1 h2 (List.ne_nil_of_mem ((hmem q).2 hq)) pick
      exact ⟨p, (hmem p).1 hp, by rw [hrun, hf]; exact congrArg _ (rxFile_room hroom)⟩
    · rw [hrun]
      by_cases hc : candidatePipes s.par s.dev x payload = []
      · rw [rxDeliver_unmatched hl' h1 h2 hc]
      · obtain ⟨p, hp, hf⟩ := rxDeliver_matched hl' h1 h2 hc pick
        rw [hf]
        exact congrArg _ (rxFile_full (hno.resolve_left fun k => k ⟨p, (hmem p).1 hp⟩))
    · obtain ⟨pick, hf⟩ := rxDeliver_chooses hl' h1 h2 ((hmem p).2 hp)
      exact ⟨pick, by rw [hrun, hf]; exact congrArg _ (rxFile_room hroom)⟩
  · rw [he]
    exact radioStep_idle (s := { s with sched := rest }) hd (rxDeliver_deaf fun k => hl (hlist.1 k))

/-- Settles O37: a radio-core step is its action or nothing, and each action keeps the rest. -/
theorem radioStepsTouchOnlyFlagsAndFifos : Obligations.RadioStepsTouchOnlyFlagsAndFifos := by
  intro s t m rest hsched hm h
  obtain ⟨act, hact, he⟩ := step_radioMove hsched hm
  obtain ⟨hk, hr⟩ := radioAct_keeps hact { s with sched := rest }
  obtain rfl | rfl := radioStep_next (he ▸ h)
  · exact ⟨rfl, rfl⟩
  · exact ⟨hk, hr⟩

end

section
/-! Proofs: what every step keeps or lets grow, the wait, the rejected calls, and the transport failure. -/

namespace Sys2Proof.Machine

open Sys2Proof Sys2Proof.Safety

/-! ## What a step does to the clock, the trace, the calls and the schedule -/

/-- What every step does to the clock, the record of the run, the host's calls and the schedule. -/
structure Advances (s t : State) : Prop where
  clock : s.clock ≤ t.clock
  par : t.par = s.par
  trace : s.trace <+: t.trace
  results : s.results <+: t.results
  program : t.program = s.program ∨ (s.code = [] ∧ ∃ op, s.program = op :: t.program)
  sched : t.sched = s.sched.tail
  idle : s.sched = [] → s.clock + 1 ≤ t.clock

theorem finishOp_grows (r : Result) (s : State) : Grows s (finishOp r s) :=
  ⟨le_rfl, rfl, List.prefix_refl _, List.prefix_append _ _, rfl, rfl⟩

theorem startOp_grows {op : HostOp} {s t : State} (h : startOp op s = .next t) : Grows s t := by
  obtain ⟨as, rfl⟩ | rfl := startOp_next h
  · exact Grows.refl s
  · exact finishOp_grows _ s

/-- A controller's move: what it runs grows, the host may have lost its first call, and then the idle time passes. -/
theorem controllerStep_grows {dr : Draw} {s t : State} (h : controllerStep dr s = .next t) :
    ∃ v u, Grows v u ∧ t = u.passTime dr.idleMs ∧ v.clock = s.clock ∧ v.par = s.par ∧ v.trace = s.trace ∧ v.results = s.results
      ∧ v.sched = s.sched ∧ (v.program = s.program ∨ (s.code = [] ∧ ∃ op, s.program = op :: v.program)) := by
  obtain ⟨u, rfl, ⟨hc, hp, rfl⟩ | ⟨hc, op, rest, hp, hu⟩ | ⟨a, rest, hc, hu⟩⟩ := controllerStep_next h
  · exact ⟨s, { s with op := none }, Grows.refl s, rfl, rfl, rfl, rfl, rfl, rfl, .inl rfl⟩
  · exact ⟨_, u, startOp_grows hu, rfl, rfl, rfl, rfl, rfl, rfl, .inr ⟨hc, op, hp⟩⟩
  · exact ⟨_, u, runAction_grows hu, rfl, rfl, rfl, rfl, rfl, rfl, .inl rfl⟩

/-- A move that changes only what the radio core writes. -/
theorem advances_of_radio {s t : State} {m : Move} {rest : List Move} (hs : s.sched = m :: rest)
    (h : SameButRadio { s with sched := rest } t) (ht : t.sched = rest) : Advances s t := by
  rw [SameButRadio] at h
  rw [h] at ht ⊢
  exact ⟨le_rfl, rfl, List.prefix_refl _, List.prefix_refl _, .inl rfl, by rw [hs]; exact ht, fun k => absurd k (by simp [hs])⟩

theorem step_advances {s t : State} (h : step s = .next t) : Advances s t := by
  obtain ⟨rest, d, hs, rfl⟩ | ⟨m, rest, hs, ht⟩ | ⟨dr, rest, hm, hc⟩ := step_next h
  · exact ⟨Nat.le_add_right _ _, rfl, List.prefix_refl _, List.prefix_refl _, .inl rfl, by rw [hs]; rfl, fun k => absurd k (by simp [hs])⟩
  · have radio : ∀ act : State → State, (act = txStart ∨ (∃ b, act = txComplete b) ∨ ∃ x p k, act = rxDeliver x p k) →
        Advances s (act { s with sched := rest }) := fun act hact =>
      advances_of_radio hs (radioAct_keeps hact _).1 (radioAct_keeps hact _).2
    obtain rfl | rfl | ⟨b, rfl⟩ | ⟨x, p, k, rfl⟩ := ht
    · exact advances_of_radio hs rfl rfl
    · exact radio _ (.inl rfl)
    · exact radio _ (.inr (.inl ⟨b, rfl⟩))
    · exact radio _ (.inr (.inr ⟨x, p, k, rfl⟩))
  · obtain ⟨v, u, ⟨gk, gp, gt, gr, gprog, gs⟩, rfl, hk, hp, htr, hr, hsch, hprog⟩ := controllerStep_grows hc
    have hclock : s.clock ≤ u.clock := hk ▸ gk
    refine ⟨hclock.trans (Nat.le_add_right _ _), gp.trans hp, htr ▸ gt, hr ▸ gr, ?_, ?_, fun hs => ?_⟩
    · show u.program = _ ∨ _ ∧ ∃ op, _ = op :: u.program
      rw [gprog]; exact hprog
    · show u.sched = _
      rw [gs, hsch]
      obtain ⟨hs, -, rfl⟩ | hs := hm <;> rw [hs] <;> rfl
    · obtain ⟨-, rfl, -⟩ | hs' := hm
      · exact Nat.add_le_add_right hclock 1
      · simp [hs] at hs'

/-! ## An infinite run -/

theorem run_sched {r : Nat → State} (hr : IsRun r) (n : Nat) : (r n).sched = (r 0).sched.drop n := by
  induction n with
  | zero => rfl
  | succ n ih => rw [(step_advances (hr n)).sched, ih, List.tail_drop]

/-- Once the schedule is used up each step takes at least 1 ms. -/
theorem run_clock {r : Nat → State} (hr : IsRun r) (k : Nat) : k ≤ (r ((r 0).sched.length + k)).clock := by
  induction k with
  | zero => exact Nat.zero_le _
  | succ k ih =>
    have hs : (r ((r 0).sched.length + k)).sched = [] := by
      rw [run_sched hr, List.drop_eq_nil_iff]; omega
    exact (Nat.succ_le_succ ih).trans ((step_advances (hr _)).idle hs)

/-! ## The payload size of a call -/

theorem withPayloadSize_some {s : State} {n : Nat} (h : s.payloadSize = some n) (k : Nat → Out) : withPayloadSize s k = k n := by
  rw [withPayloadSize, h]

theorem withPayloadSize_none {s : State} (h : s.payloadSize = none) (k : Nat → Out) :
    withPayloadSize s k = .refused .payloadSizeUnset := by
  rw [withPayloadSize, h]

/-! ## The transport failure -/

theorem andThen_next_refused_iff {o : Out} {f : State → State} {r : Refusal} :
    (andThen o fun t => .next (f t)) = .refused r ↔ o = .refused r := by
  cases o <;> simp [andThen]

theorem abortFrame_refused_iff {dr : Draw} {s : State} {r : Refusal} : abortFrame dr s = .refused r ↔
    r = .frameBeforePowerOnReset ∧ s.csn = true ∧ s.clock < s.par.porMs ∧ dr.abortFails = true ∧ dr.csn = false := by
  unfold abortFrame opensTooEarly
  by_cases ha : dr.abortFails = true
  · rw [if_pos ha]
    split
    · rename_i h
      simp only [Bool.and_eq_true, decide_eq_true_eq, Bool.not_eq_true'] at h
      obtain ⟨⟨h1, h2⟩, h3⟩ := h
      simp only [Host.Outcome.refused.injEq, h1, h2, ha, h3, and_true, eq_comm]
    · rename_i h
      refine ⟨nofun, fun ⟨_, h1, h2, _, h3⟩ => absurd ?_ h⟩
      simp [h1, h2, h3]
  · rw [if_neg ha]
    exact ⟨nofun, fun k => absurd k.2.2.2.1 ha⟩

/-- What the abort does to the state it starts in (R98). -/
structure Aborted (dr : Draw) (s t : State) : Prop where
  results : t.results = s.results ++ [.transportError]
  ended : t.op = none ∧ t.code = []
  program : t.program = s.program
  cfg : t.payloadSize = s.payloadSize ∧ t.pipe0Cache = s.pipe0Cache
  ce : t.ce = s.ce
  csn : t.csn = if dr.abortFails then dr.csn else true
  legal : t.dev.legal t.par = true
  drawn : dr.device.legal s.par = true → t.dev = { dr.device with mosi := t.dev.mosi, miso := t.dev.miso }
  trace : t.trace = s.trace ++ if dr.abortFails then [] else [.csn true]

/-- A legal drawn device is the one that is left, but for the frame buffer. -/
theorem loseDevice_drawn {dr : Draw} {b : Bool} {s : State} (h : dr.device.legal s.par = true) :
    (loseDevice dr b s).dev = { dr.device with mosi := (loseDevice dr b s).dev.mosi, miso := (loseDevice dr b s).dev.miso } := by
  simp only [loseDevice, h, if_true]

theorem abortFrame_aborted {dr : Draw} {s t : State} (h : abortFrame dr s = .next t) (hl : s.dev.legal s.par = true) :
    Aborted dr s t := by
  obtain ⟨ha, -, rfl⟩ | ⟨ha, rfl⟩ := abortFrame_next h
  · exact ⟨rfl, ⟨rfl, rfl⟩, rfl, ⟨rfl, rfl⟩, rfl, by simp [ha, finishOp, loseDevice], legal_loseDevice dr _ hl, loseDevice_drawn,
      by simp [ha, finishOp, loseDevice]⟩
  · exact ⟨rfl, ⟨rfl, rfl⟩, rfl, ⟨rfl, rfl⟩, rfl, by simp [ha, finishOp, loseDevice],
      legal_loseDevice (s := s.note (.csn true)) dr _ hl, loseDevice_drawn (s := s.note (.csn true)),
      by simp [ha, finishOp, loseDevice, State.note]⟩

/-- The exchange calls before a failure are refused as their bytes are. -/
theorem exchangeCalls_refused_iff {outs : List (List Byte)} {r : Refusal} : ∀ {s u : State}, u.par = s.par → u.dev = s.dev →
    u.draws = s.draws → (exchangeCalls outs u = .refused r ↔ busBytes outs.flatten s = .refused r) := by
  induction outs with
  | nil => intro s u _ _ _; exact ⟨nofun, nofun⟩
  | cons o outs ih =>
    intro s u hp hd hw
    rw [exchangeCalls, busBytes_eq hp hd hw, List.flatten_cons, busBytes_append, andThen_assoc]
    cases hb : busBytes o s with
    | fault f => exact nomatch f
    | refused q => rfl
    | next t =>
      obtain ⟨l, -, rfl⟩ := busBytes_next hb
      exact ih hp rfl hw

/-- A frame that fails after its first line is refused exactly as its opening and the calls before the failed one are: the abort
finds the frame open. -/
theorem frameFails_refused_iff {outs : List (List Byte)} {j : Nat} {dr : Draw} {s : State} {r : Refusal} :
    frameFails outs (j + 1) dr s = .refused r ↔ andThen (busOpen s) (busBytes (outs.take j).flatten) = .refused r := by
  rw [frameFails]
  cases ho : busOpen s with
  | fault f => exact nomatch f
  | refused q => rfl
  | next v =>
    have hcsn : v.csn = false := by
      unfold busOpen at ho
      split at ho
      · cases ho
      split at ho
      · cases ho; rfl
      · rename_i hc; cases ho; exact Bool.eq_false_iff.2 hc
    rw [andThen_next, andThen_next, ← exchangeCalls_refused_iff (s := v) (u := v.emit (.csn false)) rfl rfl rfl]
    cases he : exchangeCalls (outs.take j) (v.emit (.csn false)) with
    | fault f => exact nomatch f
    | refused q => rfl
    | next w =>
      obtain ⟨-, -, -, hw, -⟩ := exchangeCalls_next he
      refine ⟨fun h => ?_, nofun⟩
      have hopen := (abortFrame_refused_iff.1 h).2.1
      have : w.csn = true := by cases hj : outs[j]? <;> rw [hj] at hopen <;> exact hopen
      rw [hw] at this
      exact absurd (hcsn.symm.trans this) (by decide)

/-- A failing line is a failed frame, or goes straight to the abort. -/
theorem runAction_of_failsAt {dr : Draw} {a : Action} {k : Nat} {s : State} (h : FailsAt s.par dr a k) :
    (∃ outs, a = .frame outs ∧ runAction a dr s = frameFails outs k dr s)
    ∨ (k = 0 ∧ ∃ v, a = .setCSN v ∧ runAction a dr s = abortFrame dr s)
    ∨ (k = 0 ∧ ∃ v, a = .setCE v ∧ runAction a dr s = abortFrame dr { s with ce := dr.ce })
    ∨ (k = 0 ∧ ∃ out, a = .exchange out ∧ runAction a dr s = abortFrame dr (s.note (.xfail out))) := by
  obtain ⟨outs, rfl, hf⟩ | ⟨⟨v, rfl⟩ | ⟨v, rfl⟩, hf, rfl⟩ | ⟨⟨out, rfl⟩, hf, rfl⟩ := h
  · refine .inl ⟨outs, rfl, ?_⟩
    rw [runAction, frameStep, hf]
  · exact .inr (.inl ⟨rfl, v, rfl, if_pos hf⟩)
  · exact .inr (.inr (.inl ⟨rfl, v, rfl, if_pos hf⟩))
  · refine .inr (.inr (.inr ⟨rfl, out, rfl, if_pos ?_⟩))
    simpa [exchangeFails] using hf

/-- The level a failing line leaves CE at: a failed SetCE leaves a draw. -/
def ceAfterFailure (dr : Draw) (a : Action) (s : State) : Bool := match a with | .setCE _ => dr.ce | _ => s.ce

/-- A failing line that answers a next state ends in the abort, from a state that differs on the bus only. -/
theorem runAction_failed {dr : Draw} {a : Action} {k : Nat} {s t : State} (h : FailsAt s.par dr a k) (hi : DeviceInv s)
    (ht : runAction a dr s = .next t) :
    ∃ v, Aborted dr v t ∧ BusOnly { s with ce := ceAfterFailure dr a s } v
      ∧ ((∃ b, a = .setCSN b ∨ a = .setCE b) → v.trace = s.trace) ∧ ∀ out, a = .exchange out → v.trace = s.trace ++ [.xfail out] := by
  obtain ⟨outs, rfl, he⟩ | ⟨-, b, rfl, he⟩ | ⟨-, b, rfl, he⟩ | ⟨-, out, rfl, he⟩ := runAction_of_failsAt h <;> rw [he] at ht
  · obtain ⟨v, hv, hb, hd⟩ := frameFails_next ht
    exact ⟨v, abortFrame_aborted hv (hd hi).legal, hb, (by rintro ⟨b, k | k⟩ <;> cases k), nofun⟩
  · exact ⟨s, abortFrame_aborted ht hi.legal, BusOnly.refl s, fun _ => rfl, nofun⟩
  · exact ⟨_, abortFrame_aborted ht hi.legal, BusOnly.refl _, fun _ => rfl, nofun⟩
  · refine ⟨_, abortFrame_aborted ht hi.legal, rfl, ?_, ?_⟩
    · rintro ⟨b, k | k⟩ <;> cases k
    · rintro _ ⟨⟩; rfl

/-- What refuses a failing line: the opening and the bytes before the failed exchange, or the abort. -/
theorem runAction_failed_refused_iff {dr : Draw} {a : Action} {k : Nat} {s : State} (h : FailsAt s.par dr a k) (r : Refusal) :
    runAction a dr s = .refused r ↔
      (∃ outs j, a = .frame outs ∧ k = j + 1 ∧ andThen (busOpen s) (busBytes (outs.take j).flatten) = .refused r)
      ∨ (k = 0 ∧ r = .frameBeforePowerOnReset ∧ s.csn = true ∧ s.clock < s.par.porMs ∧ dr.abortFails = true ∧ dr.csn = false) := by
  obtain ⟨outs, rfl, he⟩ | ⟨rfl, b, rfl, he⟩ | ⟨rfl, b, rfl, he⟩ | ⟨rfl, out, rfl, he⟩ := runAction_of_failsAt h <;> rw [he]
  · cases k with
    | zero => simpa [frameFails] using abortFrame_refused_iff
    | succ j =>
      rw [frameFails_refused_iff]
      constructor
      · exact fun h => .inl ⟨outs, j, rfl, rfl, h⟩
      · rintro (⟨outs', j', ho, hj, h⟩ | ⟨h, -⟩)
        · cases ho; cases hj; exact h
        · cases h
  all_goals simp [abortFrame_refused_iff, State.note]

/-! ## The wait -/

/-- A step while the controller holds in a wait: the lines are kept, or the wait ends (R157). -/
theorem step_inWait {s t : State} {u d : Nat} {code : List Action} (hc : s.code = .waitUntil u d :: code) (h : step s = .next t) :
    t.code = s.code ∨ ∃ s' k, s'.code = code ∧ s'.trace = s.trace ∧ t = (waitEnds u d s').passTime k := by
  obtain ⟨rest, d, -, rfl⟩ | ⟨m, rest, -, ht⟩ | ⟨dr, rest, hm, -⟩ := step_next h
  · exact .inl rfl
  · left
    obtain rfl | rfl | ⟨b, rfl⟩ | ⟨x, p, k, rfl⟩ := ht
    · rfl
    · rw [txStart_sameButRadio]
    · rw [txComplete_sameButRadio]
    · rw [rxDeliver_sameButRadio]
  · rw [step_of_line hm hc] at h
    cases h
    exact .inr ⟨s.atLine code rest, dr.idleMs, rfl, rfl, rfl⟩

end Sys2Proof.Machine

open Sys2Proof Sys2Proof.Machine Sys2Proof.Safety

/-- Settles O40: each argument fails its call's first tests. -/
theorem rejectedCallsHaveNoEffect : Obligations.RejectedCallsHaveNoEffect := by
  rintro s op hs (⟨a, n, rfl, h⟩ | ⟨a, bs, rfl, h⟩ | ⟨a, rfl, h⟩ | ⟨p, a, rfl, h⟩ | rfl | ⟨p, n, rfl, hn, h, ho⟩ | rfl | ⟨k, n, rfl, hn, h, ho⟩)
  · exact if_neg (by rw [hs.maxPayload]; omega)
  · refine if_neg ?_
    rw [hs.maxPayload]
    obtain rfl | h := h
    · simp
    · omega
  · exact if_pos (by rw [Config.addrLimit_eq hs]; exact h)
  · by_cases hp : s.par.numPipes ≤ p
    · exact if_pos hp
    · refine (if_neg hp).trans (if_pos ?_)
      rw [hs.numPipes] at hp
      rw [Config.addrLimit_eq hs]
      omega
  · rfl
  · have hp : p ≠ [] := by rintro rfl; simp at h
    simp only [startOp, opTransmit, if_neg hp, withPayloadSize_some hn, if_neg (Nat.not_le.2 h), ho]
    rfl
  · rfl
  · have hk : k ≠ 0 := by omega
    simp only [startOp, opReadPayload, if_neg hk, withPayloadSize_some hn, if_neg (Nat.not_le.2 h), ho]
    rfl

/-- Settles O41: the calls' tests in the order of R152. -/
theorem unsetPayloadSizeRefused : Obligations.UnsetPayloadSizeRefused := by
  refine ⟨fun s hs hn => ?_, fun s req h => if_pos h⟩
  have unset := withPayloadSize_none hn
  have inRange : ∀ a, a < 2 ^ 40 → ¬ s.par.addrLimit ≤ a := fun a h => by rw [Config.addrLimit_eq hs]; omega
  refine ⟨fun a ha => (if_neg (inRange a ha)).trans (unset _), fun p a hp ha => ?_, fun b bs => ?_, fun k => ?_⟩
  · exact (if_neg (by rw [hs.numPipes]; omega)).trans ((if_neg (inRange a ha)).trans (unset _))
  · simp only [startOp, opTransmit, if_neg (List.cons_ne_nil b bs), unset]
  · simp only [startOp, opReadPayload, if_neg (Nat.succ_ne_zero k), unset]

/-- Settles O53: a failing line reaches the abort from a state that differs only on the bus, and only the abort, the opening and
the calls before the failed one can refuse. -/
theorem transportFailureEndsTheOperation : Obligations.TransportFailureEndsTheOperation := by
  intro s dr rest a code k hsched hcode hfail hinv aborted
  have hstep := step_of_line (.inr hsched) hcode
  have hinv' : DeviceInv (s.atLine code rest) := (DeviceInv.of_inv hinv).of_eq rfl rfl rfl le_rfl
  refine ⟨fun t ht => ?_, fun r => ?_⟩
  · rw [hstep, andThen_eq_next_iff] at ht
    obtain ⟨u, hu, ht⟩ := ht
    cases ht
    obtain ⟨v, ha, hb, htr, hx⟩ := runAction_failed (s := s.atLine code rest) hfail hinv' hu
    refine ⟨ha.results.trans (by rw [hb.results]; rfl), ha.ended.1, ha.ended.2, ha.program.trans hb.program,
      ha.cfg.1.trans hb.payloadSize, ha.cfg.2.trans hb.pipe0Cache, ha.ce.trans hb.ce, ha.csn, ha.legal,
      fun hd => ha.drawn (by rw [hb.par]; exact hd), fun h => ?_, fun out h => ?_⟩
    · exact ha.trace.trans (by rw [htr h]; rfl)
    · exact ha.trace.trans (by rw [hx out h]; simp [aborted, State.atLine])
  · rw [hstep, andThen_next_refused_iff]
    exact runAction_failed_refused_iff (s := s.atLine code rest) hfail r

/-- Settles O54: the begin of a wait is its line; while it holds, only the controller's move ends it. -/
theorem waitsEndOnlyWhenTheClockHasReachedThem : Obligations.WaitsEndOnlyWhenTheClockHasReachedThem := by
  refine ⟨fun s dr rest d code hm hc => step_of_line hm hc, fun s t u d code hc h => ?_⟩
  obtain hsame | ⟨s', k, rfl, htr, rfl⟩ := step_inWait hc h
  · exact .inl hsame
  · refine .inr ⟨rfl, (Nat.le_max_right _ _).trans (Nat.le_add_right _ _), ?_⟩
    rw [← htr]
    rfl

/-- Settles O58: what every step advances. -/
theorem clockTraceAndResultsOnlyGrow : Obligations.ClockTraceAndResultsOnlyGrow := fun _ _ h =>
  have ha := step_advances h
  ⟨ha.clock, ha.par, ha.trace, ha.results⟩

/-- Settles O59: the schedule is used up after finitely many steps, and from then on each takes at least 1 ms. -/
theorem everyInfiniteRunMakesClockProgress : Obligations.EveryInfiniteRunMakesClockProgress := fun _ hr t => ⟨_, run_clock hr t⟩

/-- Settles O60: what every step does to the host's calls. -/
theorem oneHostOperationAtATime : Obligations.OneHostOperationAtATime := fun _ _ h => (step_advances h).program

end

section
/-! Proofs: the host's register calls, from the call to the result (41_register_access.md sections 1 and 2). -/

namespace Sys2Proof.Machine

open Sys2Proof Sys2Proof.Safety

/-! ## The end of a call -/

theorem returns_imp {s : State} {p : List HostOp} {r : Result} {Q Q' : State → Prop} (h : Returns s p r Q) (hQ : ∀ t, Q t → Q' t) :
    Returns s p r Q' := by
  obtain ⟨k, t, h1, h2, h3, h4, h5, h6⟩ := h
  exact ⟨k, t, h1, h2, h3, h4, h5, hQ t h6⟩

/-- What the last line leaves: the device is one of `D`, and the rest is as before it. -/
structure Ended (c : Config) (T : Nat) (D : Device → Prop) (t u : State) : Prop where
  par : u.par = c
  dev : D u.dev
  csn : u.csn = true
  ce : u.ce = t.ce
  payloadSize : u.payloadSize = t.payloadSize
  pipe0Cache : u.pipe0Cache = t.pipe0Cache
  trace : u.trace = t.trace
  clock : T ≤ u.clock

/-- A run to the last line of a call, and that line. -/
theorem returns_of_stage {c : Config} {P : Nat → List Move → Prop} {D : Device → Prop} {j T k : Nat} {r : Return} {s t : State}
    {p : List HostOp} (hP : Schedules c P) (hE : Keeps P c true D) (hrun : run k s = .next t) (h : Stage c P (j + 1) T D [.ret r] t)
    (hres : t.results = s.results) (hprog : t.program = p) : Returns s p (returnValue r t.loc) (Ended c T D t) := by
  obtain ⟨k', u, h1, h2, h3, h4, h5, h6, h7, h8, h9, h10, h11, h12, h13⟩ := run_ret hP hE h
  exact ⟨k + k', u, run_trans hrun h1, by rw [h2, hres], h11.trans hprog, h3, h4, ⟨h8, h5, h6, h7, h9, h10, h12, h13⟩⟩

/-- What a call keeps of CE and `cfg`, from what its lines keep. -/
theorem sameCeAndCfg_of {c : Config} {T : Nat} {D : Device → Prop} {as : List Action} {op : HostOp} {p : List HostOp} {s t u v : State}
    (h1 : Called s as op p t) (h2 : Kept t u) (h3 : Ended c T D u v) : SameCeAndCfg s v :=
  ⟨h3.ce.trans (h2.ce.trans h1.ce), h3.payloadSize.trans (h2.payloadSize.trans h1.payloadSize),
    h3.pipe0Cache.trans (h2.pipe0Cache.trans h1.pipe0Cache)⟩

/-! ## Frames under a family of schedules -/

/-- What the device can be while the controller runs frames under the moves `ok`: `A d` from `d`, where `hold d` allows the environment to
move. The two families of the statements are the silent air, and everything the radio core does. -/
structure Environs (c : Config) (ok : Config → Move → Prop) (hold : Device → Prop) (A : Device → Device → Prop) : Prop where
  schedules : Schedules c (Allowed ok c)
  keeps : ∀ d, hold d → Keeps (Allowed ok c) c true (A d)
  refl : ∀ d, A d d
  commit : ∀ d x u i, A d x → commitDev c d i = some u →
    ∃ y, commitDev c x i = some y ∧ A { u with mosi := [], miso := [] } { y with mosi := [], miso := [] }
  readable : ∀ d x r, A d x → r ≠ .status → r ≠ .fifoStatus → regReadable c x r = regReadable c d r
  onAir : ∀ d x, A d x → OnAir d x
  hold_congr : ∀ {d x : Device}, x.feature = d.feature → x.dynpd = d.dynpd → x.featuresActive = d.featuresActive → hold d → hold x

theorem environs_quiet (c : Config) : Environs c QuietMove (fun _ => True) fun d x => x = d where
  schedules := schedules_quiet c
  keeps _ _ := keeps_quiet c _ _
  refl _ := rfl
  commit _ _ u _ hx hu := hx ▸ ⟨u, hu, rfl⟩
  readable _ _ _ hx _ _ := by rw [hx]
  onAir _ _ hx := hx ▸ OnAir.refl _
  hold_congr _ _ _ := id

/-- A command that completes at `d` completes at every device on air from it, and leaves it on air. -/
theorem onAir_commit {c : Config} {d x u : Device} {i : Instr} (h : OnAir d x) (hu : commitDev c d i = some u) :
    ∃ y, commitDev c x i = some y ∧ OnAir { u with mosi := [], miso := [] } { y with mosi := [], miso := [] } := by
  cases i with
  | wRegister a bs => exact onAir_wRegister h hu
  | rRegister a bs => cases hu; exact ⟨x, rfl, h.closedBoth⟩
  | rRxPlWid bs => cases hu; exact ⟨x, rfl, h.closedBoth⟩
  | nop bs => cases hu; exact ⟨x, rfl, h.closedBoth⟩
  | flushTx bs => cases hu; exact ⟨_, rfl, by rw [h]; rfl⟩
  | flushRx bs => cases hu; exact ⟨_, rfl, by rw [h]; rfl⟩
  | rRxPayload bs => cases bs <;> cases hu <;> exact ⟨_, rfl, by rw [h]; rfl⟩
  | wTxPayload bs =>
    cases bs with
    | nil => cases hu; exact ⟨x, rfl, h.closedBoth⟩
    | cons b bs =>
      by_cases hl : (b :: bs).length ≤ c.maxPayload
      · rw [commitDev_wTxPayload (by simp) hl] at hu
        refine ⟨_, commitDev_wTxPayload (by simp) hl, ?_⟩
        cases hu
        split <;> split <;> rw [h] <;> rfl
      · simp only [commitDev, commandCommit, wTxPayloadCommit, if_pos (Nat.lt_of_not_le hl)] at hu
        cases hu
  | activate bs =>
    by_cases hb : bs = [0x73#8]
    · subst hb
      rw [commitDev_activate] at hu
      refine ⟨_, commitDev_activate .., ?_⟩
      cases hu
      split
      · rw [h]; rfl
      · exact h.closedBoth
    · simp [commitDev, commandCommit, activateCommit, hb] at hu

theorem environs_onAir (c : Config) : Environs c FailureFreeMove (fun d => dynamicPayloadOn c d = false) OnAir where
  schedules := schedules_failureFree c
  keeps _ h := keeps_failureFree (radiatesAll_onAir h)
  refl := OnAir.refl
  commit _ _ _ _ := onAir_commit
  readable _ _ _ := OnAir.regReadable
  onAir _ _ := id
  hold_congr h1 h2 h3 h := by
    simp only [dynamicPayloadOn, featuresGated] at h ⊢
    rw [h1, h2, h3]; exact h

section
variable {c : Config} {ok : Config → Move → Prop} {hold : Device → Prop} {A : Device → Device → Prop} (hA : Environs c ok hold A)
include hA

theorem Environs.closed {d x : Device} (h : A d x) : A { d with mosi := [], miso := [] } { x with mosi := [], miso := [] } := by
  obtain ⟨y, hy, ha⟩ := hA.commit d x d (.nop []) h rfl
  cases hy
  exact ha

/-- A list of frames. -/
theorem run_framesIn {j T : Nat} {e : Device} (hT : c.porMs ≤ T) (fs : List (List (List Byte))) :
    ∀ {d : Device} {code : List Action} {s : State}, Stage c (Allowed ok c) (j + fs.length) T (A d) (fs.map .frame ++ code) s →
      FramesTo c hold d fs e → ∃ k t, run k s = .next t ∧ Stage c (Allowed ok c) j T (A e) code t ∧ Kept s t := by
  induction fs with
  | nil => rintro d code s h rfl; exact ⟨0, s, rfl, h, .refl s⟩
  | cons outs fs ih =>
    rintro d code s h ⟨hd, i, d', h1, h2, h3, h4⟩
    obtain ⟨k, t, x, k1, k2, -, k3, -⟩ := run_frame (j := j + fs.length) (D' := A { d' with mosi := [], miso := [] }) hA.schedules
      (hA.keeps d hd) h hT h1 h2 fun x hx => hA.commit d x d' i hx h3
    obtain ⟨k', u, l1, l2, l3⟩ := ih k2 h4
    exact ⟨k + k', u, run_trans k1 l1, l2, k3.kept.trans l3⟩

end

/-- A call of frames alone that return nothing. -/
theorem returns_frames {s : State} {e : Device} {op : HostOp} {p : List HostOp} {fs : List (List (List Byte))}
    {ok : Config → Move → Prop} {hold : Device → Prop} {A : Device → Device → Prop} (hA : Environs s.par ok hold A)
    (hc : CallsUnder ok s op p) (hcsn : s.csn = true) (hready : Ready s)
    (h : ∀ u : State, u.par = s.par → u.payloadSize = s.payloadSize → startOp op u = runLines (fs.map .frame ++ [.ret .done]) u)
    (hd : hold s.dev) (hf : FramesTo s.par hold s.dev fs e) (he : hold e) :
    Returns s p (.ok .done) fun t => A e t.dev ∧ t.csn = true ∧ SameCeAndCfg s t := by
  obtain ⟨k, t, h1, h2, h3⟩ := run_call_stage hA.schedules (hA.keeps _ hd) hc hcsn (hA.refl _) h
  obtain ⟨k', u, l1, l2, l3⟩ := run_framesIn (j := 1) hA hready fs (h3 _) hf
  exact returns_imp (returns_of_stage (j := 0) (r := .done) hA.schedules (hA.keeps _ he) (run_trans h1 l1) l2
    (l3.results.trans h2.results) (l3.program.trans h2.program)) fun v hv => ⟨hv.dev, hv.csn, sameCeAndCfg_of h2 l3 hv⟩

/-! ## A call of one frame -/

/-- A command that completes was not refused at its address, and its device is the commit's. -/
theorem exec_commitDev {i : Instr} {s e : State} (h : exec i s = .next e) :
    commandRefusal s.par i = none ∧ ∃ d, commitDev s.par s.dev i = some d ∧ e.dev = { d with mosi := [], miso := [] } := by
  obtain ⟨-, hr, u, hu, rfl⟩ := exec_next h
  exact ⟨hr, u.dev, commitDev_of_commandCommit hu, rfl⟩

/-- A refusal once frames may open depends on the parameters and the device alone. -/
theorem exec_refused_congr {i : Instr} {s v : State} {r : Refusal} (hs : Ready s) (hv : Ready v) (hp : v.par = s.par) (hd : v.dev = s.dev)
    (h : exec i s = .refused r) : exec i v = .refused r := by
  rw [exec_of_ready hs] at h
  rw [exec_of_ready hv, hp, commandCommit_eq (s := s) hp hd]
  cases hr : commandRefusal s.par i with
  | some q => rw [hr] at h; exact h
  | none =>
    rw [hr] at h
    cases hcm : commandCommit i s <;> rw [hcm] at h <;> first | exact h | cases h

theorem returns_frame {s e : State} {op : HostOp} {p : List HostOp} {outs : List (List Byte)} {i : Instr} {r : Return}
    (hc : Calls s op p) (hcsn : s.csn = true) (hready : Ready s)
    (h : ∀ u : State, u.par = s.par → u.payloadSize = s.payloadSize → startOp op u = runLines [.frame outs, .ret r] u)
    (hd : decode outs.flatten = some i) (hx : exec i s = .next e) :
    Returns s p (returnValue r { Locals.empty with ins := splitMiso outs e.resp }) fun t =>
      t.dev = e.dev ∧ t.csn = true ∧ SameCeAndCfg s t ∧ t.trace = s.trace ++ frameEvents outs (splitMiso outs e.resp) := by
  have hP := schedules_quiet s.par
  obtain ⟨hr, d, hd', he⟩ := exec_commitDev hx
  obtain ⟨k, t, h1, h2, h3⟩ := run_call_stage (D := (· = s.dev)) hP (keeps_quiet _ _ _) hc hcsn rfl h
  obtain ⟨k', u, x, l1, l2, hxd, l3, -⟩ := run_frame (j := 1) (D' := (· = e.dev)) hP (keeps_quiet _ _ _) (h3 _) hready hd hr
    (by rintro _ rfl; exact ⟨d, hd', he.symm⟩)
  have hins : u.loc.ins = splitMiso outs e.resp := by
    rw [l3.ins s rfl hxd.symm h2.draws.symm, exec_resp hx]
  have hloc : u.loc = { Locals.empty with ins := splitMiso outs e.resp } := by
    rw [l3.kept.locals, hins, h2.loc]
  rw [← hloc]
  exact returns_imp (returns_of_stage (j := 0) hP (keeps_quiet _ _ _) (run_trans h1 l1) l2 (l3.kept.results.trans h2.results)
    (l3.kept.program.trans h2.program)) fun v hv =>
      ⟨hv.dev, hv.csn, sameCeAndCfg_of h2 l3.kept hv, by rw [hv.trace, l3.trace, h2.trace, hins]⟩

/-- A call of one frame whose command is refused is refused. -/
theorem run_frameCall_refused {s : State} {op : HostOp} {p : List HostOp} {outs : List (List Byte)} {i : Instr} {r : Return}
    {q : Refusal} (hc : Calls s op p) (hcsn : s.csn = true) (hready : Ready s)
    (h : ∀ u : State, u.par = s.par → u.payloadSize = s.payloadSize → startOp op u = runLines [.frame outs, .ret r] u)
    (hd : decode outs.flatten = some i) (hx : exec i s = .refused q) : ∃ k, run k s = .refused q := by
  have hP := schedules_quiet s.par
  obtain ⟨k, t, h1, -, h3⟩ := run_call_stage (D := (· = s.dev)) hP (keeps_quiet _ _ _) hc hcsn rfl h
  obtain ⟨k', l1⟩ := run_frame_refused (j := 0) (d := s.dev) hP (keeps_quiet _ _ _) (h3 1) hready hd
    fun v hp hdev hv => exec_refused_congr hready hv hp hdev hx
  exact ⟨k + k', by rw [run_add, h1]; exact l1⟩

/-! ## The register calls -/

theorem startOp_writeRegister {a v : Byte} {c : Config} {u : State} (hu : u.par = c) :
    startOp (.writeRegister a v) u = runLines [writeReg1 c a v, .ret .done] u := by
  subst hu; rfl

theorem startOp_readRegister {a : Byte} {c : Config} {u : State} (hu : u.par = c) :
    startOp (.readRegister a) u = runLines [readRegN c a 1, .ret .byte] u := by
  subst hu; rfl

theorem startOp_writeRegisterN {c : Config} (hs : Structural c) {a : Byte} {bs : List Byte} (h1 : 1 ≤ bs.length) (h2 : bs.length ≤ 32)
    {u : State} (hu : u.par = c) : startOp (.writeRegisterN a bs) u = runLines [writeRegN c a bs, .ret .done] u := by
  subst hu
  exact if_pos ⟨h1, hs.maxPayload ▸ h2⟩

theorem startOp_readRegisterN {c : Config} (hs : Structural c) {a : Byte} {n : Nat} (h1 : 1 ≤ n) (h2 : n ≤ 32)
    {u : State} (hu : u.par = c) : startOp (.readRegisterN a n) u = runLines [readRegN c a n, .ret .bytes] u := by
  subst hu
  exact if_pos ⟨h1, hs.maxPayload ▸ h2⟩

theorem writeCmd_eq {c : Config} (hs : Structural c) (a : Byte) : writeCmd c a = 0x20#8 ||| (a &&& 0x1F#8) := by
  rw [writeCmd, c.addrMask_eq hs]

theorem readCmd_eq {c : Config} (hs : Structural c) (a : Byte) : readCmd c a = a &&& 0x1F#8 := by
  rw [readCmd, c.addrMask_eq hs, BitVec.zero_or]

/-- The events of a frame of one exchange call. -/
theorem frameEvents_one {o l : List Byte} (h : l.length = o.length) :
    frameEvents [o] (splitMiso [o] l) = [.csn false, .xfer o l, .csn true] := by
  simp [frameEvents, splitMiso, List.take_of_length_le h.le]

/-- The events of a frame of a command byte and its data, in two exchange calls. -/
theorem frameEvents_two {b : Byte} {o l : List Byte} (h : l.length = o.length + 1) :
    frameEvents [[b], o] (splitMiso [[b], o] l) = [.csn false, .xfer [b] (l.take 1), .xfer o (l.drop 1), .csn true] := by
  simp [frameEvents, splitMiso, h.le]

/-- A frame's answer has the status byte and one byte for each data byte. -/
theorem exec_resp_length {i : Instr} {s e : State} (h : exec i s = .next e) : e.resp.length = i.data.length + 1 := by
  rw [exec_resp h]; simp [frameResponse]

/-- What R_REGISTER of a register answers. -/
theorem exec_rRegister {s : State} (hs : Structural s.par) {a : RegAddr} {r : Reg} (hr : s.par.regAt a = some r) (hready : Ready s)
    (n : Nat) (b : Byte) : ∃ e, exec (.rRegister a (List.replicate n b)) s = .next e
      ∧ e.dev = { s.dev with mosi := [], miso := [] } ∧ e.resp = statusByte s.par s.dev :: (List.range n).map (regbyteOfRule s r) := by
  refine ⟨_, readRegisterReturnsRegbyte a _ r s hs hr hready, rfl, ?_⟩
  rw [List.length_replicate]
  rfl

/-- A read call with a silent air. -/
theorem returns_read {s : State} {op : HostOp} {p : List HostOp} {a : Byte} {n : Nat} {r : Reg} {ret : Return} {res : Result}
    (hc : Calls s op p) (hcsn : s.csn = true) (hready : Ready s)
    (h : ∀ u : State, u.par = s.par → u.payloadSize = s.payloadSize → startOp op u = runLines [readRegN s.par a n, .ret ret] u)
    (hr : s.par.regAt (a.setWidth 5) = some r)
    (hres : ∀ l : Locals, l.ins = [[statusByte s.par s.dev], (List.range n).map (regbyteOfRule s r)] → returnValue ret l = res) :
    Returns s p res fun t => t.dev = { s.dev with mosi := [], miso := [] } ∧ t.csn = true ∧ SameCeAndCfg s t
      ∧ t.trace = s.trace ++ [.csn false, .xfer [a &&& 0x1F#8] [statusByte s.par s.dev],
          .xfer (List.replicate n s.par.dummyByte) ((List.range n).map (regbyteOfRule s r)), .csn true] := by
  obtain ⟨e, hx, hdev, hresp⟩ := exec_rRegister hc.structural hr hready n s.par.dummyByte
  have hsplit : splitMiso [[readCmd s.par a], List.replicate n s.par.dummyByte] e.resp =
      [[statusByte s.par s.dev], (List.range n).map (regbyteOfRule s r)] := by
    rw [hresp]; simp [splitMiso, List.take_of_length_le]
  have hret := returns_frame hc hcsn hready h (by simpa using decode_readCmd hc.structural a _) hx
  rw [hres _ hsplit, frameEvents_two (o := List.replicate n s.par.dummyByte) (exec_resp_length hx), hdev, hresp, readCmd_eq hc.structural] at hret
  exact hret

/-- A read call of an address that names no register. -/
theorem run_read_refused {s : State} {op : HostOp} {p : List HostOp} {a : Byte} {n : Nat} {ret : Return}
    (hc : Calls s op p) (hcsn : s.csn = true) (hready : Ready s)
    (h : ∀ u : State, u.par = s.par → u.payloadSize = s.payloadSize → startOp op u = runLines [readRegN s.par a n, .ret ret] u)
    (hr : s.par.regAt (a.setWidth 5) = none) : ∃ k, run k s = .refused (.undefinedRegister (a.setWidth 5)) :=
  run_frameCall_refused hc hcsn hready h (by simpa using decode_readCmd hc.structural a _)
    (exec_refused_early (i := .rRegister (a.setWidth 5) (List.replicate n s.par.dummyByte)) hready (addressRefusal_of_none hr))

/-- A write call whose W_REGISTER completes at the call, whatever the radio core and the air do. -/
theorem returns_write_onAir {s e : State} {op : HostOp} {p : List HostOp} {outs : List (List Byte)} {a : RegAddr} {bs : List Byte}
    (hc : CallsOnAir s op p)
    (h : ∀ u : State, u.par = s.par → u.payloadSize = s.payloadSize → startOp op u = runLines [.frame outs, .ret .done] u)
    (hd : decode outs.flatten = some (.wRegister a bs)) (hx : exec (.wRegister a bs) s = .next e)
    (he : dynamicPayloadOn e.par e.dev = false) :
    Returns s p (.ok .done) fun t => SameRegistersOnAir [] s.par e.dev t.dev ∧ t.csn = true ∧ SameCeAndCfg s t := by
  obtain ⟨hr, d, hd', hdev⟩ := exec_commitDev hx
  obtain ⟨hp, -⟩ := exec_outside hx
  rw [hp, hdev] at he
  rw [hdev]
  exact returns_imp (returns_frames (fs := [outs]) (environs_onAir s.par) hc.toCallsUnder hc.csn hc.ready h hc.staticPayload
    (framesTo_cons hc.staticPayload hd hr hd' rfl) he) fun t ⟨h1, h2, h3⟩ => ⟨h1.sameRegisters [], h2, h3⟩

/-- A register the radio core does not write reads the same whatever it did. -/
theorem OnAir.regbyteOfRule {s : State} {d : Device} {r : Reg} (h : OnAir s.dev d) (h1 : r ≠ .status) (h2 : r ≠ .fifoStatus) (j : Nat) :
    regbyteOfRule { s with dev := d } r j = Safety.regbyteOfRule s r j := by
  have hg : d.featuresActive = s.dev.featuresActive := h.featuresActive
  have hst : regStored s.par d r = regStored s.par s.dev r := by
    rw [h]; cases r <;> first | rfl | exact absurd rfl h1 | exact absurd rfl h2
  simp only [Safety.regbyteOfRule, if_neg h1, if_neg h2, hg, hst]

/-- A read call of a register the radio core does not write, whatever it and the air do. -/
theorem returns_read_onAir {s : State} {op : HostOp} {p : List HostOp} {a : Byte} {n : Nat} {r : Reg} {ret : Return}
    (hc : CallsOnAir s op p)
    (h : ∀ u : State, u.par = s.par → u.payloadSize = s.payloadSize → startOp op u = runLines [readRegN s.par a n, .ret ret] u)
    (hr : s.par.regAt (a.setWidth 5) = some r) (h1 : r ≠ .status) (h2 : r ≠ .fifoStatus) {res : Result}
    (hres : ∀ b l, l.ins = [[b], (List.range n).map (regbyteOfRule s r)] → returnValue ret l = res) :
    Returns s p res fun t => SameRegistersOnAir [] s.par s.dev t.dev ∧ t.csn = true ∧ SameCeAndCfg s t := by
  have hE := radiatesAll_onAir hc.staticPayload
  obtain ⟨k, t, k1, k2, k3⟩ := run_call_onAir hE hc (OnAir.refl _) h
  obtain ⟨k', u, d, l1, l2, l3, -, l4, -, -, l5⟩ := run_readReg (j := 1) (D' := OnAir s.dev) (schedules_failureFree _)
    (keeps_failureFree hE) hc.structural (k3 _) hc.ready hr fun _ hd => hd.closed
  have hins := l5 { s with dev := d } rfl rfl k2.draws.symm
  have hbytes : regByte { s with dev := d } r = regbyteOfRule s r := funext fun j =>
    (regByte_eq_regbyteOfRule (s := { s with dev := d }) hc.structural).trans (l4.regbyteOfRule h1 h2 j)
  rw [hbytes] at hins
  rw [← hres _ _ hins]
  exact returns_imp (returns_of_stage (j := 0) (schedules_failureFree _) (keeps_failureFree hE) (run_trans k1 l1) l2 (l3.results.trans k2.results)
    (l3.program.trans k2.program)) fun v hv => ⟨hv.dev.sameRegisters [], hv.csn, sameCeAndCfg_of k2 l3 hv⟩

end Sys2Proof.Machine

open Sys2Proof Sys2Proof.Machine Sys2Proof.Safety

/-- Settles O42: each call is one frame, whose command byte reaches register `addr & 0x1F`, and its return. -/
theorem byteRegisterCallsMaskTheAddress : Obligations.ByteRegisterCallsMaskTheAddress := by
  refine ⟨fun s addr v p hc hcsn hready => ?_, fun s addr bs p hc hcsn hready h1 h2 => ?_, fun s addr r p hc hcsn hready hr => ?_,
    fun s addr n r p hc hcsn hready h1 h2 hr => ?_, fun s addr n op p hc hcsn hready hop hr => ?_,
    fun s e addr v bs op p hc hop hx he => ?_, fun s addr n r p hr h1 h2 => ⟨fun hc => ?_, fun hc hn1 hn2 => ?_⟩⟩
  · have hd : decode [[writeCmd s.par addr, v]].flatten = some (.wRegister (addr.setWidth 5) [v]) := decode_writeCmd hc.structural addr [v]
    refine ⟨fun e hx => returns_imp (returns_frame hc hcsn hready (fun u hu _ => startOp_writeRegister hu) hd hx) fun t ht => ?_,
      fun r hx => run_frameCall_refused hc hcsn hready (fun u hu _ => startOp_writeRegister hu) hd hx⟩
    rw [frameEvents_one (exec_resp_length hx), writeCmd_eq hc.structural] at ht
    exact ht
  · have hd : decode [[writeCmd s.par addr], bs].flatten = some (.wRegister (addr.setWidth 5) bs) := by
      simpa using decode_writeCmd hc.structural addr bs
    refine ⟨fun e hx => returns_imp (returns_frame hc hcsn hready (fun u hu _ => startOp_writeRegisterN hc.structural h1 h2 hu) hd hx)
      fun t ht => ?_, fun r hx => run_frameCall_refused hc hcsn hready (fun u hu _ => startOp_writeRegisterN hc.structural h1 h2 hu) hd hx⟩
    rw [frameEvents_two (o := bs) (exec_resp_length hx), writeCmd_eq hc.structural] at ht
    exact ht
  · exact returns_read hc hcsn hready (fun u hu _ => startOp_readRegister hu) hr fun l hl => by simp [returnValue, insByte, hl]
  · exact returns_read hc hcsn hready (fun u hu _ => startOp_readRegisterN hc.structural h1 h2 hu) hr fun l hl => by simp [returnValue, hl]
  · obtain rfl | ⟨rfl, h1, h2⟩ := hop
    · exact run_read_refused hc hcsn hready (fun u hu _ => startOp_readRegister hu) hr
    · exact run_read_refused hc hcsn hready (fun u hu _ => startOp_readRegisterN hc.structural h1 h2 hu) hr
  · obtain ⟨rfl, rfl⟩ | ⟨rfl, hb1, hb2⟩ := hop
    · exact returns_write_onAir (outs := [[writeCmd s.par addr, v]]) hc (fun u hu _ => startOp_writeRegister hu)
        (decode_writeCmd hc.structural addr [v]) hx he
    · exact returns_write_onAir (outs := [[writeCmd s.par addr], bs]) hc (fun u hu _ => startOp_writeRegisterN hc.structural hb1 hb2 hu)
        (by simpa using decode_writeCmd hc.structural addr bs) hx he
  · exact returns_read_onAir hc (fun u hu _ => startOp_readRegister hu) hr h1 h2 fun b l hl => by simp [returnValue, insByte, hl]
  · exact returns_read_onAir hc (fun u hu _ => startOp_readRegisterN hc.structural hn1 hn2 hu) hr h1 h2 fun b l hl => by
      simp [returnValue, hl]

end

section
/-! Proofs: the pipe manager's calls (43_pipe_manager.md). -/

namespace Sys2Proof.Machine

open Sys2Proof Sys2Proof.Safety

/-- Registers that a call's end device does not change read as before whatever the radio core did. -/
theorem sameRegistersOnAir_of {rs : List Reg} {c : Config} {d e x : Device} (h : OnAir e x) (hr : SameRegistersBut rs c d e)
    (hf : e.featuresActive = d.featuresActive) : SameRegistersOnAir rs c d x := by
  obtain ⟨h1, h2⟩ := h.sameRegisters (c := c) rs
  exact ⟨fun r hm => (h1 r hm).trans (hr r fun k => hm (List.mem_cons_of_mem _ (List.mem_cons_of_mem _ k))), h2.trans hf⟩

/-! ## openWritingPipe -/

/-- The device `openWritingPipe` leaves (R116). -/
def openWritingDev (d : Device) (a : Addr) (n : Nat) : Device :=
  { d with txAddr := a, rxAddrP0 := a, rxPwP0 := BitVec.ofNat 8 n, mosi := [], miso := [] }

/-- The frames of `openWritingPipe`. -/
def openWritingFrames (c : Config) (a : Addr) (n : Nat) : List (List (List Byte)) :=
  [[[writeCmd c 0x10#8], bytesOfAddr a], [[writeCmd c 0x0A#8], bytesOfAddr a], [[writeCmd c 0x11#8, BitVec.ofNat 8 n]]]

theorem startOp_openWritingPipe {c : Config} (hs : Structural c) {a n : Nat} (ha : a < 2 ^ 40) {u : State} (hu : u.par = c)
    (hn : u.payloadSize = some n) :
    startOp (.openWritingPipe a) u = runLines ((openWritingFrames c (BitVec.ofNat 40 a) n).map .frame ++ [.ret .done]) u := by
  subst hu
  refine (if_neg ?_).trans (withPayloadSize_some hn _)
  rw [Config.addrLimit_eq hs]
  omega

theorem framesTo_openWriting {c : Config} {hold : Device → Prop} (hs : Structural c) {d : Device} (a : Addr) {n : Nat} (hn : n ≤ 32)
    (hh : ∀ x : Device, x.feature = d.feature → x.dynpd = d.dynpd → x.featuresActive = d.featuresActive → hold x) :
    FramesTo c hold d (openWritingFrames c a n) (openWritingDev d a n) := by
  obtain ⟨hm, hi⟩ := payloadSize_legal hn
  refine framesTo_writeN hs (hh _ rfl rfl rfl) (regAt_of (r := .txAddr) hs rfl) (commitDev_addr hs a (regAt_of hs rfl) rfl) ?_
  refine framesTo_writeN hs (hh _ rfl rfl rfl) (regAt_of (r := .rxAddrP0) hs rfl) (commitDev_addr hs a (regAt_of hs rfl) rfl) ?_
  refine framesTo_write1 hs (hh _ rfl rfl rfl) (regAt_of (r := .rxPwP0) hs rfl) (commitDev_byte hs (regAt_of hs rfl) rfl rfl rfl hm hi) ?_
  simp only [writeSideEffects, regStore, addrOfBytes_bytesOfAddr]
  rfl

theorem returns_openWritingPipe {s : State} {ok : Config → Move → Prop} {hold : Device → Prop} {A : Device → Device → Prop}
    (hA : Environs s.par ok hold A) {a n : Nat} {p : List HostOp} (hc : CallsUnder ok s (.openWritingPipe a) p) (hcsn : s.csn = true)
    (hready : Ready s) (hd : hold s.dev) (ha : a < 2 ^ 40) (hn : s.payloadSize = some n) (hn2 : n ≤ 32) :
    Returns s p (.ok .done) fun t => A (openWritingDev s.dev (BitVec.ofNat 40 a) n) t.dev ∧ t.csn = true ∧ SameCeAndCfg s t :=
  returns_frames hA hc hcsn hready (fun _ hu hz => startOp_openWritingPipe hc.structural ha hu (hz.trans hn)) hd
    (framesTo_openWriting hc.structural _ hn2 fun _ h1 h2 h3 => hA.hold_congr h1 h2 h3 hd) (hA.hold_congr (d := s.dev) rfl rfl rfl hd)

/-! ## openReadingPipe -/

/-- The address register of a pipe. -/
def pipeAddrReg : Nat → Reg
  | 0 => .rxAddrP0
  | 1 => .rxAddrP1
  | 2 => .rxAddrP2
  | 3 => .rxAddrP3
  | 4 => .rxAddrP4
  | _ => .rxAddrP5

/-- The width register of a pipe. -/
def pipeWidthReg : Nat → Reg
  | 0 => .rxPwP0
  | 1 => .rxPwP1
  | 2 => .rxPwP2
  | 3 => .rxPwP3
  | 4 => .rxPwP4
  | _ => .rxPwP5

theorem pipeRegs_eq {i : Nat} (hi : i ≤ 5) : pipeRegs i = [pipeAddrReg i, pipeWidthReg i] := by
  interval_cases i <;> rfl

theorem regAt_pipeAddr {c : Config} (hs : Structural c) {i : Nat} (hi : i ≤ 5) :
    c.regAt ((0x0A#8 + BitVec.ofNat 8 i).setWidth 5) = some (pipeAddrReg i) := by
  interval_cases i <;> exact regAt_of hs rfl

theorem regAt_pipeWidth {c : Config} (hs : Structural c) {i : Nat} (hi : i ≤ 5) :
    c.regAt ((0x11#8 + BitVec.ofNat 8 i).setWidth 5) = some (pipeWidthReg i) := by
  interval_cases i <;> exact regAt_of hs rfl

/-- The bytes of the address that a pipe stores: all 5 for pipes 0 and 1, the low one for pipes 2 to 5 (R117). -/
def pipeAddrBytes (i : Nat) (a : Addr) : List Byte := if i ≤ 1 then bytesOfAddr a else [a.setWidth 8]

/-- The exchange calls of the address frame. -/
def pipeAddrOuts (c : Config) (i : Nat) (a : Addr) : List (List Byte) :=
  if i ≤ 1 then [[writeCmd c (0x0A#8 + BitVec.ofNat 8 i)], bytesOfAddr a] else [[writeCmd c (0x0A#8 + BitVec.ofNat 8 i), a.setWidth 8]]

theorem pipeAddressFrame_eq (c : Config) (i : Nat) (a : Addr) : pipeAddressFrame c i a = .frame (pipeAddrOuts c i a) := by
  unfold pipeAddressFrame pipeAddrOuts
  split <;> rfl

/-- The device after the address and the width are written. -/
def pipeProgrammed (d : Device) (i : Nat) (a : Addr) (n : Nat) : Device :=
  { regStore (regStore d (pipeAddrReg i) (pipeAddrBytes i a)) (pipeWidthReg i) [BitVec.ofNat 8 n] with mosi := [], miso := [] }

/-- The device `openReadingPipe` leaves. -/
def openReadingDev (d : Device) (i : Nat) (a : Addr) (n : Nat) : Device :=
  { pipeProgrammed d i a n with enRxaddr := d.enRxaddr ||| (1#8 <<< i) }

theorem commitDev_pipeAddr {c : Config} (hs : Structural c) (d : Device) {i : Nat} (hi : i ≤ 5) (a : Addr) :
    ∃ b bs, pipeAddrBytes i a = b :: bs ∧ (pipeAddrOuts c i a).flatten = writeCmd c (0x0A#8 + BitVec.ofNat 8 i) :: b :: bs
      ∧ commitDev c d (.wRegister ((0x0A#8 + BitVec.ofNat 8 i).setWidth 5) (b :: bs)) =
        some (regStore d (pipeAddrReg i) (b :: bs)) := by
  have hr := regAt_pipeAddr hs hi
  by_cases h1 : i ≤ 1
  · refine ⟨_, _, if_pos h1, by simp [pipeAddrOuts, h1, bytesOfAddr], commitDev_addr hs a hr ?_⟩
    interval_cases i <;> rfl
  · refine ⟨_, _, if_neg h1, by simp [pipeAddrOuts, h1], ?_⟩
    interval_cases i <;> first | omega | exact commitDev_byte hs hr rfl rfl rfl BitVec.and_zero rfl

theorem commitDev_pipeWidth {c : Config} (hs : Structural c) (d : Device) {i n : Nat} (hi : i ≤ 5) (hn : n ≤ 32) :
    commitDev c d (.wRegister ((0x11#8 + BitVec.ofNat 8 i).setWidth 5) [BitVec.ofNat 8 n]) =
      some (regStore d (pipeWidthReg i) [BitVec.ofNat 8 n]) := by
  obtain ⟨hm, hill⟩ := payloadSize_legal hn
  have hr := regAt_pipeWidth hs hi
  interval_cases i <;> exact commitDev_byte hs hr rfl rfl rfl hm hill

theorem regStore_feature {d : Device} {r : Reg} (hr : r.isFeatureReg = false) (v : List Byte) :
    (regStore d r v).feature = d.feature ∧ (regStore d r v).dynpd = d.dynpd := by
  cases r <;> first | exact ⟨rfl, rfl⟩ | cases hr

/-- The address and width frames of `openReadingPipe`. -/
theorem framesTo_openReading {c : Config} {hold : Device → Prop} (hs : Structural c) {d : Device} {i n : Nat} (a : Addr) (hi : i ≤ 5)
    (hn : n ≤ 32) (hh : ∀ x : Device, x.feature = d.feature → x.dynpd = d.dynpd → x.featuresActive = d.featuresActive → hold x) :
    FramesTo c hold d [pipeAddrOuts c i a, [[writeCmd c (0x11#8 + BitVec.ofNat 8 i), BitVec.ofNat 8 n]]] (pipeProgrammed d i a n) := by
  obtain ⟨b, bs, hb, hout, hcommit⟩ := commitDev_pipeAddr hs d hi a
  have hf : (pipeAddrReg i).isFeatureReg = false := by interval_cases i <;> rfl
  obtain ⟨h1, h2⟩ := regStore_feature (d := d) hf (b :: bs)
  refine framesTo_cons (i := .wRegister _ (b :: bs)) (hh d rfl rfl rfl) (by rw [hout]; exact decode_writeCmd hs _ _) (addressRefusal_of_some (regAt_pipeAddr hs hi)) hcommit ?_
  refine framesTo_write1 hs (hh _ h1 h2 (regStore_featuresActive ..)) (regAt_pipeWidth hs hi) (commitDev_pipeWidth hs _ hi hn) ?_
  rw [pipeProgrammed, hb]
  show { regStore { regStore d _ _ with mosi := [], miso := [] } _ _ with mosi := [], miso := [] } = _
  interval_cases i <;> rfl

theorem startOp_openReadingPipe {c : Config} (hs : Structural c) {i a n : Nat} (hi : i ≤ 5) (ha : a < 2 ^ 40) {u : State} (hu : u.par = c)
    (hn : u.payloadSize = some n) :
    startOp (.openReadingPipe i a) u = runLines (openReadingLines c i (BitVec.ofNat 40 a) n) u := by
  subst hu
  refine (if_neg (by rw [hs.numPipes]; omega)).trans ((if_neg ?_).trans (withPayloadSize_some hn _))
  rw [Config.addrLimit_eq hs]
  omega

/-- The cache line of `openReadingPipe`, which pipe 0 alone has. -/
theorem run_cachePipe0 {c : Config} {P : Nat → List Move → Prop} {D : Device → Prop} {j T i : Nat} {a : Addr} {code : List Action} {s : State}
    (hP : Schedules c P) (hE : Keeps P c true D) (h : ∀ j, Stage c P j T D ((if i = 0 then [.cachePipe0 a] else []) ++ code) s) :
    ∃ k t, run k s = .next t ∧ Stage c P j T D code t ∧ Kept { s with pipe0Cache := if i = 0 then some a else s.pipe0Cache } t := by
  by_cases hi : i = 0
  · simp only [if_pos hi] at h ⊢
    obtain ⟨k, v, w, idle, k1, k2, k3, k4, rfl, k5, k6, -⟩ := run_line_next hP hE (h (j + 1)) (Q := fun v w => w = cachePipe0Step a v)
      fun v dr _ _ _ => ⟨_, rfl, rfl, le_rfl, rfl⟩
    have hclk := (h 0).clock
    refine ⟨k, _, k1, ⟨k2.par.trans (h 0).par, k2.csn.trans (h 0).csn, k4, ?_, k3, k2.code⟩,
      ⟨k2.ce, k2.payloadSize, rfl, k2.program, k2.op, k2.results, by rw [← k2.loc]; rfl, ?_, by rw [← k2.trace]; exact List.prefix_rfl, k6⟩⟩
    · exact hclk.trans (k5.trans (Nat.le_add_right _ _))
    · exact k5.trans (Nat.le_add_right _ _)
  · simp only [if_neg hi] at h ⊢
    exact ⟨0, s, rfl, h j, Kept.refl s⟩

/-- EN_RXADDR with one more pipe's bit has no Reserved bit. -/
theorem enRxaddr_legal {v : Byte} {i : Nat} (hi : i ≤ 5) (h : v &&& 0xC0#8 = 0#8) :
    ((v ||| 1#8 <<< i) &&& ~~~0x00#8) &&& 0xC0#8 = 0#8 := by
  have hb : ∀ (j : Fin 6) (v : Byte), v &&& 0xC0#8 = 0#8 → ((v ||| 1#8 <<< j.val) &&& ~~~0x00#8) &&& 0xC0#8 = 0#8 := by decide
  exact hb ⟨i, by omega⟩ v h

theorem pipeProgrammed_features (d : Device) (i : Nat) (a : Addr) (n : Nat) (hi : i ≤ 5) :
    (pipeProgrammed d i a n).feature = d.feature ∧ (pipeProgrammed d i a n).dynpd = d.dynpd
      ∧ (pipeProgrammed d i a n).featuresActive = d.featuresActive ∧ (pipeProgrammed d i a n).enRxaddr = d.enRxaddr := by
  interval_cases i <;> exact ⟨rfl, rfl, rfl, rfl⟩

theorem pipeProgrammed_closed (d : Device) (i : Nat) (a : Addr) (n : Nat) :
    { pipeProgrammed d i a n with mosi := [], miso := [] } = pipeProgrammed d i a n := rfl

theorem openReadingDev_closed (d : Device) (i : Nat) (a : Addr) (n : Nat) :
    { regStore (pipeProgrammed d i a n) .enRxaddr [(d.enRxaddr ||| 1#8 <<< i) &&& ~~~0x00#8] with mosi := [], miso := [] } =
      openReadingDev d i a n := by
  have hv : (d.enRxaddr ||| 1#8 <<< i) &&& ~~~0x00#8 = d.enRxaddr ||| 1#8 <<< i := BitVec.and_allOnes
  rw [hv]
  rfl

theorem returns_openReadingPipe {s : State} {ok : Config → Move → Prop} {hold : Device → Prop} {A : Device → Device → Prop}
    (hA : Environs s.par ok hold A) {i a n : Nat} {p : List HostOp} (hc : CallsUnder ok s (.openReadingPipe i a) p) (hcsn : s.csn = true)
    (hready : Ready s) (hd : hold s.dev) (hi : i ≤ 5) (ha : a < 2 ^ 40) (hn : s.payloadSize = some n) (hn2 : n ≤ 32)
    (hen : s.dev.enRxaddr &&& 0xC0#8 = 0#8) :
    Returns s p (.ok .done) fun t => A (openReadingDev s.dev i (BitVec.ofNat 40 a) n) t.dev
      ∧ t.pipe0Cache = (if i = 0 then some (BitVec.ofNat 40 a) else s.pipe0Cache) ∧ t.csn = true ∧ t.ce = s.ce
      ∧ t.payloadSize = s.payloadSize := by
  have hs := hc.structural
  have hsame : ∀ x : Device, x.feature = s.dev.feature → x.dynpd = s.dev.dynpd → x.featuresActive = s.dev.featuresActive → hold x :=
    fun _ h1 h2 h3 => hA.hold_congr h1 h2 h3 hd
  obtain ⟨f1, f2, f3, f4⟩ := pipeProgrammed_features s.dev i (BitVec.ofNat 40 a) n hi
  obtain ⟨k1, t1, r1, h1, st1⟩ := run_call_stage hA.schedules (hA.keeps _ hd) hc hcsn (hA.refl _)
    fun _ hu hz => startOp_openReadingPipe hs hi ha hu (hz.trans hn)
  simp only [openReadingLines, pipeAddressFrame_eq] at st1
  obtain ⟨k2, t2, r2, st2, h2⟩ := run_cachePipe0 (j := 6) hA.schedules (hA.keeps _ hd) st1
  obtain ⟨k3, t3, r3, st3, h3⟩ := run_framesIn (j := 4) hA hready
    [pipeAddrOuts s.par i (BitVec.ofNat 40 a), [[writeCmd s.par (0x11#8 + BitVec.ofNat 8 i), BitVec.ofNat 8 n]]] st2
    (framesTo_openReading hs _ hi hn2 hsame)
  have hkeep := hA.keeps _ (hsame _ f1 f2 f3)
  have hread : ∀ x, A (pipeProgrammed s.dev i (BitVec.ofNat 40 a) n) x → regReadable s.par x .enRxaddr = [s.dev.enRxaddr] := fun x hx => by
    rw [hA.readable _ x .enRxaddr hx (by decide) (by decide)]
    exact congrArg (fun b => [b]) f4
  obtain ⟨k4, t4, r4, st4, h4⟩ := run_rmw (j := 1) (r := .enRxaddr) (v := s.dev.enRxaddr)
    (D₁ := A (pipeProgrammed s.dev i (BitVec.ofNat 40 a) n)) (D₂ := A (openReadingDev s.dev i (BitVec.ofNat 40 a) n)) hA.schedules hkeep hkeep hs st3 hready (regAt_of hs rfl)
    (fun x hx => ⟨hread x hx, by have := hA.closed hx; rwa [pipeProgrammed_closed] at this⟩) fun x hx => by
      obtain ⟨y, hy, hay⟩ := hA.commit _ x _ _ hx (commitDev_byte (a := 0x02#5) hs (regAt_of (r := .enRxaddr) hs rfl) rfl rfl rfl
        (enRxaddr_legal hi hen) rfl)
      rw [writeSideEffects_of_ne (by decide), openReadingDev_closed] at hay
      exact ⟨y, hy, hay⟩
  have hend : hold (openReadingDev s.dev i (BitVec.ofNat 40 a) n) := hsame _ f1 f2 f3
  have hkept : Kept { t1 with pipe0Cache := if i = 0 then some (BitVec.ofNat 40 a) else t1.pipe0Cache } t4 := h2.trans (h3.trans h4)
  refine returns_imp (returns_of_stage (j := 0) (r := .done) hA.schedules (hA.keeps _ hend)
    (run_trans r1 (run_trans r2 (run_trans r3 r4))) st4 (hkept.results.trans h1.results) (hkept.program.trans h1.program)) fun v hv =>
    ⟨hv.dev, ?_, hv.csn, hv.ce.trans (hkept.ce.trans h1.ce), hv.payloadSize.trans (hkept.payloadSize.trans h1.payloadSize)⟩
  rw [hv.pipe0Cache, hkept.pipe0Cache, h1.pipe0Cache]

/-! ## What a programmed pipe reads -/

section
variable {d x : Device} {i a n : Nat} (hi : i ≤ 5) (h : OnAir (openReadingDev d i (BitVec.ofNat 40 a) n) x)
include hi h

theorem effAddr_openReading (h1 : i ≤ 1) : effAddr x i = BitVec.ofNat 40 a := by
  rw [h]
  interval_cases i <;> exact addrOfBytes_bytesOfAddr _

theorem effAddr_openReading_low (h2 : 2 ≤ i) : (effAddr x i).setWidth 8 = BitVec.ofNat 8 a := by
  have hlow : (BitVec.ofNat 40 a).setWidth 8 = BitVec.ofNat 8 a := by simp
  rw [h]
  interval_cases i <;> exact (addrOfBytes_cons_low _ _).trans hlow

theorem rxWidth_openReading (hn : n ≤ 32) : rxWidth x i = n := by
  have hv : (BitVec.ofNat 8 n).toNat = n := by rw [BitVec.toNat_ofNat]; omega
  rw [h]
  interval_cases i <;> exact hv

omit hi in
theorem enRxaddr_openReading : x.enRxaddr = d.enRxaddr ||| (1#8 <<< i) := by rw [h]; rfl

end

theorem sameRegistersBut_openReading (c : Config) (d : Device) {i : Nat} (a : Addr) (n : Nat) (hi : i ≤ 5) :
    SameRegistersBut (.enRxaddr :: pipeRegs i) c d (openReadingDev d i a n) := by
  rw [pipeRegs_eq hi]
  intro r hr
  simp only [List.mem_cons, List.not_mem_nil, or_false, not_or] at hr
  obtain ⟨h1, h2, h3⟩ := hr
  show regReadable c (regStore (pipeProgrammed d i a n) .enRxaddr [_]) r = _
  rw [regReadable_regStore_ne _ _ _ h1, pipeProgrammed, regReadable_closed, regReadable_regStore_ne _ _ _ h3,
    regReadable_regStore_ne _ _ _ h2]

theorem openReading_rest (d : Device) (i : Nat) (a : Addr) (n : Nat) :
    SameFlagsAndFifos d (openReadingDev d i a n) ∧ (openReadingDev d i a n).txActive = d.txActive := by
  simp [SameFlagsAndFifos, openReadingDev, pipeProgrammed]

end Sys2Proof.Machine

open Sys2Proof Sys2Proof.Machine Sys2Proof.Safety

/-- Settles O43: three legal writes, in either family of schedules. -/
theorem openWritingPipeSetsBothAddresses : Obligations.OpenWritingPipeSetsBothAddresses := by
  refine ⟨fun s a n p hc ha hn _ hn2 hcsn hready => ?_, fun s a n p hc ha hn _ hn2 => ?_⟩
  · exact returns_imp (returns_openWritingPipe (environs_quiet _) hc hcsn hready trivial ha hn hn2) fun t ⟨h1, h2, h3⟩ => ⟨h1, h3, h2⟩
  · refine returns_imp (returns_openWritingPipe (environs_onAir _) hc.toCallsUnder hc.csn hc.ready hc.staticPayload ha hn hn2)
      fun t ⟨h1, h2, h3⟩ => ⟨by rw [h1]; rfl, by rw [h1]; rfl, by rw [h1]; rfl, sameRegistersOnAir_of h1 ?_ rfl, h3, h2⟩
    intro r hr
    cases r <;> first | rfl | exact absurd (by decide) hr

/-- Settles O44: the cache line, two legal writes, and the read-modify-write of EN_RXADDR, in either family of schedules. -/
theorem openReadingPipeProgramsThePipe : Obligations.OpenReadingPipeProgramsThePipe := by
  refine ⟨fun s i a n p hc hi ha hn _ hn2 hcsn hready hen => ?_, fun s i a n p hc hi ha hn _ hn2 hen => ?_⟩
  · refine returns_imp (returns_openReadingPipe (environs_quiet _) hc hcsn hready trivial hi ha hn hn2 hen) fun t ⟨h1, h2, h3, h4, h5⟩ => ?_
    have hair : OnAir (openReadingDev s.dev i (BitVec.ofNat 40 a) n) t.dev := h1 ▸ OnAir.refl _
    obtain ⟨hflags, hta⟩ := openReading_rest s.dev i (BitVec.ofNat 40 a) n
    refine ⟨h2, effAddr_openReading hi hair, effAddr_openReading_low hi hair, rxWidth_openReading hi hair hn2,
      enRxaddr_openReading hair, ?_, ?_, ?_, h3, h4, h5⟩ <;> rw [h1]
    · exact sameRegistersBut_openReading _ _ _ _ hi
    · exact hflags
    · exact hta
  · refine returns_imp (returns_openReadingPipe (environs_onAir _) hc.toCallsUnder hc.csn hc.ready hc.staticPayload hi ha hn hn2 hen)
      fun t ⟨h1, h2, h3, h4, h5⟩ => ⟨h2, effAddr_openReading hi h1, effAddr_openReading_low hi h1, rxWidth_openReading hi h1 hn2,
        enRxaddr_openReading h1, sameRegistersOnAir_of h1 (sameRegistersBut_openReading _ _ _ _ hi)
          (pipeProgrammed_features _ _ _ _ hi).2.2.1, h3, h4, h5⟩

end

section
/-! Proofs: `startListening` and `stopListening` (44_transfer_engine.md R124 and R127). -/

namespace Sys2Proof.Machine

open Sys2Proof Sys2Proof.Safety

/-- An allowed schedule has as many moves of the controller to go as one likes, the default ones counted. -/
theorem Stage.anyCount {c : Config} {ok : Config → Move → Prop} {j T : Nat} {D : Device → Prop} {code : List Action} {s : State}
    (h : Stage c (Allowed ok c) j T D code s) (j' : Nat) : Stage c (Allowed ok c) j' T D code s :=
  ⟨h.par, h.csn, h.sched, h.clock, h.dev, h.code⟩

theorem Kept.setCE {s t : State} (h : Kept s t) (b : Bool) : Kept { s with ce := b } { t with ce := b } :=
  ⟨rfl, h.payloadSize, h.pipe0Cache, h.program, h.op, h.results, h.locals, h.clock, h.trace, h.toGo⟩

/-! ## The flush of both FIFOs -/

/-- What the device can be after both FIFOs are flushed: `B d` from `d`. Nothing is left to send. -/
structure Flushes (c : Config) (ok : Config → Move → Prop) (hold : Device → Prop) (A B : Device → Device → Prop) : Prop where
  keeps : ∀ d, hold d → Keeps (Allowed ok c) c true (B d)
  idle : ∀ d x, B d x → OnAirIdle d x
  flush : ∀ {d : Device} {j T : Nat} {code : List Action} {s : State}, hold d → c.porMs ≤ T →
    Stage c (Allowed ok c) (j + 2) T (A d) (flushBoth ++ code) s →
    ∃ k t, run k s = .next t ∧ Stage c (Allowed ok c) j T (B d) code t ∧ Kept s t

/-- The device after both flushes with a silent air. -/
def flushedDev (d : Device) : Device := { d with txq := [], rxq := [], txActive := false, mosi := [], miso := [] }

theorem flushes_quiet (c : Config) : Flushes c QuietMove (fun _ => True) (fun d x => x = d) fun d x => x = flushedDev d where
  keeps _ _ := keeps_quiet c _ _
  idle d x h := by rw [h]; exact ⟨rfl, rfl, rfl⟩
  flush _ hT h := run_framesIn (environs_quiet c) hT [[[0xE1#8]], [[0xE2#8]]] h
    (framesTo_flushTx trivial (framesTo_flushRx trivial rfl))

theorem flushes_onAir (c : Config) :
    Flushes c FailureFreeMove (fun d => dynamicPayloadOn c d = false) OnAir OnAirIdle where
  keeps _ h := keeps_failureFree (radiatesAll_onAirIdle h)
  idle _ _ := id
  flush hd hT h := run_flushBoth_onAir hd h hT

section
variable {s : State} {ok : Config → Move → Prop} {hold : Device → Prop} {A B : Device → Device → Prop}
  (hA : Environs s.par ok hold A) (hB : Flushes s.par ok hold A B)
include hA

/-- The restore of RX_ADDR_P0 from the cache (R124). -/
theorem run_restorePipe0 {j T : Nat} {d : Device} {code : List Action} {t : State} (hs : Structural s.par) (hT : s.par.porMs ≤ T)
    (hd : hold d) (h : ∀ j, Stage s.par (Allowed ok s.par) j T (A { d with mosi := [], miso := [] }) (.restorePipe0 :: code) t) :
    ∃ k u, run k t = .next u ∧ Kept t u
      ∧ Stage s.par (Allowed ok s.par) j T (A { d with rxAddrP0 := t.pipe0Cache.getD d.rxAddrP0, mosi := [], miso := [] }) code u := by
  have hd' : hold { d with mosi := [], miso := [] } := hA.hold_congr (d := d) rfl rfl rfl hd
  cases hc : t.pipe0Cache with
  | none =>
    obtain ⟨k, u, h1, h2, h3, -⟩ := run_push (as := []) hA.schedules (hA.keeps _ hd') (h (j + 1)) fun v dr hv => by
      have : v.pipe0Cache = none := hv.pipe0Cache.trans hc
      simp only [runAction, restorePipe0Step, this]
      rfl
    exact ⟨k, u, h1, h3, h2⟩
  | some a =>
    obtain ⟨k, u, h1, h2, h3, -⟩ := run_push (as := [writeRegN s.par 0x0A#8 (bytesOfAddr a)]) hA.schedules (hA.keeps _ hd') (h (j + 2))
      fun v dr hv => by
        have : v.pipe0Cache = some a := hv.pipe0Cache.trans hc
        simp only [runAction, restorePipe0Step, this, hv.par, (h 0).par]
    obtain ⟨k', v, l1, l2, l3⟩ := run_framesIn (j := j) (e := { d with rxAddrP0 := a, mosi := [], miso := [] }) hA hT
      [[[writeCmd s.par 0x0A#8], bytesOfAddr a]] h2
      (framesTo_writeN hs hd' (regAt_of (r := .rxAddrP0) hs rfl) (commitDev_addr hs a (regAt_of hs rfl) rfl)
        (by rw [regStore, addrOfBytes_bytesOfAddr]; rfl))
    exact ⟨k + k', v, run_trans h1 l1, h3.trans l3, l2⟩

/-- The device `startListening` has before it flushes, but for `tx_active`. -/
def listeningDev (d : Device) (cache : Option Addr) (ta : Bool) : Device :=
  { d with config := d.config ||| 0x03#8, txActive := ta, rxAddrP0 := cache.getD d.rxAddrP0, mosi := [], miso := [] }

/-- `startListening` up to its flush: PRX mode, the optional wait, and the restore. -/
theorem run_listeningMode {T : Nat} {code : List Action} {t : State} (hs : Structural s.par) (hT : s.par.porMs ≤ T)
    (hd : hold s.dev) (hv : s.dev.config.getLsbD 7 = false)
    (h : ∀ j, Stage s.par (Allowed ok s.par) j T (A s.dev)
      (readReg1 s.par 0x00#8 :: .rmw 0x00#8 0x03#8 0x00#8 :: (powerUpWait s.par ++ .restorePipe0 :: code)) t) :
    ∃ ta k u, run k t = .next u ∧ Kept t u
      ∧ ∀ j, Stage s.par (Allowed ok s.par) j T (A (listeningDev s.dev t.pipe0Cache ta)) code u := by
  have hP := hA.schedules
  have hvalue : (s.dev.config ||| 0x03#8) &&& ~~~0x00#8 = s.dev.config ||| 0x03#8 := BitVec.and_allOnes
  have hd0 : hold { s.dev with mosi := [], miso := [] } := hA.hold_congr (d := s.dev) rfl rfl rfl hd
  obtain ⟨ta, hw, -⟩ := writeSideEffects_config s.par { s.dev with mosi := [], miso := [] } (s.dev.config ||| 0x03#8)
  have hcommit := commitDev_byte (d := { s.dev with mosi := [], miso := [] }) (v := s.dev.config ||| 0x03#8) hs
    (regAt_of (a := 0x00#5) (r := .config) hs rfl) rfl rfl rfl (hvalue ▸ config_rmw_legal hv rfl 0x00#8) rfl
  rw [hw] at hcommit
  obtain ⟨k2, t2, r2, st2, h2⟩ := run_rmw (j := 2 * (powerUpWait s.par).length) (r := .config) (v := s.dev.config)
    (D₁ := A { s.dev with mosi := [], miso := [] })
    (D₂ := A { s.dev with config := s.dev.config ||| 0x03#8, txActive := ta, mosi := [], miso := [] })
    hP (hA.keeps _ hd) (hA.keeps _ hd0) hs (h _) hT (regAt_of hs rfl)
    (fun x hx => ⟨by rw [hA.readable _ x .config hx (by decide) (by decide)]; rfl, hA.closed hx⟩)
    fun x hx => by rw [hvalue]; exact hA.commit _ x _ _ hx hcommit
  have hd2 : hold { s.dev with config := s.dev.config ||| 0x03#8, txActive := ta, mosi := [], miso := [] } :=
    hA.hold_congr (d := s.dev) rfl rfl rfl hd
  obtain ⟨k3, t3, r3, st3, h3, -⟩ := run_powerUpWait (j := 0) hP (hA.keeps _ hd2) (by rw [Nat.zero_add]; exact st2)
  have hcache : t3.pipe0Cache = t.pipe0Cache := h3.pipe0Cache.trans h2.pipe0Cache
  obtain ⟨k4, t4, r4, h4, st4⟩ := run_restorePipe0 (j := 0) hA hs hT hd2 st3.anyCount
  rw [hcache] at st4
  exact ⟨ta, _, t4, run_trans r2 (run_trans r3 r4), h2.trans (h3.trans h4), st4.anyCount⟩

include hB

/-- `stopListening`, from the call to the result. -/
theorem returns_stopListening {p : List HostOp} (hc : CallsUnder ok s .stopListening p) (hcsn : s.csn = true) (hready : Ready s)
    (hd : hold s.dev) :
    Returns s p (.ok .done) fun t => B s.dev t.dev ∧ t.par = s.par ∧ t.ce = false ∧ t.csn = true ∧ t.payloadSize = s.payloadSize
      ∧ t.pipe0Cache = s.pipe0Cache := by
  have hP := hA.schedules
  obtain ⟨k1, t1, r1, h1, st1⟩ := run_call_stage hP (hA.keeps _ hd) hc hcsn (hA.refl _)
    fun u _ _ => (rfl : startOp .stopListening u = runLines (.setCE false :: (flushBoth ++ [.ret .done])) u)
  obtain ⟨k2, t2, r2, st2, -, h2, -⟩ := run_setCE (j := 3) hP (hA.keeps _ hd) (st1 4)
  obtain ⟨k3, t3, r3, st3, h3⟩ := hB.flush (j := 1) hd hready st2
  have hk : Kept { t1 with ce := false } t3 := h2.trans h3
  exact returns_imp (returns_of_stage (j := 0) (r := .done) hP (hB.keeps _ hd) (run_trans r1 (run_trans r2 r3)) st3
    (hk.results.trans h1.results) (hk.program.trans h1.program)) fun v hv =>
    ⟨hv.dev, hv.par, hv.ce.trans hk.ce, hv.csn, hv.payloadSize.trans (hk.payloadSize.trans h1.payloadSize),
      hv.pipe0Cache.trans (hk.pipe0Cache.trans h1.pipe0Cache)⟩

/-- `startListening`, from the call to the result. -/
theorem returns_startListening {p : List HostOp} (hc : CallsUnder ok s .startListening p) (hcsn : s.csn = true) (hready : Ready s)
    (hd : hold s.dev) (hv : s.dev.config.getLsbD 7 = false) :
    ∃ ta, Returns s p (.ok .done) fun t => B (listeningDev s.dev s.pipe0Cache ta) t.dev ∧ t.par = s.par ∧ t.pipe0Cache = s.pipe0Cache
      ∧ t.payloadSize = s.payloadSize ∧ t.ce = true ∧ t.csn = true ∧ s.clock + s.par.listenSettleMs ≤ t.clock := by
  have hP := hA.schedules
  obtain ⟨k1, t1, r1, h1, st1⟩ := run_call_stage hP (hA.keeps _ hd) hc hcsn (hA.refl _)
    fun u hu _ => (by rw [← hu]; simp [startOp, opStartListening, setModePrx] : startOp .startListening u =
      runLines (readReg1 s.par 0x00#8 :: .rmw 0x00#8 0x03#8 0x00#8 :: (powerUpWait s.par ++ (.restorePipe0 :: (flushBoth ++
        [.setCE true, .waitMs s.par.listenSettleMs, .ret .done])))) u)
  obtain ⟨ta, k2, t2, r2, h2, st2⟩ := run_listeningMode hA hc.structural hready hd hv st1
  rw [h1.pipe0Cache] at st2
  have hd2 : hold (listeningDev s.dev s.pipe0Cache ta) := hA.hold_congr (d := s.dev) rfl rfl rfl hd
  have hkeep := hB.keeps _ hd2
  obtain ⟨k3, t3, r3, st3, h3⟩ := hB.flush (j := 4) hd2 hready (st2 _)
  obtain ⟨k4, t4, r4, st4, -, h4, -⟩ := run_setCE hP hkeep st3
  obtain ⟨k5, t5, r5, st5, h5, -⟩ := run_wait (j := 1) hP hkeep st4
  have hk : Kept { t1 with ce := true } t5 := ((h2.trans h3).setCE true).trans (h4.trans h5)
  exact ⟨ta, returns_imp (returns_of_stage (j := 0) (r := .done) hP hkeep
    (run_trans r1 (run_trans r2 (run_trans r3 (run_trans r4 r5)))) st5
    (hk.results.trans h1.results) (hk.program.trans h1.program)) fun v hv =>
    ⟨hv.dev, hv.par, hv.pipe0Cache.trans (hk.pipe0Cache.trans h1.pipe0Cache), hv.payloadSize.trans (hk.payloadSize.trans h1.payloadSize),
      hv.ce.trans hk.ce, hv.csn, hv.clock⟩⟩

end

end Sys2Proof.Machine

open Sys2Proof Sys2Proof.Machine Sys2Proof.Safety

/-- Settles O45: the end device is on air, with nothing to send, from the one with CONFIG and RX_ADDR_P0 written; `tx_active` does not
survive the flush. -/
theorem startListeningRestoresPipeZero : Obligations.StartListeningRestoresPipeZero := by
  have mode : ∀ {s t : State} {ta : Bool}, Structural s.par → t.par = s.par → t.ce = true →
      OnAirIdle (listeningDev s.dev s.pipe0Cache ta) t.dev → xcvrState t = .listening := fun {s t _} hs hp hce h => by
    have hcfg : t.dev.config = s.dev.config ||| 0x03#8 := h.1.config
    rw [xcvrState_listening_iff (hp ▸ hs), hcfg]
    exact ⟨by simp, by simp, hce⟩
  refine ⟨fun s p hc hcsn hready hv => ?_, fun s p hc hv => ?_⟩
  · obtain ⟨ta, h⟩ := returns_startListening (environs_quiet _) (flushes_quiet _) hc hcsn hready trivial hv
    exact returns_imp h fun t ⟨h1, h2, h3, h4, h5, h6, h7⟩ =>
      ⟨h1, h3, h4, h5, h6, mode hc.structural h2 h5 ((flushes_quiet s.par).idle _ _ h1), h7⟩
  · obtain ⟨ta, h⟩ := returns_startListening (environs_onAir _) (flushes_onAir _) hc.toCallsUnder hc.csn hc.ready hc.staticPayload hv
    refine returns_imp h fun t ⟨h1, h2, h3, h4, h5, h6, h7⟩ =>
      ⟨h1.1.config, by rw [h1.1]; rfl, sameRegistersOnAir_of h1.1 ?_ rfl, h1.2.1, h1.2.2, h3, h4, h5, h6, mode hc.structural h2 h5 h1, h7⟩
    intro r hr
    cases r <;> first | rfl | exact absurd (by decide) hr

/-- Settles O46: the end device is on air from the one at the call, with nothing to send. -/
theorem stopListeningLowersCeAndFlushes : Obligations.StopListeningLowersCeAndFlushes := by
  have mode : ∀ {s t : State}, Structural s.par → t.par = s.par → t.ce = false → OnAirIdle s.dev t.dev →
      s.dev.config.getLsbD 1 = true → s.dev.config.getLsbD 0 = true → xcvrState t = .standbyConfiguring :=
    fun {s t} hs hp hce h h1 h0 => by
      rw [xcvrState_eq (hp ▸ hs), h.1.config, h1, h0, hce, h.2.2]
      rfl
  refine ⟨fun s p hc hcsn hready => ?_, fun s p hc => ?_⟩
  · exact returns_imp (returns_stopListening (environs_quiet _) (flushes_quiet _) hc hcsn hready trivial)
      fun t ⟨h1, h2, h3, h4, h5, h6⟩ => ⟨h3, h4, h5, h6, h1, mode hc.structural h2 h3 ((flushes_quiet s.par).idle _ _ h1)⟩
  · exact returns_imp (returns_stopListening (environs_onAir _) (flushes_onAir _) hc.toCallsUnder hc.csn hc.ready hc.staticPayload)
      fun t ⟨h1, h2, h3, h4, h5, h6⟩ => ⟨h3, h4, h5, h6, h1.1.sameRegisters [], h1.2.1, h1.2.2, mode hc.structural h2 h3 h1⟩

end

section
/-! Proofs: `available`, `readPayload` and `dumpRegisters` (44_transfer_engine.md R125 and R126, 46_diagnostics.md R143). -/

namespace Sys2Proof.Machine

open Sys2Proof Sys2Proof.Safety

/-! ## available -/

/-- The values `available` writes to STATUS after it read it at device `d` (R125). -/
def seenClears (d : Device) : List Byte := if d.rxDR then 0x40#8 :: (if d.txDS then [0x20#8] else []) else []

/-- The device with the flags cleared that `available` read as set. -/
def seenCleared (d : Device) : Device := { d with rxDR := false, txDS := d.txDS && !d.rxDR, mosi := [], miso := [] }

/-- The frames that write `vs` to STATUS. -/
def statusFrames (c : Config) (vs : List Byte) : List (List (List Byte)) := vs.map fun v => [[writeCmd c 0x07#8, v]]

/-- The STATUS read of `available` and the test of what it read. -/
theorem run_seen {c : Config} {P : Nat → List Move → Prop} {D D' : Device → Prop} {j T : Nat} {code : List Action} {s : State}
    (hs : Structural c) (hP : Schedules c P) (hE : Keeps P c true D) (hE' : Keeps P c true D')
    (h : Stage c P (j + 2) T D (readReg1 c 0x07#8 :: .clearSeen :: code) s) (hT : c.porMs ≤ T)
    (hD : ∀ d, D d → D' { d with mosi := [], miso := [] }) :
    ∃ k t d, run k s = .next t ∧ D d ∧ t.loc.status = statusByte c d ∧ Polled s t
      ∧ Stage c P j T D' ((statusFrames c (seenClears d)).map .frame ++ code) t := by
  obtain ⟨k, t, d, k1, k2, k3, -, hd, -, -, k5⟩ := run_readReg (r := .status) hP hE hs h hT (regAt_of hs rfl) hD
  have hv : insByte t.loc.ins 1 0 = statusByte c d := by
    rw [k5 { s with par := c, dev := d } rfl rfl rfl]
    simp [insByte, regByte, regReadable, Reg.isFeatureReg, regStored]
  obtain ⟨h6, h5, -⟩ := statusByte_flags hs d
  obtain ⟨k', u, l1, l2, l3, l4, l5, l6, l7, -, l8, l9, -, l10, l11, -⟩ := run_local (j := j)
    (as := (statusFrames c (seenClears d)).map .frame) (l := { t.loc with status := statusByte c d }) hP hE' k2 fun v dr hv' => by
      have hp : v.par = c := hv'.par.trans k2.par
      simp only [runAction, clearSeenStep, hv'.loc, hv, h6, h5, seenClears, statusFrames, hp, ← hv'.code]
      cases d.rxDR <;> cases d.txDS <;> rfl
  exact ⟨k + k', u, d, run_trans k1 l1, hd, by rw [l3],
    k3.polled.trans ⟨l4, l5, l6, l7, l8, by rw [l9], by rw [l3], l10, l11⟩, l2⟩

/-- With a silent air the clears leave the flags read as set cleared. -/
theorem framesTo_seenClears {c : Config} (hs : Structural c) (d : Device) :
    FramesTo c (fun _ => True) { d with mosi := [], miso := [] } (statusFrames c (seenClears d)) (seenCleared d) := by
  have clear : ∀ {x e : Device} {v : Byte} {fs}, v.getLsbD 7 = false →
      FramesTo c (fun _ => True) { clearFlags c v x with mosi := [], miso := [] } fs e → FramesTo c (fun _ => True) x ([[writeCmd c 0x07#8, v]] :: fs) e :=
    fun hv hf => framesTo_write1 hs trivial (regAt_of (r := .status) hs rfl) (commitDev_status hs hv) hf
  unfold seenClears seenCleared
  cases h1 : d.rxDR with
  | false => show _ = _; rw [← h1]; simp [h1]
  | true =>
    cases h2 : d.txDS with
    | false => exact clear rfl (by show _ = _; simp [clearFlags_eq hs])
    | true => exact clear rfl (clear rfl (by show _ = _; simp [clearFlags_eq hs]))

/-- MAX_RT of `d` is set in `e`, and the payloads received stay, new ones behind them. -/
def OnAirUnread (d e : Device) : Prop := OnAir d e ∧ (d.maxRT = true → e.maxRT = true) ∧ d.rxq <+: e.rxq

theorem radiatesAll_onAirUnread {c : Config} {d : Device} (h : dynamicPayloadOn c d = false) : RadiatesAll c (OnAirUnread d) where
  static _ hx _ := hx.1.dynamicPayloadOn.trans h
  start _ hx hq := ⟨(radiatesAll_onAir h).start _ hx.1 hq, hx.2⟩
  sent _ _ hx ha hs := ⟨(radiatesAll_onAir h).sent _ _ hx.1 ha hs, hx.2⟩
  lost _ _ hx ha hs := ⟨(radiatesAll_onAir h).lost _ _ hx.1 ha hs, fun _ => rfl, hx.2.2⟩
  deliver _ e hx := ⟨(radiatesAll_onAir h).deliver _ e hx.1, hx.2.1, hx.2.2.trans (List.prefix_append ..)⟩

/-- The clears keep MAX_RT and the payloads received, whatever the radio core and the air do. -/
theorem run_seenClears_onAir {c : Config} {d : Device} {j T : Nat} {code : List Action} (hs : Structural c)
    (hdp : dynamicPayloadOn c d = false) (hT : c.porMs ≤ T) : ∀ {vs : List Byte} {s : State}, (∀ v ∈ vs, v.getLsbD 7 = false ∧ v.getLsbD 4 = false) →
    Stage c (Allowed FailureFreeMove c) j T (OnAirUnread d) ((statusFrames c vs).map .frame ++ code) s →
    ∃ k t, run k s = .next t ∧ Stage c (Allowed FailureFreeMove c) j T (OnAirUnread d) code t ∧ Kept s t := by
  intro vs
  induction vs with
  | nil => intro s _ h; exact ⟨0, s, rfl, h, Kept.refl s⟩
  | cons v vs ih =>
    intro s hv h
    obtain ⟨h7, h4⟩ := hv v List.mem_cons_self
    obtain ⟨k, t, x, k1, k2, -, k3, -⟩ := run_frame (j := j) (D' := OnAirUnread d) (schedules_failureFree c)
      (keeps_failureFree (radiatesAll_onAirUnread hdp)) (h.anyCount (j + 1)) hT (decode_writeCmd hs 0x07#8 [v])
      (addressRefusal_of_some (regAt_of (r := .status) hs rfl)) fun y ⟨hy, hm, hq⟩ => ⟨_, commitDev_status hs h7, by
        refine ⟨?_, fun hd => ?_, hq⟩
        · rw [hy]; rfl
        · show (clearFlags c v y).maxRT = true
          rw [clearFlags_eq hs]
          simp only [h4, hm hd]
          rfl⟩
    obtain ⟨k', u, l1, l2, l3⟩ := ih (fun w hw => hv w (List.mem_cons_of_mem _ hw)) k2
    exact ⟨k + k', u, run_trans k1 l1, l2, k3.kept.trans l3⟩

theorem seenClears_legal (d : Device) : ∀ v ∈ seenClears d, v.getLsbD 7 = false ∧ v.getLsbD 4 = false := by
  intro v hv
  unfold seenClears at hv
  split at hv
  · split at hv
    · rcases List.mem_pair.1 hv with rfl | rfl <;> exact ⟨rfl, rfl⟩
    · obtain rfl := List.mem_singleton.1 hv
      exact ⟨rfl, rfl⟩
  · exact absurd hv List.not_mem_nil

/-- What `available` returns of the STATUS byte it read. -/
theorem returnValue_available {c : Config} (hs : Structural c) {d : Device} {l : Locals} (h : l.status = statusByte c d) :
    returnValue .available l = .ok (.availability d.rxDR (rxPipeNo d)) := by
  rw [returnValue, h, (statusByte_flags hs d).1, pipeOfStatus_statusByte hs]

/-- What lines that change the locals keep of CE and `cfg`. -/
theorem sameCeAndCfg_of_polled {c : Config} {T : Nat} {D : Device → Prop} {as : List Action} {op : HostOp} {p : List HostOp} {s t u v : State}
    (h1 : Called s as op p t) (h2 : Polled t u) (h3 : Ended c T D u v) : SameCeAndCfg s v :=
  ⟨h3.ce.trans (h2.ce.trans h1.ce), h3.payloadSize.trans (h2.payloadSize.trans h1.payloadSize),
    h3.pipe0Cache.trans (h2.pipe0Cache.trans h1.pipe0Cache)⟩

theorem startOp_available {c : Config} {u : State} (hu : u.par = c) :
    startOp .available u = runLines (readReg1 c 0x07#8 :: .clearSeen :: [.ret .available]) u := by
  subst hu; rfl

/-- `available` with a silent air. -/
theorem returns_available {s : State} {p : List HostOp} (hc : Calls s .available p) (hcsn : s.csn = true) (hready : Ready s) :
    Returns s p (.ok (.availability s.dev.rxDR (rxPipeNo s.dev))) fun t =>
      t.dev = seenCleared s.dev ∧ t.csn = true ∧ SameCeAndCfg s t := by
  have hP := schedules_quiet s.par
  obtain ⟨k1, t1, r1, h1, st1⟩ := run_call_stage (D := (· = s.dev)) hP (keeps_quiet _ _ _) hc hcsn rfl fun _ hu _ => startOp_available hu
  obtain ⟨k2, t2, d, r2, rfl, hst, h2, st2⟩ := run_seen (j := 3) (D' := (· = { s.dev with mosi := [], miso := [] })) hc.structural hP
    (keeps_quiet _ _ _) (keeps_quiet _ _ _) (st1 _) hready (by rintro _ rfl; rfl)
  obtain ⟨k3, t3, r3, st3, h3⟩ := run_framesIn (j := 1) (environs_quiet s.par) hready _ (st2.anyCount _)
    (framesTo_seenClears hc.structural s.dev)
  have hk : Polled t1 t3 := h2.trans h3.polled
  rw [← returnValue_available (l := t3.loc) hc.structural (by rw [h3.locals]; exact hst)]
  exact returns_imp (returns_of_stage (j := 0) hP (keeps_quiet _ _ _) (run_trans r1 (run_trans r2 r3)) st3
    (hk.results.trans h1.results) (hk.program.trans h1.program)) fun v hv => ⟨hv.dev, hv.csn, sameCeAndCfg_of_polled h1 hk hv⟩

/-- `available` whatever the radio core and the air do: what it returns is of a device that has lost nothing since the call, and when it
read RX_DR as 0 it clears nothing. -/
theorem returns_available_onAir {s : State} {p : List HostOp} (hc : CallsOnAir s .available p) :
    ∃ d, NothingLost s.dev d ∧ Returns s p (.ok (.availability d.rxDR (rxPipeNo d))) fun t =>
      OnAirUnread s.dev t.dev ∧ (d.rxDR = false → NothingLost s.dev t.dev) ∧ SameCeAndCfg s t ∧ t.csn = true := by
  have hP := schedules_failureFree s.par
  have hs := hc.structural
  have hE := radiatesAll_nothingLost hc.staticPayload
  obtain ⟨k1, t1, r1, h1, st1⟩ := run_call_onAir hE hc ⟨OnAir.refl _, NothingLost.refl _⟩ fun _ hu _ => startOp_available hu
  obtain ⟨k2, t2, d, r2, hd, hst, h2, st2⟩ := run_seen (j := 1) hs hP (keeps_failureFree hE) (keeps_failureFree hE) (st1 _) hc.ready
    fun x hx => ⟨hx.1.closed, hx.2⟩
  refine ⟨d, hd.2, ?_⟩
  by_cases hrx : d.rxDR = true
  · obtain ⟨k3, t3, r3, st3, h3⟩ := run_seenClears_onAir (j := 1) hs hc.staticPayload hc.ready (seenClears_legal d)
      (st2.imp le_rfl fun x hx => ⟨hx.1, hx.2.2.2⟩)
    have hk : Polled t1 t3 := h2.trans h3.polled
    rw [← returnValue_available (l := t3.loc) hs (by rw [h3.locals]; exact hst)]
    exact returns_imp (returns_of_stage (j := 0) hP (keeps_failureFree (radiatesAll_onAirUnread hc.staticPayload))
      (run_trans r1 (run_trans r2 r3)) st3 (hk.results.trans h1.results) (hk.program.trans h1.program)) fun v hv =>
      ⟨hv.dev, fun k => absurd (hrx.symm.trans k) (by decide), sameCeAndCfg_of_polled h1 hk hv, hv.csn⟩
  · rw [seenClears, if_neg hrx] at st2
    rw [← returnValue_available (l := t2.loc) hs hst]
    exact returns_imp (returns_of_stage (j := 0) hP (keeps_failureFree hE) (run_trans r1 r2) st2 (h2.results.trans h1.results)
      (h2.program.trans h1.program)) fun v hv =>
      ⟨⟨hv.dev.1, hv.dev.2.2.2⟩, fun _ => hv.dev.2, sameCeAndCfg_of_polled h1 h2 hv, hv.csn⟩

/-- The head of the RX FIFO stays while payloads are only added. -/
theorem rxq_head_of_added {d x : Device} {e : RxEntry} {es : List RxEntry} (h : d.rxq <+: x.rxq) (he : d.rxq = e :: es) :
    ∃ es', x.rxq = e :: es' := by
  rw [he] at h
  obtain ⟨l, hl⟩ := h
  exact ⟨es ++ l, hl.symm⟩

/-! ## readPayload -/

/-- What `readPayload` returns of the head of the RX FIFO, with the draws of state `s` (R126). -/
def payloadRead (s : State) (m : Nat) : Option RxEntry → Result
  | none => .ok (.payload false [] 0)
  | some e => .ok (.payload true (e.payload.take m ++ drawn s (e.payload.length + 1) (m - e.payload.length)) m)

/-- The bytes the frame of `readPayload` returns at device `d`. -/
def payloadIns (c : Config) (v : State) (m : Nat) : List (List Byte) :=
  [[statusByte c v.dev], (List.range m).map fun j => rRxPayloadMiso v (j + 1)]

theorem payloadResult_payloadIns {v : State} (hs : Structural v.par) (m : Nat) (h : ∀ e ∈ v.dev.rxq.head?, e.pipe ≠ 0b111#3) :
    payloadResult m (payloadIns v.par v m) = payloadRead v m v.dev.rxq.head? := by
  have hp : pipeOfStatus (insByte (payloadIns v.par v m) 0 0) = rxPipeNo v.dev := pipeOfStatus_statusByte hs v.dev
  rw [payloadResult, hp]
  cases hq : v.dev.rxq with
  | nil => exact if_pos (by rw [rxPipeNo, hq])
  | cons e es =>
    have hne : rxPipeNo v.dev ≠ 0b111#3 := by
      rw [rxPipeNo, hq]
      exact h e (by rw [hq]; rfl)
    rw [if_neg hne]
    show Result.ok (.payload true ((List.range m).map _) m) = _
    rw [map_rRxPayloadMiso hq]
    rfl

theorem startOp_readPayload {c : Config} {len n : Nat} (h1 : 1 ≤ len) (hfit : len ≤ n ∨ c.overlength = .truncate) {u : State} (hu : u.par = c)
    (hn : u.payloadSize = some n) : startOp (.readPayload len) u = runLines (readPayloadLines c (min len n)) u := by
  subst hu
  have h0 : len ≠ 0 := by omega
  simp only [startOp, opReadPayload, if_neg h0, withPayloadSize_some hn]
  by_cases hl : len ≤ n
  · rw [if_pos hl, Nat.min_eq_left hl]
  · rw [if_neg hl, hfit.resolve_left hl, Nat.min_eq_right (by omega)]

/-- The lines of `readPayload` before its return. -/
theorem run_readPayload {c : Config} {P : Nat → List Move → Prop} {D D₁ D₂ : Device → Prop} {j T m : Nat} {code : List Action} {s : State}
    (hP : Schedules c P) (hE : Keeps P c true D) (hE₁ : Keeps P c true D₁) (hT : c.porMs ≤ T)
    (h : Stage c P (j + 3) T D (cmdRead c 0x61#8 m :: .keep :: cmdOnly 0xE2#8 :: code) s)
    (hpop : ∀ d q, D d → D₁ { d with rxq := q, mosi := [], miso := [] })
    (hflush : ∀ d, D₁ d → D₂ { d with rxq := [], mosi := [], miso := [] }) :
    ∃ k t d, run k s = .next t ∧ D d ∧ Stage c P j T D₂ code t ∧ Polled s t
      ∧ ∀ v : State, v.par = c → v.dev = d → v.draws = s.draws → t.loc.kept = s.loc.kept ++ [payloadIns c v m] := by
  obtain ⟨k1, t1, d, r1, st1, hd, h1, -⟩ := run_frame (i := .rRxPayload (List.replicate m c.dummyByte)) (D' := D₁) hP hE h hT
    (by simp [decode, decodeCommand]) rfl fun x hx => by
      cases m with
      | zero => exact ⟨_, rfl, hpop x x.rxq hx⟩
      | succ m => exact ⟨_, rfl, hpop x x.rxq.tail hx⟩
  obtain ⟨k2, t2, r2, st2, l3, l4, l5, l6, l7, -, l8, l9, -, l10, l11, -⟩ := run_local (as := [])
    (l := { t1.loc with kept := t1.loc.kept ++ [t1.loc.ins] }) hP hE₁ st1 fun v dr hv => by
      simp only [runAction, keepStep, hv.loc, List.nil_append, ← hv.code]
  obtain ⟨k3, t3, x, r3, st3, -, h3, -⟩ := run_frame (i := .flushRx []) (D' := D₂) hP hE₁ st2 hT rfl rfl fun x hx => ⟨_, rfl, hflush x hx⟩
  refine ⟨_, t3, d, run_trans r1 (run_trans r2 r3), hd, st3,
    h1.kept.polled.trans (Polled.trans ⟨l4, l5, l6, l7, l8, by rw [l9], by rw [l3], l10, l11⟩ h3.kept.polled), fun v hp hv hw => ?_⟩
  have hins : t1.loc.ins = payloadIns c v m := by
    rw [h1.ins v hp hv hw]
    subst hp
    simp [payloadIns, frameResponse, splitMiso, commandMiso, Instr.data, List.take_of_length_le]
  rw [h3.kept.locals, l3, h1.kept.locals, ← hins]

/-- The flags of `d` that are set are set in `e`. -/
def OnAirFlagged (d e : Device) : Prop :=
  OnAir d e ∧ (d.rxDR = true → e.rxDR = true) ∧ (d.txDS = true → e.txDS = true) ∧ (d.maxRT = true → e.maxRT = true)

theorem radiatesAll_onAirFlagged {c : Config} {d : Device} (h : dynamicPayloadOn c d = false) : RadiatesAll c (OnAirFlagged d) where
  static _ hx _ := hx.1.dynamicPayloadOn.trans h
  start _ hx hq := ⟨(radiatesAll_onAir h).start _ hx.1 hq, hx.2⟩
  sent _ _ hx ha hs := ⟨(radiatesAll_onAir h).sent _ _ hx.1 ha hs, hx.2.1, fun _ => rfl, hx.2.2.2⟩
  lost _ _ hx ha hs := ⟨(radiatesAll_onAir h).lost _ _ hx.1 ha hs, hx.2.1, hx.2.2.1, fun _ => rfl⟩
  deliver _ e hx := ⟨(radiatesAll_onAir h).deliver _ e hx.1, fun _ => rfl, hx.2.2.1, hx.2.2.2⟩

/-- `readPayload`, given what the device can be before the read, after it and after the flush. -/
theorem returns_readPayload {s : State} {p : List HostOp} {ok : Config → Move → Prop} {D D₁ D₂ : Device → Prop} {len n : Nat}
    {e : Option RxEntry} (hP : Schedules s.par (Allowed ok s.par)) (hE : Keeps (Allowed ok s.par) s.par true D)
    (hE₁ : Keeps (Allowed ok s.par) s.par true D₁) (hE₂ : Keeps (Allowed ok s.par) s.par true D₂)
    (hc : CallsUnder ok s (.readPayload len) p) (hcsn : s.csn = true) (hready : Ready s) (h1 : 1 ≤ len) (hn : s.payloadSize = some n)
    (hfit : len ≤ n ∨ s.par.overlength = .truncate) (hD : D s.dev)
    (hpop : ∀ d q, D d → D₁ { d with rxq := q, mosi := [], miso := [] })
    (hflush : ∀ d, D₁ d → D₂ { d with rxq := [], mosi := [], miso := [] })
    (hhead : ∀ d, D d → d.rxq.head? = e) (hpipe : ∀ x ∈ e, x.pipe ≠ 0b111#3) :
    Returns s p (payloadRead s (min len n) e) fun t => D₂ t.dev ∧ t.csn = true ∧ SameCeAndCfg s t := by
  obtain ⟨k1, t1, r1, h1, st1⟩ := run_call_stage hP hE hc hcsn hD fun _ hu hz => startOp_readPayload h1 hfit hu (hz.trans hn)
  obtain ⟨k2, t2, d, r2, hd, st2, h2, hkept⟩ := run_readPayload (j := 1) hP hE hE₁ hready (st1 _) hpop hflush
  have hres : returnValue (.payload (min len n)) t2.loc = payloadRead s (min len n) e := by
    have hk := hkept { s with dev := d } rfl rfl h1.draws.symm
    rw [h1.loc] at hk
    rw [returnValue, hk, ← hhead d hd]
    exact payloadResult_payloadIns (v := { s with dev := d }) hc.structural _ fun x hx => hpipe x (hhead d hd ▸ hx)
  rw [← hres]
  exact returns_imp (returns_of_stage (j := 0) hP hE₂ (run_trans r1 r2) st2 (h2.results.trans h1.results) (h2.program.trans h1.program))
    fun v hv => ⟨hv.dev, hv.csn, sameCeAndCfg_of_polled h1 h2 hv⟩

/-- The device with another RX FIFO, the frame buffer aside: what `readPayload` goes through with a silent air. -/
def SameButRxq (d x : Device) : Prop := { x with rxq := [], mosi := [], miso := [] } = { d with rxq := [], mosi := [], miso := [] }

end Sys2Proof.Machine

open Sys2Proof Sys2Proof.Machine Sys2Proof.Safety

/-- Settles O47: the result is read off one STATUS byte, and the clears are those of the flags read as set. -/
theorem availableClearsOnlyWhatItRead : Obligations.AvailableClearsOnlyWhatItRead := by
  refine ⟨fun s p hc hcsn hready => returns_available hc hcsn hready, fun s p hc => ?_⟩
  obtain ⟨d, hd, hret⟩ := returns_available_onAir hc
  refine ⟨d.rxDR, rxPipeNo d, hd.1, fun e es he => ?_, returns_imp hret fun t ⟨hu, hn, hcfg, hcsn⟩ =>
    ⟨hu.2.1, fun hb => (hn hb).2.1, hu.2.2, hu.1.sameRegisters [], hcfg, hcsn⟩⟩
  obtain ⟨es', hq⟩ := rxq_head_of_added hd.2.2.2 he
  rw [rxPipeNo, hq]

/-- Settles O48: the frame's bytes are those of the head at the call, which stays the head, and the flush empties the FIFO. -/
theorem readPayloadReturnsHeadAndFlushes : Obligations.ReadPayloadReturnsHeadAndFlushes := by
  refine ⟨fun s len n p hc h1 hn hfit hcsn hready hpipe => ?_, fun s len n p e es hc h1 hn hfit hq hpipe => ?_⟩
  · have hret := returns_readPayload (D := (· = s.dev)) (D₁ := SameButRxq s.dev)
      (D₂ := (· = { s.dev with rxq := [], mosi := [], miso := [] })) (e := s.dev.rxq.head?) (schedules_quiet _) (keeps_quiet _ _ _)
      (keeps_quiet _ _ _) (keeps_quiet _ _ _) hc hcsn hready h1 hn hfit rfl (by rintro _ q rfl; rfl) (fun _ h => h)
      (by rintro _ rfl; rfl) fun x hx => hpipe x (List.mem_of_mem_head? hx)
    cases hq : s.dev.rxq <;> rw [hq] at hret <;> exact hret
  · have hE := radiatesAll_nothingLost hc.staticPayload
    have hE₁ := radiatesAll_onAirFlagged hc.staticPayload
    refine returns_imp (returns_readPayload (e := some e) (schedules_failureFree _) (keeps_failureFree hE) (keeps_failureFree hE₁)
      (keeps_failureFree hE₁) hc.toCallsUnder hc.csn hc.ready h1 hn hfit ⟨OnAir.refl _, NothingLost.refl _⟩ (fun d q hd => ⟨?_, hd.2.1, hd.2.2.1, hd.2.2.2.1⟩)
      (fun d hd => ⟨?_, hd.2⟩) (fun d hd => ?_) ?_) fun t ⟨h1, h2, h3⟩ => ⟨h1.2.1, h1.2.2.1, h1.2.2.2, h1.1.sameRegisters [], h3, h2⟩
    · rw [hd.1]; rfl
    · rw [hd.1]; rfl
    · obtain ⟨es', hx⟩ := rxq_head_of_added hd.2.2.2.2 hq
      rw [hx]; rfl
    · rintro x ⟨⟩; exact hpipe

end

section
/-! Proofs: `dumpRegisters` (46_diagnostics.md R143 and R144). -/

namespace Sys2Proof.Machine

open Sys2Proof Sys2Proof.Safety

/-! ## The 21 reads -/

/-- The reads of `dumpRegisters`: address, register and number of bytes. -/
def dumpRegs : List (Byte × Reg × Nat) :=
  [(0x00#8, .config, 1), (0x01#8, .enAA, 1), (0x02#8, .enRxaddr, 1), (0x03#8, .setupAw, 1), (0x05#8, .rfCh, 1), (0x06#8, .rfSetup, 1),
   (0x0A#8, .rxAddrP0, 5), (0x0B#8, .rxAddrP1, 5), (0x0C#8, .rxAddrP2, 1), (0x0D#8, .rxAddrP3, 1), (0x0E#8, .rxAddrP4, 1),
   (0x0F#8, .rxAddrP5, 1), (0x10#8, .txAddr, 5), (0x11#8, .rxPwP0, 1), (0x12#8, .rxPwP1, 1), (0x13#8, .rxPwP2, 1),
   (0x14#8, .rxPwP3, 1), (0x15#8, .rxPwP4, 1), (0x16#8, .rxPwP5, 1), (0x1C#8, .dynpd, 1), (0x1D#8, .feature, 1)]

/-- The lines of `dumpRegisters`. -/
def dumpLines (c : Config) : List Action := (dumpRegs.flatMap fun x => [readRegN c x.1 x.2.2, .keep]) ++ [.ret .dump]

theorem startOp_dumpRegisters {c : Config} (hs : Structural c) {u : State} (hu : u.par = c) :
    startOp .dumpRegisters u = runLines (dumpLines c) u := by
  subst hu
  simp only [startOp, opDumpRegisters, dumpReads, hs.addrBytes]
  rfl

/-- Each read names a register with an address, whose bytes the radio core does not write, and reads as many as it has. -/
theorem dumpRegs_spec : ∀ x ∈ dumpRegs, Config.thisHardware.regAt (x.1.setWidth 5) = some x.2.1 ∧ widthOfRule x.2.1 = x.2.2
    ∧ x.2.1 ≠ .observeTx ∧ x.2.1 ≠ .cd ∧ x.2.1 ≠ .status ∧ x.2.1 ≠ .fifoStatus := by decide

/-- Every register but OBSERVE_TX and CD, whose bytes are draws, reads as many bytes as it is wide. -/
theorem regReadable_length (c : Config) (d : Device) {r : Reg} (h1 : r ≠ .observeTx) (h2 : r ≠ .cd) :
    (regReadable c d r).length = widthOfRule r := by
  unfold regReadable
  split
  · rename_i hf
    cases r <;> first | rfl | exact absurd hf (by simp [Reg.isFeatureReg])
  · cases r <;> first | rfl | exact absurd rfl h1 | exact absurd rfl h2

/-- The record made of the bytes the reads return. -/
theorem dumpRecord_reads (s : State) :
    .ok (.dump (dumpRecord (dumpRegs.map fun x => keptRead s.par s.dev x.2.1))) = dumpOf s := by
  simp only [dumpOf, dumpRegs, dumpRecord, keptRead, insByte, regReadable, Reg.isFeatureReg, regStored, List.map_cons,
    List.getD_cons_succ, List.getD_cons_zero, addrOfBytes_bytesOfAddr, Bool.false_and, Bool.true_and, Bool.false_eq_true, if_false]
  split <;> rfl

theorem dumpLines_frames (c : Config) :
    ((dumpLines c).filter fun a => match a with | .frame _ => true | _ => false).length = 21 := rfl

/-- Every line of `dumpRegisters` is a read of a register, keeps what was read, or is the return. -/
theorem dumpLines_mem {c : Config} (hs : Structural c) {a : Action} (ha : a ∈ dumpLines c) :
    (∃ outs i d, a = .frame outs ∧ decode outs.flatten = some (.rRegister i d) ∧ (c.regAt i).isSome = true) ∨ a = .keep ∨ a = .ret .dump := by
  simp only [dumpLines, List.mem_append, List.mem_flatMap, List.mem_singleton, List.mem_pair] at ha
  obtain ⟨x, hx, rfl | rfl⟩ | rfl := ha
  · have hr := regAt_of hs (dumpRegs_spec x hx).1
    exact .inl ⟨_, _, _, rfl, by simpa using decode_readCmd hs x.1 (List.replicate x.2.2 c.dummyByte), by rw [hr]; rfl⟩
  · exact .inr (.inl rfl)
  · exact .inr (.inr rfl)

/-- `dumpRegisters` with a silent air. -/
theorem returns_dumpRegisters {s : State} {p : List HostOp} (hc : Calls s .dumpRegisters p) (hcsn : s.csn = true) (hready : Ready s) :
    Returns s p (dumpOf s) fun t => t.dev = { s.dev with mosi := [], miso := [] } ∧ t.csn = true ∧ SameCeAndCfg s t := by
  have hP := schedules_quiet s.par
  obtain ⟨k1, t1, r1, h1, st1⟩ := run_call_stage (D := (· = s.dev)) hP (keeps_quiet _ _ _) hc hcsn rfl
    fun _ hu _ => startOp_dumpRegisters hc.structural hu
  obtain ⟨k2, t2, r2, st2, hk, e1, e2, e3, e4, e5⟩ := run_readsKeep (j := 1) hP (fun _ => keeps_quiet _ _ _) hc.structural hready dumpRegs
    (fun x hx => by
      obtain ⟨hr, hw, ho, hcd, -⟩ := dumpRegs_spec x hx
      exact ⟨regAt_of hc.structural hr, fun d => (regReadable_length _ d ho hcd).trans hw⟩) (st1 _)
  rw [h1.loc] at hk
  replace hk : t2.loc.kept = dumpRegs.map fun x => keptRead s.par s.dev x.2.1 := hk
  rw [← dumpRecord_reads, ← hk]
  exact returns_imp (returns_of_stage (j := 0) (r := .dump) hP (keeps_quiet _ _ _) (run_trans r1 r2) st2 (e5.trans h1.results) (e4.trans h1.program))
    fun v hv => ⟨hv.dev.resolve_right nofun, hv.csn, hv.ce.trans (e1.trans h1.ce), hv.payloadSize.trans (e2.trans h1.payloadSize),
      hv.pipe0Cache.trans (e3.trans h1.pipe0Cache)⟩

/-- `dumpRegisters` whatever the radio core and the air do. -/
theorem returns_dumpRegisters_onAir {s : State} {p : List HostOp} (hc : CallsOnAir s .dumpRegisters p) :
    Returns s p (dumpOf s) fun t => OnAir s.dev t.dev ∧ t.csn = true ∧ SameCeAndCfg s t := by
  have hE := radiatesAll_onAir hc.staticPayload
  obtain ⟨k1, t1, r1, h1, st1⟩ := run_call_onAir hE hc (OnAir.refl _) fun _ hu _ => startOp_dumpRegisters hc.structural hu
  obtain ⟨k2, t2, r2, st2, hk, e1, e2, e3, e4, e5⟩ := run_readsKeep_onAir (j := 1) hc.staticPayload hc.structural hc.ready dumpRegs
    (fun x hx => by
      obtain ⟨hr, hw, ho, hcd, h3, h4⟩ := dumpRegs_spec x hx
      exact ⟨regAt_of hc.structural hr, (regReadable_length _ _ ho hcd).trans hw, h3, h4⟩) (st1 _)
  rw [h1.loc] at hk
  have hrec : dumpRecord t2.loc.kept = dumpRecord (dumpRegs.map fun x => keptRead s.par s.dev x.2.1) :=
    dumpRecord_congr (hk.trans (by rw [List.map_map]; rfl))
  rw [← dumpRecord_reads, ← hrec]
  exact returns_imp (returns_of_stage (j := 0) (r := .dump) (schedules_failureFree _) (keeps_failureFree hE) (run_trans r1 r2) st2
    (e5.trans h1.results) (e4.trans h1.program))
    fun v hv => ⟨hv.dev, hv.csn, hv.ce.trans (e1.trans h1.ce), hv.payloadSize.trans (e2.trans h1.payloadSize),
      hv.pipe0Cache.trans (e3.trans h1.pipe0Cache)⟩

end Sys2Proof.Machine

open Sys2Proof Sys2Proof.Machine Sys2Proof.Safety

/-- Settles O52: the lines are the 21 reads, and no read changes a register. -/
theorem dumpReadsTheRegistersAndChangesNothing : Obligations.DumpReadsTheRegistersAndChangesNothing := by
  refine ⟨fun s t hs h => ?_, fun s p => ⟨returns_dumpRegisters, fun hc => ?_⟩⟩
  · rw [startOp_dumpRegisters hs rfl] at h
    cases h
    exact ⟨dumpLines_frames _, fun a ha => dumpLines_mem hs ha⟩
  · exact returns_imp (returns_dumpRegisters_onAir hc) fun t ⟨h1, h2, h3⟩ => ⟨h1.sameRegisters [], h2, h3⟩

end

section
/-! Proofs: `transmit`, the whole call (44_transfer_engine.md R120 to R123). -/

namespace Sys2Proof.Machine

open Sys2Proof Sys2Proof.Safety

/-! ## The call -/

theorem startOp_transmit {c : Config} {payload : List Byte} {n : Nat} (h0 : payload ≠ []) (hfit : payload.length ≤ n ∨ c.overlength = .truncate)
    {u : State} (hu : u.par = c) (hn : u.payloadSize = some n) :
    startOp (.transmit payload) u = runLines (enterTransmit c (paddedPayload payload n)) u := by
  subst hu
  simp only [startOp, opTransmit, if_neg h0, withPayloadSize_some hn]
  by_cases hl : payload.length ≤ n
  · rw [if_pos hl, paddedPayload, padPayload, List.take_of_length_le hl]
  · have hlen : (payload.take n).length = n := by rw [List.length_take]; omega
    rw [if_neg hl, hfit.resolve_left hl, paddedPayload, padPayload, hlen, Nat.sub_self, Nat.sub_eq_zero_of_le (by omega)]

theorem paddedPayload_length (payload : List Byte) (n : Nat) : (paddedPayload payload n).length = n := by
  rw [paddedPayload, List.length_append, List.length_take, List.length_replicate]
  omega

theorem sent_of_trace {bs : List Byte} {t u : State} (h : Sent bs t) (hp : t.trace <+: u.trace) : Sent bs u :=
  h.imp fun _ hm => hp.subset hm

/-- CONFIG as Enter Transmit leaves it, and as Finish Transmit does. -/
def ptxConfig (v : Byte) : Byte := (v ||| 0x02#8) &&& ~~~0x01#8

theorem ptxConfig_bits (v : Byte) : (ptxConfig v).getLsbD 1 = true ∧ (ptxConfig v).getLsbD 0 = false ∧ (ptxConfig v).getLsbD 7 = v.getLsbD 7 := by
  revert v; decide

theorem ptxConfig_down (v : Byte) : (ptxConfig v ||| 0x00#8) &&& ~~~0x02#8 = v &&& 0xFC#8 := by
  revert v; decide

theorem and_FC_powerDown (v : Byte) : (v &&& 0xFC#8).getLsbD 1 = false := by
  revert v; decide

/-- The device families of a `transmit` call: at the call, with the flags cleared, in PTX mode, with the payload queued, and after each of
the lines of Finish Transmit. Each is kept by the environment and led to the next by its lines. -/
structure TransmitStages (c : Config) (P : Nat → List Move → Prop) (v : Byte) (p : List Byte) (D₀ D₁ D₂ D₃ D₄ D₅ D₆ : Device → Prop) : Prop where
  keeps₀ : Keeps P c true D₀
  keeps₁ : Keeps P c true D₁
  keeps₂ : Keeps P c true D₂
  keeps₃ : Keeps P c true D₃
  keeps₄ : Keeps P c true D₄
  keeps₅ : Keeps P c true D₅
  keeps₆ : Keeps P c true D₆
  clear : ∀ d, D₀ d → D₁ { clearFlags c 0x70#8 d with mosi := [], miso := [] }
  read : ∀ d, D₁ d → d.config = v ∧ D₁ { d with mosi := [], miso := [] }
  mode : ∀ d ta, D₁ d → (ta = true → d.txActive = true) → D₂ { d with config := ptxConfig v, txActive := ta, mosi := [], miso := [] }
  load : ∀ d, D₂ d → D₃ { d with txq := if d.txq.length < c.txFifoDepth then d.txq ++ [p] else d.txq, mosi := [], miso := [] }
  poll : ∀ d, D₃ d → D₃ { d with mosi := [], miso := [] }
  clearEnd : ∀ d, D₃ d → D₄ { clearFlags c 0x70#8 d with mosi := [], miso := [] }
  flush : ∀ d, D₄ d → D₅ { d with txq := [], txActive := false, mosi := [], miso := [] }
  readEnd : ∀ d, D₅ d → d.config = ptxConfig v ∧ d.txActive = false ∧ D₅ { d with mosi := [], miso := [] }
  down : ∀ d, D₅ d → D₆ { d with config := v &&& 0xFC#8, txActive := false, mosi := [], miso := [] }

/-- `transmit`, from the call to the result, which is that of a STATUS byte of a device of the poll. -/
theorem returns_transmit {s : State} {ok : Config → Move → Prop} {payload : List Byte} {n : Nat} {p : List HostOp}
    {D₀ D₁ D₂ D₃ D₄ D₅ D₆ : Device → Prop} (hP : Schedules s.par (Allowed ok s.par)) (hc : Transmits ok s payload n p) (hD : D₀ s.dev)
    (h : TransmitStages s.par (Allowed ok s.par) s.dev.config (paddedPayload payload n) D₀ D₁ D₂ D₃ D₄ D₅ D₆) :
    ∃ d, D₃ d ∧ Returns s p (transmitResult (statusByte s.par d)) fun t => D₆ t.dev ∧ t.par = s.par ∧ t.ce = false ∧ t.csn = true
      ∧ t.payloadSize = s.payloadSize ∧ t.pipe0Cache = s.pipe0Cache ∧ Sent (paddedPayload payload n) t
      ∧ (d.txDS = true ∨ d.maxRT = true ∨ s.clock + s.par.cePulseMs + s.par.txTimeoutMs ≤ t.clock) := by
  have hs := hc.structural
  obtain ⟨hb1, hb0, hb7⟩ := ptxConfig_bits s.dev.config
  obtain ⟨k1, t1, r1, h1, st1⟩ := run_call_stage hP h.keeps₀ hc.toCallsUnder hc.csn hD
    fun u hu hz => startOp_transmit hc.nonempty hc.fits hu (hz.trans hc.size)
  obtain ⟨k2, t2, r2, st2, h2, hsent⟩ := run_enterTransmit (j := 3) hs hP h.keeps₀ h.keeps₁ h.keeps₂ (st1 _) hc.ready hc.configLegal
    (by rw [paddedPayload_length]; exact hc.sizeRange) h.clear h.read h.mode h.load
  obtain ⟨k3, t3, r3, st3, -, h3, -⟩ := run_setCE (j := 2) hP h.keeps₃ st2
  obtain ⟨k4, t4, r4, st4, h4, -⟩ := run_wait (j := 0) hP h.keeps₃ st3
  have hT : s.par.porMs ≤ s.clock + s.par.cePulseMs := Nat.le_trans hc.ready (Nat.le_add_right _ _)
  obtain ⟨k5, t5, d, r5, hd, e1, e2, e3, e4, e5, e6, e7, e8, e9, e10, e11, e12⟩ := run_transmitTail hs hP (fun _ _ _ h => h) h.keeps₃ h.keeps₄
    h.keeps₅ h.keeps₆ st4 hT (hb7.trans hc.configLegal) h.poll h.clearEnd h.flush h.readEnd
    fun d hd => by rw [ptxConfig_down]; exact h.down d hd
  have h34 : Kept { t2 with ce := true } t4 := h3.trans h4
  refine ⟨d, hd, _, t5, run_trans r1 (run_trans r2 (run_trans r3 (run_trans r4 r5))), ?_, ?_, e2, e3, e4, e7, e6, e5, ?_, ?_, ?_, e12⟩
  · rw [e1, h34.results, h2.results, ← h1.results]
  · rw [e10, h34.program, h2.program, ← h1.program]
  · rw [e8, h34.payloadSize, h2.payloadSize, ← h1.payloadSize]
  · rw [e9, h34.pipe0Cache, h2.pipe0Cache, ← h1.pipe0Cache]
  · exact sent_of_trace hsent (List.IsPrefix.trans h34.trace e11)

/-! ## A radio that sets no flag -/

/-- `d` but for `tx_active` and the frame buffer: what TX starts can make of it. -/
def Started (d x : Device) : Prop := x = { d with txActive := x.txActive, mosi := x.mosi, miso := x.miso }

/-- `d` but for the frame buffer. -/
def Still (d x : Device) : Prop := x = { d with mosi := x.mosi, miso := x.miso }

theorem radiates_started {c : Config} {d : Device} (h : dynamicPayloadOn c d = false) : Radiates c (Started d) where
  static x hx _ := by rw [hx]; exact h
  start _ hx _ := by rw [hx]; rfl

theorem radiates_still {c : Config} {d : Device} (h : dynamicPayloadOn c d = false) (hq : d.txq = []) : Radiates c (Still d) where
  static x hx _ := by rw [hx]; exact h
  start x hx hne := absurd (by rw [hx]; exact hq) hne

/-- The device with the flags cleared. -/
def clearedDev (d : Device) : Device := { d with rxDR := false, txDS := false, maxRT := false }

/-- And in PTX mode. -/
def ptxDev (d : Device) : Device := { clearedDev d with config := ptxConfig d.config }

/-- The TX FIFO with the payload queued, if it has room. -/
def queued (c : Config) (p : List Byte) (q : List (List Byte)) : List (List Byte) := if q.length < c.txFifoDepth then q ++ [p] else q

/-- And with the payload queued. -/
def loadedDev (c : Config) (p : List Byte) (d : Device) : Device := { ptxDev d with txq := queued c p d.txq }

/-- The device a `transmit` call leaves. -/
def transmittedDev (d : Device) : Device :=
  { d with
    config := d.config &&& 0xFC#8, rxDR := false, txDS := false, maxRT := false, txq := [], txActive := false
    mosi := [], miso := [] }

theorem clearFlags_all {c : Config} (hs : Structural c) (d : Device) : clearFlags c 0x70#8 d = clearedDev d := by
  simp [clearFlags_eq hs, clearedDev]

theorem transmitStages_flagless {c : Config} (hs : Structural c) {d : Device} (hdp : dynamicPayloadOn c d = false) (p : List Byte) :
    TransmitStages c (Allowed FlaglessMove c) d.config p (Started d) (Started (clearedDev d)) (Started (ptxDev d))
      (Started (loadedDev c p d)) (Started (loadedDev c p d))
      (Still { ptxDev d with txq := [], txActive := false }) (· = transmittedDev d) where
  keeps₀ := keeps_flagless (radiates_started hdp)
  keeps₁ := keeps_flagless (radiates_started (d := clearedDev d) hdp)
  keeps₂ := keeps_flagless (radiates_started (d := ptxDev d) hdp)
  keeps₃ := keeps_flagless (radiates_started (d := loadedDev c p d) hdp)
  keeps₄ := keeps_flagless (radiates_started (d := loadedDev c p d) hdp)
  keeps₅ := keeps_flagless (radiates_still (d := { ptxDev d with txq := [], txActive := false }) hdp rfl)
  keeps₆ := keeps_still (.inr (by rintro _ rfl; rw [pwrUp_eq hs]; exact and_FC_powerDown _))
  clear x hx := by rw [clearFlags_all hs, hx]; rfl
  read x hx := ⟨by rw [hx]; rfl, by rw [hx]; rfl⟩
  mode x ta hx _ := by rw [hx]; rfl
  load x hx := by rw [hx]; rfl
  poll x hx := by rw [hx]; rfl
  clearEnd x hx := by rw [clearFlags_all hs, hx]; rfl
  flush x hx := by rw [hx]; rfl
  readEnd x hx := ⟨by rw [hx]; rfl, by rw [hx], by rw [hx]; rfl⟩
  down x hx := by rw [hx]; rfl

/-! ## Whatever the radio core and the air do -/

/-- On air from `d`, TX_DS only if a transmission may be reported as sent, MAX_RT only if an acknowledgement is awaited (R134). -/
def OnAirSent (d x : Device) : Prop :=
  OnAir d x ∧ (x.txDS = true → MayBeSent d) ∧ (x.maxRT = true → d.enAA.getLsbD 0 = true)

theorem mayBeSent_of_txSent {c : Config} (hs : Structural c) {d x : Device} {b : Bool} (hx : OnAir d x) (h : txSent c b x = true) :
    MayBeSent d := by
  rw [hx, txSent_iff hs] at h
  exact h.imp_right And.right

theorem ackAwaited_of_not_txSent {c : Config} (hs : Structural c) {d x : Device} {b : Bool} (hx : OnAir d x) (h : txSent c b x = false) :
    d.enAA.getLsbD 0 = true := by
  by_contra hn
  have hsent : txSent c b x = true := (txSent_iff hs b x).2 (.inl (by rw [hx]; simpa using hn))
  exact absurd (hsent.symm.trans h) (by decide)

theorem radiatesAll_onAirSent {c : Config} (hs : Structural c) {d : Device} (h : dynamicPayloadOn c d = false) : RadiatesAll c (OnAirSent d) where
  static _ hx _ := hx.1.dynamicPayloadOn.trans h
  start _ hx hq := ⟨(radiatesAll_onAir h).start _ hx.1 hq, hx.2⟩
  sent x b hx ha hb := ⟨(radiatesAll_onAir h).sent x b hx.1 ha hb, fun _ => mayBeSent_of_txSent hs hx.1 hb, hx.2.2⟩
  lost x b hx ha hb := ⟨(radiatesAll_onAir h).lost x b hx.1 ha hb, hx.2.1, fun _ => ackAwaited_of_not_txSent hs hx.1 hb⟩
  deliver x e hx := ⟨(radiatesAll_onAir h).deliver x e hx.1, hx.2⟩

theorem transmitStages_onAir {c : Config} (hs : Structural c) {d : Device} (hdp : dynamicPayloadOn c d = false) (p : List Byte) :
    TransmitStages c (Allowed FailureFreeMove c) d.config p (OnAir d) (OnAirSent d) (OnAirSent { d with config := ptxConfig d.config })
      (OnAirSent { d with config := ptxConfig d.config }) (OnAir { d with config := ptxConfig d.config })
      (OnAirIdle { d with config := ptxConfig d.config }) (OnAirIdle { d with config := d.config &&& 0xFC#8 }) where
  keeps₀ := keeps_failureFree (radiatesAll_onAir hdp)
  keeps₁ := keeps_failureFree (radiatesAll_onAirSent hs hdp)
  keeps₂ := keeps_failureFree (radiatesAll_onAirSent hs (d := { d with config := ptxConfig d.config }) hdp)
  keeps₃ := keeps_failureFree (radiatesAll_onAirSent hs (d := { d with config := ptxConfig d.config }) hdp)
  keeps₄ := keeps_failureFree (radiatesAll_onAir (d := { d with config := ptxConfig d.config }) hdp)
  keeps₅ := keeps_failureFree (radiatesAll_onAirIdle (d := { d with config := ptxConfig d.config }) hdp)
  keeps₆ := keeps_failureFree (radiatesAll_onAirIdle (d := { d with config := d.config &&& 0xFC#8 }) hdp)
  clear x hx := by rw [clearFlags_all hs]; exact ⟨by rw [hx]; rfl, nofun, nofun⟩
  read x hx := ⟨hx.1.config, hx.1.closed, hx.2⟩
  mode x ta hx _ := ⟨by rw [hx.1]; rfl, hx.2⟩
  load x hx := ⟨by rw [hx.1]; rfl, hx.2⟩
  poll x hx := ⟨hx.1.closed, hx.2⟩
  clearEnd x hx := by rw [clearFlags_all hs, hx.1]; rfl
  flush x hx := ⟨by rw [hx]; rfl, rfl, rfl⟩
  readEnd x hx := ⟨hx.1.config, hx.2.2, hx.closed⟩
  down x hx := ⟨by rw [hx.1]; rfl, hx.2.1, rfl⟩

end Sys2Proof.Machine

open Sys2Proof Sys2Proof.Machine Sys2Proof.Safety

/-- Settles O50: no flag is ever set after the first line cleared them, so the poll ends at the deadline. -/
theorem transmitToASilentRadioTimesOut : Obligations.TransmitToASilentRadioTimesOut := by
  intro s payload n p hc
  obtain ⟨d, hd, hret⟩ := returns_transmit (D₀ := Started s.dev) (schedules_flagless s.par) hc rfl
    (transmitStages_flagless hc.structural hc.staticPayload (paddedPayload payload n))
  have h1 : d.txDS = false := by rw [hd]; rfl
  have h2 : d.maxRT = false := by rw [hd]; rfl
  rw [transmitResult_statusByte hc.structural, h1, h2] at hret
  refine returns_imp hret fun t ⟨hdev, hp, hce, hcsn, hz, hcache, hsent, hend⟩ => ⟨hdev, hce, hcsn, hz, hcache, ?_, ?_, hsent⟩
  · rw [xcvrState_eq (hp ▸ hc.structural), hdev]
    exact if_pos (and_FC_powerDown _)
  · exact (hend.resolve_left nofun).resolve_left nofun

end

section
/-! Proofs: what `transmit` reports (44_transfer_engine.md R122 and R123, 45_radio_core.md R133 and R134). -/

namespace Sys2Proof.Machine

open Sys2Proof Sys2Proof.Safety

/-! ## From the poll that saw a flag -/

/-- The device Finish Transmit leaves with a silent air. -/
def finishedDev (d : Device) : Device :=
  { d with
    config := d.config &&& 0xFD#8, rxDR := false, txDS := false, maxRT := false, txq := [], txActive := false
    mosi := [], miso := [] }

theorem and_FD (v : Byte) : (v ||| 0x00#8) &&& ~~~0x02#8 = v &&& 0xFD#8 := by
  rw [BitVec.or_zero]; rfl

theorem transmitResult_flagged {v : Byte} (h : v.getLsbD 5 = true ∨ v.getLsbD 4 = true) :
    transmitResult v = if v.getLsbD 5 then .ok .delivered else .ok .notDelivered := by
  unfold transmitResult
  split
  · rfl
  · rename_i h5
    rw [if_pos (h.resolve_left h5)]

theorem returns_finish {s : State} (hs : Structural s.par) (hsched : ∀ m ∈ s.sched, QuietMove s.par m) (hcode : s.code = [.pollFlags])
    (hcsn : s.csn = true) (hready : Ready s) (hv : s.dev.config.getLsbD 7 = false)
    (hflag : (insByte s.loc.ins 1 0).getLsbD 5 = true ∨ (insByte s.loc.ins 1 0).getLsbD 4 = true) :
    Returns s s.program (transmitResult (insByte s.loc.ins 1 0)) fun t => t.dev = finishedDev s.dev ∧ t.csn = true ∧ SameCeAndCfg s t := by
  have hP := schedules_quiet s.par
  have hQ : ∀ D, Keeps (Allowed QuietMove s.par) s.par true D := keeps_quiet _ _
  have hst : Stage s.par (Allowed QuietMove s.par) 7 s.clock (· = s.dev) [.pollFlags] s := ⟨rfl, hcsn, hsched, le_rfl, rfl, hcode⟩
  obtain ⟨k1, t1, r1, st1, h1, e1⟩ := run_pollFlags hP (hQ _) hst
  rw [if_pos (by simpa using hflag), List.append_nil] at st1
  obtain ⟨k2, t2, r2, f1, f2, f3, f4, f5, f6, -, f8, f9, f10, -⟩ := run_finishTransmit (j := 0) (v := s.dev.config)
    (D₁ := (· = { clearedDev s.dev with mosi := [], miso := [] }))
    (D₂ := (· = { clearedDev s.dev with txq := [], txActive := false, mosi := [], miso := [] })) (D₃ := (· = finishedDev s.dev))
    hs hP (hQ _) (hQ _) (hQ _) (hQ _) st1 hready hv (by rintro _ rfl; rw [clearFlags_all hs]) (by rintro _ rfl; rfl)
    (by rintro _ rfl; exact ⟨rfl, rfl, rfl⟩) (by rintro _ rfl; rw [and_FD]; rfl)
  refine ⟨_, t2, run_trans r1 r2, ?_, f10.trans h1.program, f2, f3, f4, f5, f6.trans h1.ce, f8.trans h1.payloadSize, f9.trans h1.pipe0Cache⟩
  rw [f1, h1.results, e1]

/-! ## A schedule with a TX start and a completion -/

/-- The device with the payload queued, its frame buffer empty, and `tx_active` at `ta`. -/
def loadedAt (c : Config) (p : List Byte) (d : Device) (ta : Bool) : Device :=
  { loadedDev c p d with txActive := ta, mosi := [], miso := [] }

/-- R134's outcome for that device. -/
def completedDev (c : Config) (p : List Byte) (d : Device) (sent : Bool) : Device :=
  { loadedDev c p d with
    txq := if sent then (queued c p d.txq).tail else queued c p d.txq
    txDS := sent, maxRT := !sent, txActive := false, mosi := [], miso := [] }

theorem queued_ne_nil {c : Config} (h : 1 ≤ c.txFifoDepth) (p : List Byte) (q : List (List Byte)) : queued c p q ≠ [] := by
  unfold queued
  split
  · simp
  · rintro rfl
    simp at *
    omega

section
variable {s : State} {p : List Byte} {d : Device} {acked : Bool} {rest : List Move} (hs : Structural s.par) (hcsn : s.csn = true)
  (hdp : dynamicPayloadOn s.par d = false)
include hs hcsn hdp

/-- After TX start the transmission is in progress, whether it was before or not (R133). -/
theorem step_start {ta : Bool} (hce : s.ce = true) (hdepth : 1 ≤ s.par.txFifoDepth) (hsched : s.sched = .txStart :: rest)
    (hdev : s.dev = loadedAt s.par p d ta) : step s = .next { s with sched := rest, dev := loadedAt s.par p d true } := by
  obtain ⟨hb1, hb0, -⟩ := ptxConfig_bits d.config
  have hq : 1 ≤ (queued s.par p d.txq).length := List.length_pos_iff.2 (queued_ne_nil hdepth p d.txq)
  obtain ⟨hon, hoff⟩ := txStartOnlyWhenEnabled s rest hs hsched (by rw [hdev]; exact hdp)
  cases ta with
  | false => rw [hon (by rw [hdev]; exact ⟨hcsn, hb1, hb0, hce, hq, rfl, rfl⟩), hdev]; rfl
  | true =>
    rw [hoff (by rw [hdev]; exact fun k => absurd k.2.2.2.2.2.2 (by simp [loadedAt])), ← hdev]

/-- The completion of that transmission (R134). -/
theorem step_complete (hsched : s.sched = .txComplete acked :: rest) (hdev : s.dev = loadedAt s.par p d true) :
    step s = .next { s with sched := rest, dev := completedDev s.par p d (txSent s.par acked d) } := by
  obtain ⟨hb1, -, -⟩ := ptxConfig_bits d.config
  obtain ⟨hact, -⟩ := txCompletionOutcomes s acked rest hs hsched (by rw [hdev]; exact hdp)
  obtain ⟨hyes, hno⟩ := hact hcsn (by rw [hdev]; exact hb1) (by rw [hdev]; rfl)
  rw [hdev] at hyes hno
  cases hsent : txSent s.par acked d with
  | true => exact hyes ((txSent_iff hs acked d).1 hsent)
  | false => exact hno fun k => absurd (hsent.symm.trans ((txSent_iff hs acked d).2 k)) (by decide)

end

/-- The moves of the controller from the call to the line that raises CE. -/
def movesToPulse (c : Config) : Nat := 1 + 6 + 2 * (powerUpWait c).length + 1

/-- The schedule: the controller's moves up to the pulse, a TX start and its completion. -/
def pulseSchedule (c : Config) (acked : Bool) : List Move :=
  List.replicate (movesToPulse c) (.run Draw.quiet) ++ [.txStart, .txComplete acked]

theorem pulseSchedule_failureFree (c : Config) (acked : Bool) : ∀ m ∈ pulseSchedule c acked, FailureFreeMove c m := by
  intro m hm
  rw [pulseSchedule, List.mem_append] at hm
  obtain hm | hm := hm
  · rw [List.eq_of_mem_replicate hm]; exact noFailure_quiet c
  · rcases List.mem_pair.1 hm with rfl | rfl <;> exact trivial

/-- The call under that schedule up to the completion. -/
theorem run_pulse {s : State} {payload : List Byte} {n : Nat} {p : List HostOp} (acked : Bool) (hc : Transmits QuietMove s payload n p)
    (hdepth : 1 ≤ s.par.txFifoDepth) :
    ∃ k t, run k { s with sched := pulseSchedule s.par acked } = .next t
      ∧ (∀ j, Stage s.par (Allowed QuietMove s.par) j s.clock
          (· = completedDev s.par (paddedPayload payload n) s.dev (txSent s.par acked s.dev))
          (.waitMs s.par.cePulseMs :: .setCE false :: .now :: .startDeadline :: [.poll]) t)
      ∧ Sent (paddedPayload payload n) t ∧ t.results = s.results ∧ t.program = p := by
  have hs := hc.structural
  have hP := schedules_then s.par [.txStart, .txComplete acked]
  have hK : ∀ D, Keeps (Then [.txStart, .txComplete acked]) s.par true D := keeps_then _ _ _
  obtain ⟨k1, t1, r1, h1, e1, e2⟩ := run_call (j := 1 + 6 + 2 * (powerUpWait s.par).length) (D := (· = s.dev))
    (s := { s with sched := pulseSchedule s.par acked }) hP (hK _) rfl hc.csn rfl rfl hc.idle hc.program
    fun u hu hz => startOp_transmit hc.nonempty hc.fits hu (hz.trans hc.size)
  obtain ⟨k2, t2, r2, st2, h2, hsent⟩ := run_enterTransmit (j := 1) (T := s.clock) (v := s.dev.config) (D₀ := (· = s.dev))
    (D₁ := (· = { clearedDev s.dev with mosi := [], miso := [] }))
    (D₂ := fun x => ∃ ta, x = { ptxDev s.dev with txActive := ta, mosi := [], miso := [] })
    (D₃ := fun x => ∃ ta, x = loadedAt s.par (paddedPayload payload n) s.dev ta) hs hP (hK _) (hK _) (hK _)
    ⟨h1.par, h1.csn.trans hc.csn, e1, h1.clock, e2, h1.code⟩ hc.ready hc.configLegal (by rw [paddedPayload_length]; exact hc.sizeRange)
    (by rintro _ rfl; rw [clearFlags_all hs]) (by rintro _ rfl; exact ⟨rfl, rfl⟩) (by rintro _ ta rfl -; exact ⟨ta, rfl⟩)
    (by rintro _ ⟨ta, rfl⟩; exact ⟨ta, rfl⟩)
  obtain ⟨k3, t3, r3, st3, hce, h3, -⟩ := run_setCE (j := 0) hP (hK _) st2
  obtain ⟨ta, hdev⟩ := st3.dev
  have hpar := st3.par
  rw [← hpar] at hdev
  have hstart := step_start (rest := [.txComplete acked]) (hpar ▸ hs) st3.csn (hpar ▸ hc.staticPayload) hce (hpar ▸ hdepth) st3.sched hdev
  have hdone := step_complete (s := { t3 with sched := [.txComplete acked], dev := loadedAt t3.par (paddedPayload payload n) s.dev true })
    (rest := []) (hpar ▸ hs) st3.csn (hpar ▸ hc.staticPayload) rfl rfl
  refine ⟨_, _, run_trans r1 (run_trans r2 (run_trans r3 (run_trans ((run_one _).trans hstart) ((run_one _).trans hdone)))), fun j =>
    ⟨hpar, st3.csn, fun _ h => absurd h List.not_mem_nil, st3.clock, by rw [← hpar], st3.code⟩,
    sent_of_trace hsent h3.trace, ?_, ?_⟩
  · exact h3.results.trans (h2.results.trans h1.results)
  · exact h3.program.trans (h2.program.trans h1.program)

/-- The STATUS byte of the completed transmission reports its outcome. -/
theorem transmitResult_completed {c : Config} (hs : Structural c) (p : List Byte) (d : Device) (sent : Bool) :
    transmitResult (statusByte c (completedDev c p d sent)) = if sent then .ok .delivered else .ok .notDelivered := by
  rw [transmitResult_statusByte hs]
  cases sent <;> rfl

/-- The rest of the call with a silent air, from the completion. -/
theorem returns_afterPulse {s t u : State} {p : List Byte} {rest : List HostOp} {k : Nat} {sent : Bool} (hs : Structural s.par)
    (hready : Ready s) (hv : s.dev.config.getLsbD 7 = false) (hrun : run k u = .next t) (hres : t.results = u.results)
    (hprog : t.program = rest) (h : ∀ j, Stage s.par (Allowed QuietMove s.par) j s.clock (· = completedDev s.par p s.dev sent)
      (.waitMs s.par.cePulseMs :: .setCE false :: .now :: .startDeadline :: [.poll]) t) :
    Returns u rest (if sent then .ok .delivered else .ok .notDelivered) fun v =>
      v.dev = transmittedDev s.dev ∧ v.ce = false ∧ v.csn = true ∧ t.trace <+: v.trace := by
  have hP := schedules_quiet s.par
  have hQ : ∀ D, Keeps (Allowed QuietMove s.par) s.par true D := keeps_quiet _ _
  obtain ⟨-, -, hb7⟩ := ptxConfig_bits s.dev.config
  obtain ⟨k1, t1, r1, st1, h1, -⟩ := run_wait (j := 0) hP (hQ _) (h _)
  have hT : s.par.porMs ≤ s.clock + s.par.cePulseMs := Nat.le_trans hready (Nat.le_add_right _ _)
  obtain ⟨k2, t2, d, r2, rfl, e1, e2, e3, e4, e5, e6, -, -, -, e10, e11, -⟩ := run_transmitTail (v := ptxConfig s.dev.config)
    (D₁ := (· = { clearedDev (completedDev s.par p s.dev sent) with mosi := [], miso := [] }))
    (D₂ := (· = { clearedDev (completedDev s.par p s.dev sent) with txq := [], txActive := false, mosi := [], miso := [] }))
    (D₃ := (· = transmittedDev s.dev)) hs hP (fun _ _ _ h => h) (hQ _) (hQ _) (hQ _) (hQ _) st1 hT (hb7.trans hv)
    (by rintro _ rfl; rfl) (by rintro _ rfl; rw [clearFlags_all hs]) (by rintro _ rfl; rfl) (by rintro _ rfl; exact ⟨rfl, rfl, rfl⟩)
    (by rintro _ rfl; rw [ptxConfig_down]; rfl)
  rw [← transmitResult_completed hs p s.dev sent]
  exact ⟨_, t2, run_trans hrun (run_trans r1 r2), by rw [e1, h1.results, hres], e10.trans (h1.program.trans hprog), e2, e3, e4, e6, e5,
    h1.trace.trans e11⟩

end Sys2Proof.Machine

open Sys2Proof Sys2Proof.Machine Sys2Proof.Safety

/-- Settles O49: the outcome is the flag of the poll's STATUS byte; TX_DS and MAX_RT are set only as R134 has it; and the schedule with one
TX start and one completion shows each outcome possible. -/
theorem transmitReportsTheFlagItSaw : Obligations.TransmitReportsTheFlagItSaw := by
  refine ⟨fun s hs hsched hcode hcsn hready hv hflag => ?_, fun s payload n p hc => ?_, fun s payload n p acked hc hdepth hsched => ?_⟩
  · rw [← transmitResult_flagged hflag]
    exact returns_finish hs hsched hcode hcsn hready hv hflag
  · obtain ⟨d, hd, hret⟩ := returns_transmit (D₀ := OnAir s.dev) (schedules_failureFree s.par) hc (OnAir.refl _)
      (transmitStages_onAir hc.structural hc.staticPayload (paddedPayload payload n))
    refine ⟨_, returns_imp hret fun t ⟨hdev, hp, hce, hcsn, hz, hcache, hsent, _⟩ => ?_, ?_⟩
    · have hsame := sameRegistersOnAir_of (rs := [.config]) (c := s.par) (d := s.dev) hdev.1
        (by intro r hr; cases r <;> first | rfl | exact absurd (by decide) hr) rfl
      refine ⟨hdev.1.config, hdev.2.1, hdev.2.2, fun r hr => hsame.1 r fun k => hr ?_, hsame.2, hce, hcsn, hz, hcache, ?_, hsent⟩
      · simp only [List.mem_cons, List.not_mem_nil, or_false] at k ⊢
        tauto
      · rw [xcvrState_eq (hp ▸ hc.structural), hdev.1.config]
        exact if_pos (and_FC_powerDown _)
    · rw [transmitResult_statusByte hc.structural]
      obtain ⟨-, hds, hrt⟩ := hd
      split
      · exact .inl ⟨rfl, hds ‹_›⟩
      split
      · exact .inr (.inl ⟨rfl, hrt ‹_›⟩)
      · exact .inr (.inr rfl)
  · obtain ⟨k, t, hrun, hst, hsent, hres, hprog⟩ := run_pulse acked hc hdepth
    have hsentIff := txSent_iff hc.structural acked s.dev
    refine ⟨pulseSchedule s.par acked, pulseSchedule_failureFree _ _, _, returns_imp
      (returns_afterPulse hc.structural hc.ready hc.configLegal hrun hres hprog hst)
      (fun v ⟨h1, h2, h3, h4⟩ => ⟨h1, h2, h3, sent_of_trace hsent h4⟩), fun h => if_pos (hsentIff.2 h),
      fun h => if_neg fun k => h (hsentIff.1 k)⟩

end

section
/-! Proofs: `initializeRadio` (42_configuration.md R113 and R115). -/

namespace Sys2Proof.Machine

open Sys2Proof Sys2Proof.Safety

/-! ## The line that closes a frame left open -/

/-- The radio core runs into no refusal when dynamic payload is off, or the device is powered down. -/
theorem radiatesAll_onAir_powered {c : Config} {d : Device} (h : d.pwrUp c = true → dynamicPayloadOn c d = false) : RadiatesAll c (OnAir d) where
  static x hx hp := by
    rw [hx.dynamicPayloadOn]
    exact h (by rw [hx] at hp; exact hp)
  start _ hx _ := by rw [hx]; rfl
  sent _ _ hx _ _ := by rw [hx]; rfl
  lost _ _ hx _ _ := by rw [hx]; rfl
  deliver _ _ hx := by rw [hx]; rfl

/-- A `SetCSN(1)` line, whatever the level of CSN was. -/
theorem run_setCSN_high {c : Config} {P : Nat → List Move → Prop} {D D' : Device → Prop} {b : Bool} {j : Nat} {code : List Action} {s : State}
    (hP : Schedules c P) (hE : Keeps P c b D) (hp : s.par = c) (hb : s.csn = b) (hs : P (j + 1) s.sched) (hD : D s.dev)
    (hcode : s.code = .setCSN true :: code)
    (hclose : ∀ v : State, v.par = c → v.csn = b → D v.dev → v.draws = s.draws →
      ∃ d r n, busClose v = .next { v with csn := true, dev := d, resp := r, draws := n } ∧ D' d) :
    ∃ k t, run k s = .next t ∧ Stage c P j s.clock D' code t ∧ t.payloadSize = s.payloadSize ∧ t.pipe0Cache = s.pipe0Cache
      ∧ t.program = s.program ∧ t.results = s.results := by
  obtain ⟨k, t, dr, rest, k1, k2, k3, k4, k5, k6, -⟩ := run_to_controller hP hE _ rfl hp hb hs hD hcode
  obtain ⟨d, r, n, hclosed, hd⟩ := hclose (t.atLine code rest) (k2.par.trans hp) (k2.csn.trans hb) k3 k2.draws
  have hstep : step t = .next ((State.emit { t.atLine code rest with csn := true, dev := d, resp := r, draws := n } (.csn true)).passTime dr.idleMs) := by
    rw [step_of_line k4 k2.code, runAction.eq_2, csnStep, if_neg (by rw [k5.1]; exact nofun), if_pos rfl, hclosed]
    rfl
  refine ⟨k + 1, _, run_trans k1 ((run_one t).trans hstep), ⟨k2.par.trans hp, rfl, k6, ?_, hd, rfl⟩, k2.payloadSize, k2.pipe0Cache,
    k2.program, k2.results⟩
  exact k2.clock.trans (Nat.le_add_right _ _)

/-! ## The frames of steps 3 to 5 -/

theorem legalByte_rule {c : Config} (hs : Structural c) {r : Reg} {v : Byte} (h : legalByte c r v = true) :
    v &&& reservedOfRule r = 0#8 ∧ illegalOfRule r v = false := by
  simpa [legalByte, c.reservedMask_eq hs, c.illegal_eq hs] using h

/-- The device is powered down. -/
def Off (c : Config) (d : Device) : Prop := d.pwrUp c = false

/-- A write of one byte that `initializeRadio` makes: the address, the register and the value, which the register takes. -/
def PlainWrite (w : Byte × Reg × Byte) : Prop :=
  Config.thisHardware.regAt (w.1.setWidth 5) = some w.2.1 ∧ widthOfRule w.2.1 = 1 ∧ accessOfRule w.2.1 = .rw ∧ w.2.1.isFeatureReg = false
    ∧ w.2.1 ≠ .config ∧ w.2.2 &&& reservedOfRule w.2.1 = 0#8 ∧ illegalOfRule w.2.1 w.2.2 = false

/-- The device such a write leaves. -/
def plainStored (d : Device) (w : Byte × Reg × Byte) : Device := { regStore d w.2.1 [w.2.2] with mosi := [], miso := [] }

/-- The frames of such writes. -/
def plainFrames (c : Config) (ws : List (Byte × Reg × Byte)) : List (List (List Byte)) := ws.map fun w => [[writeCmd c w.1, w.2.2]]

theorem off_plainStored {c : Config} {d : Device} {w : Byte × Reg × Byte} (h : Off c d) (hw : w.2.1 ≠ .config) : Off c (plainStored d w) := by
  have hcfg : (plainStored d w).config = d.config := regStore_config hw _
  rw [Off, Device.pwrUp, hcfg]
  exact h

theorem framesTo_plain {c : Config} (hs : Structural c) {ws : List (Byte × Reg × Byte)} : ∀ {d : Device}, Off c d →
    (∀ w ∈ ws, PlainWrite w) → FramesTo c (Off c) d (plainFrames c ws) (ws.foldl plainStored d) := by
  induction ws with
  | nil => intro d _ _; rfl
  | cons w ws ih =>
    intro d hoff hw
    obtain ⟨hr, hwd, ha, hf, hne, hm, hi⟩ := hw w List.mem_cons_self
    refine framesTo_write1 hs hoff (regAt_of hs hr) (commitDev_byte hs (regAt_of hs hr) hwd ha hf hm hi) ?_
    rw [writeSideEffects_of_ne hne]
    exact ih (off_plainStored hoff hne) fun x hx => hw x (List.mem_cons_of_mem _ hx)

/-- EN_AA to RF_SETUP. -/
def modeWrites (c : Config) : List (Byte × Reg × Byte) :=
  [(0x01#8, .enAA, c.variantEnAA), (0x02#8, .enRxaddr, 0x03#8), (0x03#8, .setupAw, c.setupAwInit), (0x04#8, .setupRetr, c.variantSetupRetr),
   (0x05#8, .rfCh, c.variantRfCh), (0x06#8, .rfSetup, c.rfSetupInit)]

theorem modeWrites_plain {c : Config} (hs : Structural c) (hv : InitValuesLegal c) : ∀ w ∈ modeWrites c, PlainWrite w := by
  obtain ⟨-, -, h1, h3, h5, h6⟩ := hv
  simp only [modeWrites, List.mem_cons, List.not_mem_nil, or_false, forall_eq_or_imp, forall_eq]
  exact ⟨⟨rfl, rfl, rfl, rfl, nofun, legalByte_rule hs h1⟩, ⟨rfl, rfl, rfl, rfl, nofun, rfl, rfl⟩,
    ⟨rfl, rfl, rfl, rfl, nofun, legalByte_rule hs h3⟩, ⟨rfl, rfl, rfl, rfl, nofun, BitVec.and_zero, rfl⟩,
    ⟨rfl, rfl, rfl, rfl, nofun, legalByte_rule hs h5⟩, ⟨rfl, rfl, rfl, rfl, nofun, legalByte_rule hs h6⟩⟩

/-- The low address bytes of pipes 2 to 5, and the widths. -/
def pipeWrites : List (Byte × Reg × Byte) :=
  [(0x0C#8, .rxAddrP2, 0xC3#8), (0x0D#8, .rxAddrP3, 0xC4#8), (0x0E#8, .rxAddrP4, 0xC5#8), (0x0F#8, .rxAddrP5, 0xC6#8),
   (0x11#8, .rxPwP0, 0x00#8), (0x12#8, .rxPwP1, 0x00#8), (0x13#8, .rxPwP2, 0x00#8), (0x14#8, .rxPwP3, 0x00#8),
   (0x15#8, .rxPwP4, 0x00#8), (0x16#8, .rxPwP5, 0x00#8)]

theorem pipeWrites_plain : ∀ w ∈ pipeWrites, PlainWrite w := by
  simp only [pipeWrites, PlainWrite]
  decide

/-- The frames of STATUS, of the two registers that ignore writes, and of the three addresses of 5 bytes. -/
def addrFrames (c : Config) : List (List (List Byte)) :=
  [[[writeCmd c 0x07#8, 0x70#8]], [[writeCmd c 0x08#8, 0x00#8]], [[writeCmd c 0x09#8, 0x00#8]],
   [[writeCmd c 0x0A#8], bytesOfAddr 0xE7E7E7E7E7#40], [[writeCmd c 0x10#8], bytesOfAddr 0xE7E7E7E7E7#40],
   [[writeCmd c 0x0B#8], bytesOfAddr 0xC2C2C2C2C2#40]]

/-- The frames of ACTIVATE, FEATURE and DYNPD. -/
def featureFrames (c : Config) : List (List (List Byte)) :=
  [[[0x50#8, 0x73#8]], [[writeCmd c 0x1D#8, 0x00#8]], [[writeCmd c 0x1C#8, 0x00#8]]]

section
variable {c : Config} (hs : Structural c) {d : Device} (hoff : Off c d)
include hs hoff

/-- STATUS, the two registers that ignore writes, and the three addresses of 5 bytes. -/
theorem framesTo_initAddrs : FramesTo c (Off c) d (addrFrames c)
    { clearedDev d with
      rxAddrP0 := 0xE7E7E7E7E7#40, txAddr := 0xE7E7E7E7E7#40, rxAddrP1 := 0xC2C2C2C2C2#40, mosi := [], miso := [] } := by
  refine framesTo_write1 hs hoff (regAt_of (r := .status) hs rfl) (commitDev_status hs rfl) ?_
  rw [clearFlags_all hs]
  refine framesTo_write1 hs hoff (regAt_of (r := .observeTx) hs rfl) (commitDev_ro hs (regAt_of hs rfl) rfl) ?_
  refine framesTo_write1 hs hoff (regAt_of (r := .cd) hs rfl) (commitDev_ro hs (regAt_of hs rfl) rfl) ?_
  refine framesTo_writeN hs hoff (regAt_of (r := .rxAddrP0) hs rfl) (commitDev_addr hs _ (regAt_of hs rfl) rfl) ?_
  refine framesTo_writeN hs hoff (regAt_of (r := .txAddr) hs rfl) (commitDev_addr hs _ (regAt_of hs rfl) rfl) ?_
  refine framesTo_writeN hs hoff (regAt_of (r := .rxAddrP1) hs rfl) (commitDev_addr hs _ (regAt_of hs rfl) rfl) ?_
  simp only [regStore, addrOfBytes_bytesOfAddr]
  rfl

end

/-- `features_active` after ACTIVATE. -/
def activated (c : Config) (b : Bool) : Bool := if c.chipNeedsActivate then !b else b

/-- A register of the features after the writes of 0x00: kept when the features are gated off then. -/
def featureKept (c : Config) (d : Device) (v : Byte) : Byte := if c.chipNeedsActivate && d.featuresActive then v else 0x00#8

/-- After ACTIVATE the features are gated exactly when the chip needs it and they were active. -/
theorem featuresGated_activated {c : Config} {d x : Device} (h : x.featuresActive = activated c d.featuresActive) :
    featuresGated c x = (c.chipNeedsActivate && d.featuresActive) := by
  rw [featuresGated, h, activated]
  cases c.chipNeedsActivate <;> simp

theorem commitDev_activated (c : Config) (d : Device) :
    commitDev c d (.activate [0x73#8]) = some { d with featuresActive := activated c d.featuresActive } := by
  rw [commitDev_activate, activated]
  split <;> rfl

/-- ACTIVATE, and FEATURE and DYNPD. -/
theorem framesTo_initFeatures {c : Config} (hs : Structural c) {d : Device} (hoff : Off c d) :
    FramesTo c (Off c) d (featureFrames c)
    { d with
      featuresActive := activated c d.featuresActive, feature := featureKept c d d.feature, dynpd := featureKept c d d.dynpd
      mosi := [], miso := [] } := by
  have feature : ∀ x : Device, x.featuresActive = activated c d.featuresActive → commitDev c x (.wRegister 0x1D#5 [0x00#8]) =
      some { x with feature := featureKept c d x.feature } := fun x hx => by
    rw [commitDev_feature hs (regAt_of (r := .feature) hs rfl) rfl, featuresGated_activated hx, featureKept]
    split <;> rfl
  have dynpd : ∀ x : Device, x.featuresActive = activated c d.featuresActive → commitDev c x (.wRegister 0x1C#5 [0x00#8]) =
      some { x with dynpd := featureKept c d x.dynpd } := fun x hx => by
    rw [commitDev_feature hs (regAt_of (r := .dynpd) hs rfl) rfl, featuresGated_activated hx, featureKept]
    split <;> rfl
  refine framesTo_cons (i := .activate [0x73#8]) hoff rfl rfl (commitDev_activated c d) ?_
  refine framesTo_write1 hs hoff (regAt_of (r := .feature) hs rfl) (feature _ rfl) ?_
  exact framesTo_write1 hs hoff (regAt_of (r := .dynpd) hs rfl) (dynpd _ rfl) rfl

/-! ## The whole call -/

/-- The frames of steps 3 to 5 after the first. -/
def configFrames (c : Config) : List (List (List Byte)) :=
  plainFrames c (modeWrites c) ++ (addrFrames c ++ (plainFrames c pipeWrites ++ featureFrames c))

/-- The device those frames leave. -/
def configuredDev (c : Config) (d : Device) : Device :=
  { d with
    enAA := c.variantEnAA, enRxaddr := 0x03#8, setupAw := c.setupAwInit, setupRetr := c.variantSetupRetr, rfCh := c.variantRfCh
    rfSetup := c.rfSetupInit, rxDR := false, txDS := false, maxRT := false
    rxAddrP0 := 0xE7E7E7E7E7#40, rxAddrP1 := 0xC2C2C2C2C2#40, rxAddrP2 := 0xC3#8, rxAddrP3 := 0xC4#8, rxAddrP4 := 0xC5#8
    rxAddrP5 := 0xC6#8, txAddr := 0xE7E7E7E7E7#40, rxPwP0 := 0x00#8, rxPwP1 := 0x00#8, rxPwP2 := 0x00#8, rxPwP3 := 0x00#8
    rxPwP4 := 0x00#8, rxPwP5 := 0x00#8
    dynpd := featureKept c d d.dynpd, feature := featureKept c d d.feature, featuresActive := activated c d.featuresActive
    mosi := [], miso := [] }

/-- The device after EN_AA to RF_SETUP. -/
def modeDev (c : Config) (d : Device) : Device :=
  { d with
    enAA := c.variantEnAA, enRxaddr := 0x03#8, setupAw := c.setupAwInit, setupRetr := c.variantSetupRetr, rfCh := c.variantRfCh
    rfSetup := c.rfSetupInit, mosi := [], miso := [] }

theorem modeWrites_stored (c : Config) (d : Device) : (modeWrites c).foldl plainStored d = modeDev c d := by
  simp only [modeWrites, List.foldl_cons, List.foldl_nil, plainStored, regStore, modeDev]
  rfl

/-- The device after the low address bytes and the widths of the pipes. -/
def pipesDev (d : Device) : Device :=
  { d with
    rxAddrP2 := 0xC3#8, rxAddrP3 := 0xC4#8, rxAddrP4 := 0xC5#8, rxAddrP5 := 0xC6#8, rxPwP0 := 0x00#8, rxPwP1 := 0x00#8
    rxPwP2 := 0x00#8, rxPwP3 := 0x00#8, rxPwP4 := 0x00#8, rxPwP5 := 0x00#8, mosi := [], miso := [] }

theorem pipeWrites_stored (d : Device) : pipeWrites.foldl plainStored d = pipesDev d := by
  simp only [pipeWrites, List.foldl_cons, List.foldl_nil, plainStored, regStore, pipesDev]
  rfl

theorem framesTo_config {c : Config} (hs : Structural c) (hv : InitValuesLegal c) {d : Device} (hoff : Off c d) :
    FramesTo c (Off c) d (configFrames c) (configuredDev c d) := by
  have hmode := framesTo_plain hs hoff (modeWrites_plain hs hv)
  rw [modeWrites_stored] at hmode
  have haddr := framesTo_initAddrs (d := modeDev c d) hs hoff
  refine framesTo_append _ hmode (framesTo_append _ haddr ?_)
  have hpipes := fun x (hx : Off c x) => framesTo_plain hs hx pipeWrites_plain
  simp only [pipeWrites_stored] at hpipes
  exact framesTo_append _ (hpipes _ hoff) (framesTo_initFeatures hs hoff)

/-- The end device of `initializeRadio`, from the one at the call. -/
def initializedDev (c : Config) (d : Device) : Device :=
  { configuredDev c d with config := c.configInit, txq := [], rxq := [], txActive := false }

theorem OnAir.initializedDev {c : Config} {d x : Device} (h : OnAir d x) : Machine.initializedDev c x = Machine.initializedDev c d := by
  rw [h]; rfl

/-- The frames of step 6 before the device is powered down. -/
def clearFrames (c : Config) : List (List (List Byte)) := [[[writeCmd c 0x07#8, 0x70#8]], [[0xE1#8]], [[0xE2#8]]]

theorem framesTo_clear {c : Config} (hs : Structural c) {d : Device} (hoff : Off c d) (hcfg : d.config = c.configInit) :
    FramesTo c (Off c) (configuredDev c d) (clearFrames c) (initializedDev c d) := by
  refine framesTo_write1 hs hoff (regAt_of (r := .status) hs rfl) (commitDev_status hs rfl) ?_
  rw [clearFlags_all hs]
  refine framesTo_flushTx hoff (framesTo_flushRx hoff ?_)
  rw [initializedDev, ← hcfg]
  rfl

/-- The lines of `initializeRadio` after the first three. -/
def configLines (c : Config) (n : Nat) : List Action :=
  .frame [[writeCmd c 0x00#8, c.configInit]] :: ((configFrames c).map .frame ++ (.setPayloadSize n :: ((clearFrames c).map .frame ++
    (readReg1 c 0x00#8 :: .rmw 0x00#8 0x00#8 0x02#8 :: [.ret .done]))))

theorem startOp_initialize {c : Config} {req : Option Nat} (h : 1 ≤ req.getD c.payloadSizeReq) {u : State} (hu : u.par = c) :
    startOp (.initializeRadio req) u
      = runLines (.setCSN true :: .setCE false :: .waitMs c.porMs :: configLines c (req.getD c.payloadSizeReq)) u := by
  subst hu
  exact if_neg (Nat.one_le_iff_ne_zero.1 h)

/-- The line that sets the payload size. -/
theorem run_setPayloadSize {c : Config} {P : Nat → List Move → Prop} {D : Device → Prop} {j T n : Nat} {code : List Action} {s : State}
    (hP : Schedules c P) (hE : Keeps P c true D) (h : Stage c P (j + 1) T D (.setPayloadSize n :: code) s) :
    ∃ k t, run k s = .next t ∧ Stage c P j T D code t ∧ Kept { s with payloadSize := some (min n c.maxPayload) } t := by
  obtain ⟨k, v, w, idle, k1, k2, k3, k4, rfl, k5, k6, -⟩ := run_line_next hP hE h (Q := fun v w => w = setPayloadSizeStep n v)
    fun v dr _ _ _ => ⟨_, rfl, rfl, le_rfl, rfl⟩
  have hp : v.par = c := k2.par.trans h.par
  have hclk := h.clock
  refine ⟨k, _, k1, ⟨hp, k2.csn.trans h.csn, k4, ?_, k3, k2.code⟩,
    ⟨k2.ce, by rw [← hp]; rfl, k2.pipe0Cache, k2.program, k2.op, k2.results, by rw [← k2.loc]; rfl, ?_,
      by rw [← k2.trace]; exact List.prefix_rfl, k6⟩⟩
  · exact hclk.trans (k5.trans (Nat.le_add_right _ _))
  · exact k5.trans (Nat.le_add_right _ _)

/-- The call and its first line: the frame left open, if there is one, is closed. -/
theorem run_initCall {s e : State} {req : Option Nat} {p : List HostOp} (hc : CallsUnder FailureFreeMove s (.initializeRadio req) p)
    (hn : 1 ≤ req.getD s.par.payloadSizeReq) (hclose : busClose s = .next e)
    (hdyn : e.dev.config.getLsbD 1 = true → dynamicPayloadOn s.par e.dev = false) :
    ∃ k t, run k s = .next t ∧ (∀ j, Stage s.par (Allowed FailureFreeMove s.par) j s.clock (OnAir e.dev)
        (.setCE false :: .waitMs s.par.porMs :: configLines s.par (req.getD s.par.payloadSizeReq)) t)
      ∧ t.pipe0Cache = s.pipe0Cache ∧ t.program = p ∧ t.results = s.results := by
  have hP := schedules_failureFree s.par
  have hstart := fun (u : State) (hu : u.par = s.par) (_ : u.payloadSize = s.payloadSize) => startOp_initialize hn hu
  suffices ∃ D : Device → Prop, Keeps (Allowed FailureFreeMove s.par) s.par s.csn D ∧ D s.dev ∧
      ∀ v : State, v.par = s.par → v.csn = s.csn → D v.dev → v.draws = s.draws →
        ∃ d r n, busClose v = .next { v with csn := true, dev := d, resp := r, draws := n } ∧ OnAir e.dev d by
    obtain ⟨D, hE, hD, hcl⟩ := this
    obtain ⟨k1, t1, r1, h1, hs1, hd1⟩ := run_call (j := 1) hP hE rfl rfl hc.sched hD hc.idle hc.program hstart
    obtain ⟨k2, t2, r2, st2, -, h2, h3, h4⟩ := run_setCSN_high (j := 0) hP hE h1.par h1.csn hs1 hd1 h1.code
      fun v hp hb hd hw => hcl v hp hb hd (hw.trans h1.draws)
    exact ⟨k1 + k2, t2, run_trans r1 r2, fun j => (st2.anyCount j).imp h1.clock fun _ h => h, h2.trans h1.pipe0Cache, h3.trans h1.program,
      h4.trans h1.results⟩
  cases hb : s.csn with
  | true =>
    obtain rfl : s = e := by simpa [busClose, hb] using hclose
    refine ⟨OnAir s.dev, keeps_failureFree (radiatesAll_onAir_powered fun h => hdyn (pwrUp_eq hc.structural _ ▸ h)), .refl _, ?_⟩
    intro v _ hv hd _
    refine ⟨v.dev, v.resp, v.draws, ?_, hd⟩
    rw [busClose, if_pos hv, ← hv]
  | false =>
    refine ⟨(· = s.dev), keeps_still (.inl rfl), rfl, ?_⟩
    intro v hp hv hd hw
    exact ⟨e.dev, e.resp, e.draws, by rw [busClose_eq hb hv hp hd hw, hclose]; rfl, .refl _⟩

/-- The write of CONFIG, which powers the device down: from then on the radio core does nothing. -/
theorem run_initConfig {c : Config} {P : Nat → List Move → Prop} {j T : Nat} {d : Device} {code : List Action} {s : State} (hP : Schedules c P)
    (hs : Structural c) (hv : InitValuesLegal c) (hE : Keeps P c true (OnAir d)) (hT : c.porMs ≤ T)
    (h : Stage c P (j + 1) T (OnAir d) (.frame [[writeCmd c 0x00#8, c.configInit]] :: code) s) :
    ∃ k t x, run k s = .next t ∧ Stage c P j T (· = x) code t ∧ Kept s t ∧ Off c x ∧ x.config = c.configInit
      ∧ initializedDev c x = initializedDev c d := by
  obtain ⟨hm, hi⟩ := legalByte_rule hs hv.2.1
  obtain ⟨k, t, x, k1, k2, -, k3, -⟩ := run_frame (i := .wRegister 0x00#5 [c.configInit])
    (D' := OnAir { d with config := c.configInit }) hP hE h hT (by simpa using decode_writeCmd hs 0x00#8 [c.configInit])
    (addressRefusal_of_some (r := .config) (regAt_of hs rfl)) fun x hx => by
      obtain ⟨ta, hw, -⟩ := writeSideEffects_config c x c.configInit
      refine ⟨_, commitDev_byte hs (regAt_of (r := .config) hs rfl) rfl rfl rfl hm hi, ?_⟩
      rw [hw, hx]
      rfl
  have hcfg : t.dev.config = c.configInit := k2.dev.config
  refine ⟨k, t, t.dev, k1, ⟨k2.par, k2.csn, k2.sched, k2.clock, rfl, k2.code⟩, k3.kept, ?_, hcfg, k2.dev.initializedDev⟩
  rw [Off, pwrUp_eq hs, hcfg]
  exact hv.1

/-- The initialized device is powered down, so the environment keeps it. -/
theorem keeps_initialized {c : Config} (P : Nat → List Move → Prop) (hs : Structural c) (hv : InitValuesLegal c) (d : Device) :
    Keeps P c true (· = initializedDev c d) :=
  holds_off P c _ ((pwrUp_eq hs _).trans hv.1)

/-- Clearing PWR_UP of a CONFIG value in which it is 0 gives the value itself. -/
theorem powerDown_same {v : Byte} (h : v.getLsbD 1 = false) : (v ||| 0x00#8) &&& ~~~0x02#8 = v := by
  revert v; decide

/-- The read-modify-write that powers the device down finds it powered down. -/
theorem run_powerDown_initialized {c : Config} {P : Nat → List Move → Prop} {j T : Nat} {d : Device} {code : List Action} {s : State}
    (hP : Schedules c P) (hs : Structural c) (hv : InitValuesLegal c)
    (h : Stage c P (j + 3) T (· = initializedDev c d) (readReg1 c 0x00#8 :: .rmw 0x00#8 0x00#8 0x02#8 :: code) s) (hT : c.porMs ≤ T) :
    ∃ k t, run k s = .next t ∧ Stage c P j T (· = initializedDev c d) code t ∧ Kept s t := by
  have hE := keeps_initialized P hs hv d
  obtain ⟨hm, hi⟩ := legalByte_rule hs hv.2.1
  obtain ⟨ta, hw, hta⟩ := writeSideEffects_config c (initializedDev c d) c.configInit
  have hta' : ta = false := by
    cases ta with
    | false => rfl
    | true => exact (hta rfl).symm
  refine run_rmw (r := .config) (v := c.configInit) hP hE hE hs h hT (regAt_of hs rfl) (fun x hx => ⟨by rw [hx]; rfl, by rw [hx]; rfl⟩) ?_
  rintro _ rfl
  rw [powerDown_same hv.1]
  refine ⟨_, commitDev_byte hs (regAt_of (r := .config) hs rfl) rfl rfl rfl hm hi, ?_⟩
  rw [hw, hta']
  rfl

/-- `initializeRadio`, from the call to the result. -/
theorem returns_initialize {s e : State} {req : Option Nat} {p : List HostOp} (hc : CallsUnder FailureFreeMove s (.initializeRadio req) p)
    (hn : 1 ≤ req.getD s.par.payloadSizeReq) (hv : InitValuesLegal s.par) (hclose : busClose s = .next e)
    (hdyn : e.dev.config.getLsbD 1 = true → dynamicPayloadOn s.par e.dev = false) :
    Returns s p (.ok .done) fun t => t.dev = initializedDev s.par e.dev ∧ t.par = s.par ∧ t.csn = true ∧ t.ce = false
      ∧ t.payloadSize = some (min (req.getD s.par.payloadSizeReq) s.par.maxPayload) ∧ t.pipe0Cache = s.pipe0Cache
      ∧ s.clock + s.par.porMs ≤ t.clock := by
  have hs := hc.structural
  have hP := schedules_failureFree s.par
  have hT : s.par.porMs ≤ s.clock + s.par.porMs := Nat.le_add_left _ _
  have hE : Keeps (Allowed FailureFreeMove s.par) s.par true (OnAir e.dev) :=
    keeps_failureFree (radiatesAll_onAir_powered fun h => hdyn (pwrUp_eq hs _ ▸ h))
  obtain ⟨k1, t1, r1, st1, hcache, hprog, hres⟩ := run_initCall hc hn hclose hdyn
  obtain ⟨k2, t2, r2, st2, -, h2, -⟩ := run_setCE (j := 2) hP hE (st1 _)
  obtain ⟨k3, t3, r3, st3, h3, -⟩ := run_wait (j := 0) hP hE st2
  obtain ⟨k4, t4, x, r4, st4, h4, hoff, hcfg, hx⟩ := run_initConfig (j := 0) hP hs hv hE hT (st3.anyCount _)
  have hH := holds_off (Allowed FailureFreeMove s.par) s.par
  obtain ⟨k5, t5, r5, st5, h5⟩ := run_frames (j := 0) hP hH hT _ (st4.anyCount _) (framesTo_config hs hv hoff)
  obtain ⟨k6, t6, r6, st6, h6⟩ := run_setPayloadSize (j := 0) hP (hH (configuredDev s.par x) hoff) (st5.anyCount _)
  obtain ⟨k7, t7, r7, st7, h7⟩ := run_frames (j := 0) hP hH hT _ (st6.anyCount _) (framesTo_clear hs hoff hcfg)
  obtain ⟨k8, t8, r8, st8, h8⟩ := run_powerDown_initialized (j := 1) hP hs hv (st7.anyCount _) hT
  have hcall : Kept { t1 with ce := false } t5 := h2.trans (h3.trans (h4.trans h5))
  have hend : Kept { t5 with payloadSize := some (min (req.getD s.par.payloadSizeReq) s.par.maxPayload) } t8 := h6.trans (h7.trans h8)
  have hrun := run_trans r1 (run_trans r2 (run_trans r3 (run_trans r4 (run_trans r5 (run_trans r6 (run_trans r7 r8))))))
  exact returns_imp (returns_of_stage (j := 0) (r := .done) hP (keeps_initialized _ hs hv _) hrun st8
    (hend.results.trans (hcall.results.trans hres)) (hend.program.trans (hcall.program.trans hprog))) fun v h =>
    ⟨h.dev.trans hx, h.par, h.csn, h.ce.trans (hend.ce.trans hcall.ce), h.payloadSize.trans hend.payloadSize,
      h.pipe0Cache.trans (hend.pipe0Cache.trans (hcall.pipe0Cache.trans hcache)), h.clock⟩

/-! ## What the end state reads -/

theorem statusByte_initialized {c : Config} (hs : Structural c) (h : 1 ≤ c.txFifoDepth) (d : Device) :
    statusByte c (initializedDev c d) = 0x0E#8 := by
  have hfull : txFull c (initializedDev c d) = false := beq_false_of_ne (Nat.ne_of_lt h)
  rw [statusByte_eq hs, hfull]
  show flagBit 6 false ||| flagBit 5 false ||| flagBit 4 false ||| (0b111#3).setWidth 8 <<< 1 ||| flagBit 0 false = _
  decide

theorem featuresGated_initialized (c : Config) (d : Device) :
    featuresGated c (initializedDev c d) = (c.chipNeedsActivate && d.featuresActive) := featuresGated_activated rfl

theorem featureKept_of_not_gated {c : Config} {d : Device} (h : featuresGated c (initializedDev c d) = false) (v : Byte) :
    featureKept c d v = 0x00#8 := by
  rw [featuresGated_initialized] at h
  rw [featureKept, h]
  rfl

/-- DYNPD and FEATURE read 0x00, gated off or written. -/
theorem featureReads_initialized (c : Config) (d : Device) :
    regReadable c (initializedDev c d) .dynpd = [0x00#8] ∧ regReadable c (initializedDev c d) .feature = [0x00#8] := by
  cases hg : featuresGated c (initializedDev c d) with
  | true => exact ⟨if_pos (by rw [hg]; rfl), if_pos (by rw [hg]; rfl)⟩
  | false =>
    have kept : ∀ v, [featureKept c d v] = [0x00#8] := fun v => by rw [featureKept_of_not_gated hg]
    exact ⟨(if_neg (by rw [hg]; nofun)).trans (kept d.dynpd), (if_neg (by rw [hg]; nofun)).trans (kept d.feature)⟩

theorem dynamicPayloadOn_initialized (c : Config) (d : Device) : dynamicPayloadOn c (initializedDev c d) = false := by
  cases hg : featuresGated c (initializedDev c d) with
  | true => rw [dynamicPayloadOn, hg]; rfl
  | false =>
    have hf : (initializedDev c d).feature = 0x00#8 := featureKept_of_not_gated hg _
    have hd : (initializedDev c d).dynpd = 0x00#8 := featureKept_of_not_gated hg _
    rw [dynamicPayloadOn, hf, hd, hg]
    rfl

end Sys2Proof.Machine

open Sys2Proof Sys2Proof.Machine Sys2Proof.Safety

/-- Settles O51: from the write of CONFIG on the device is powered down, so the frames alone make its registers; before it the radio core
changes nothing that a later frame does not write. -/
theorem initializeEndState : Obligations.InitializeEndState := by
  intro s e req p hc hn hv htx hclose hdyn
  have hs := hc.structural
  have he : e.par = s.par := (busClose_outside hclose).1
  refine returns_imp (returns_initialize hc hn hv hclose hdyn) fun t ⟨hdev, hp, hcsn, hce, hsize, hcache, hclk⟩ => ?_
  rw [hs.maxPayload] at hsize
  refine ⟨hsize, hcache, hcsn, hce, ?_, ?_, ?_, ?_, ?_, hclk, hdev⟩
  · rw [xcvrState_eq (hp ▸ hs), hdev]
    exact if_pos hv.1
  · rw [hp, hdev]
    exact statusByte_initialized hs htx _
  · rw [hp, hdev]
    exact (featureReads_initialized _ _).1
  · rw [hp, hdev]
    exact (featureReads_initialized _ _).2
  · rw [hp, hdev]
    exact dynamicPayloadOn_initialized _ _

end
